-- ==== Sys2Proof/Word.lean ====
section
/-! DEFINITION. The words of the machine: bytes, 16-bit words, nibbles, register numbers (00_scope.md R5, 10_state.md R10). -/

namespace Sys2Proof

/-- A general register, a timer, a byte of memory (R4, `XLEN` = 8). -/
abbrev Byte := BitVec 8

/-- PC, I, a stack entry, an instruction word (R4, R60). -/
abbrev Word := BitVec 16

/-- One of the four nibbles of an instruction word (R61). -/
abbrev Nibble := BitVec 4

/-- A 12-bit address field `NNN` (R62). -/
abbrev Addr12 := BitVec 12

/-- A register index, "always in [0,15]" by construction (R10). -/
abbrev Reg := Fin 16

end Sys2Proof
end

