-- ==== Sys2Proof/Syntax.lean ====
section
/-! DEFINITION. The 34 instructions of the opcode map (30_encoding.md R64), one constructor per row of spec/opcode_table.json,
in the table's order. The fields are those of R61 and R62: `x` and `y` register indices, `nn` an 8-bit immediate,
`nnn` a 12-bit address, `n` a 4-bit count. -/

namespace Sys2Proof

inductive Instr where
  /-- 00E0 `CLS` (R100) -/
  | cls
  /-- 00EE `RET` (R101) -/
  | ret
  /-- 1NNN `JP nnn` (R102) -/
  | jpNnn (nnn : Addr12)
  /-- 2NNN `CALL nnn` (R103) -/
  | callNnn (nnn : Addr12)
  /-- 3XNN `SE Vx, nn` (R110) -/
  | seVxNn (x : Reg) (nn : Byte)
  /-- 4XNN `SNE Vx, nn` (R111) -/
  | sneVxNn (x : Reg) (nn : Byte)
  /-- 5XY0 `SE Vx, Vy` (R112) -/
  | seVxVy (x y : Reg)
  /-- 6XNN `LD Vx, nn` (R120) -/
  | ldVxNn (x : Reg) (nn : Byte)
  /-- 7XNN `ADD Vx, nn` (R121) -/
  | addVxNn (x : Reg) (nn : Byte)
  /-- 8XY0 `LD Vx, Vy` (R130) -/
  | ldVxVy (x y : Reg)
  /-- 8XY1 `OR Vx, Vy` (R131) -/
  | orVxVy (x y : Reg)
  /-- 8XY2 `AND Vx, Vy` (R132) -/
  | andVxVy (x y : Reg)
  /-- 8XY3 `XOR Vx, Vy` (R133) -/
  | xorVxVy (x y : Reg)
  /-- 8XY4 `ADD Vx, Vy` (R134) -/
  | addVxVy (x y : Reg)
  /-- 8XY5 `SUB Vx, Vy` (R135) -/
  | subVxVy (x y : Reg)
  /-- 8XY6 `SHR Vx` (R136); the word's Y field may hold anything and is ignored by the instruction -/
  | shrVx (x y : Reg)
  /-- 8XY7 `SUBN Vx, Vy` (R137) -/
  | subnVxVy (x y : Reg)
  /-- 8XYE `SHL Vx` (R138); the word's Y field may hold anything and is ignored by the instruction -/
  | shlVx (x y : Reg)
  /-- 9XY0 `SNE Vx, Vy` (R113) -/
  | sneVxVy (x y : Reg)
  /-- ANNN `LD I, nnn` (R150) -/
  | ldINnn (nnn : Addr12)
  /-- BNNN `JP V0, nnn` (R151) -/
  | jpV0Nnn (nnn : Addr12)
  /-- CXNN `RND Vx, nn` (R152) -/
  | rndVxNn (x : Reg) (nn : Byte)
  /-- DXYN `DRW Vx, Vy, n` (R160) -/
  | drwVxVyN (x y : Reg) (n : Nibble)
  /-- EX9E `SKP Vx` (R170) -/
  | skpVx (x : Reg)
  /-- EXA1 `SKNP Vx` (R171) -/
  | sknpVx (x : Reg)
  /-- FX07 `LD Vx, DT` (R180) -/
  | ldVxDt (x : Reg)
  /-- FX0A `LD Vx, K` (R172) -/
  | ldVxK (x : Reg)
  /-- FX15 `LD DT, Vx` (R181) -/
  | ldDtVx (x : Reg)
  /-- FX18 `LD ST, Vx` (R182) -/
  | ldStVx (x : Reg)
  /-- FX1E `ADD I, Vx` (R190) -/
  | addIVx (x : Reg)
  /-- FX29 `LD F, Vx` (R191) -/
  | ldFVx (x : Reg)
  /-- FX33 `LD B, Vx` (R192) -/
  | ldBVx (x : Reg)
  /-- FX55 `LD [I], Vx` (R193) -/
  | ldMemVx (x : Reg)
  /-- FX65 `LD Vx, [I]` (R194) -/
  | ldVxMem (x : Reg)
  deriving DecidableEq, Repr

end Sys2Proof
end

