-- ==== Sys2Proof/WellFormed.lean ====
section
/-! DEFINITION. The check of an instruction's operand ranges (30_encoding.md R62: X and Y in 0..15, NN in 0..255, N in 0..15,
NNN in 0..4095), stated on raw numbers. The operand types of `Instr` already carry these bounds, so every `Instr` passes
(`Sys2Proof.Laws.wellFormed_all`); the checks refuse raw operands that fit no field. -/

namespace Sys2Proof

/-- A raw register index fits the X or Y field. -/
def fitsReg (x : Nat) : Bool := x < 16
/-- A raw immediate fits the NN field. -/
def fitsNN (nn : Nat) : Bool := nn < 256
/-- A raw count fits the N field. -/
def fitsN (n : Nat) : Bool := n < 16
/-- A raw address fits the NNN field. -/
def fitsNNN (nnn : Nat) : Bool := nnn < 4096

/-- Every operand of the instruction fits its field of the word (R62). -/
def Instr.wellFormed : Instr → Bool
  | .cls | .ret => true
  | .jpNnn nnn | .callNnn nnn | .ldINnn nnn | .jpV0Nnn nnn => fitsNNN nnn.toNat
  | .seVxNn x nn | .sneVxNn x nn | .ldVxNn x nn | .addVxNn x nn | .rndVxNn x nn => fitsReg x.val && fitsNN nn.toNat
  | .seVxVy x y | .sneVxVy x y | .ldVxVy x y | .orVxVy x y | .andVxVy x y | .xorVxVy x y | .addVxVy x y | .subVxVy x y
  | .shrVx x y | .subnVxVy x y | .shlVx x y => fitsReg x.val && fitsReg y.val
  | .drwVxVyN x y n => fitsReg x.val && fitsReg y.val && fitsN n.toNat
  | .skpVx x | .sknpVx x | .ldVxDt x | .ldVxK x | .ldDtVx x | .ldStVx x | .addIVx x | .ldFVx x | .ldBVx x | .ldMemVx x
  | .ldVxMem x => fitsReg x.val

end Sys2Proof
end

