-- ==== Sys2Proof/Decode.lean ====
section
/-! DEFINITION. Decoding (30_encoding.md R60 to R68), total on any word, an unknown opcode rejected by name, and after it the
encoder, written from the same table (R64). -/

namespace Sys2Proof

/-! ### Fields of the instruction word (R61) -/

/-- The family, `op[15:12]`. -/
def fieldF (op : Word) : Nibble := op.extractLsb' 12 4
/-- `X = op[11:8]` as a nibble. -/
def nibbleX (op : Word) : Nibble := op.extractLsb' 8 4
/-- `Y = op[7:4]` as a nibble. -/
def nibbleY (op : Word) : Nibble := op.extractLsb' 4 4
/-- `N = op[3:0]`. -/
def fieldN (op : Word) : Nibble := op.extractLsb' 0 4
/-- `NN = op[7:0]`. -/
def fieldNN (op : Word) : Byte := op.extractLsb' 0 8
/-- `NNN = op[11:0]`. -/
def fieldNNN (op : Word) : Addr12 := op.extractLsb' 0 12
/-- `X` as a register index. -/
def fieldX (op : Word) : Reg := (nibbleX op).toFin
/-- `Y` as a register index. -/
def fieldY (op : Word) : Reg := (nibbleY op).toFin

/-- A 16-bit big-endian word of two bytes (20_memory.md R41). -/
def wordOfBytes (hi lo : Byte) : Word := hi ++ lo
/-- The byte at the lower address (R41). -/
def highByte (op : Word) : Byte := op.extractLsb' 8 8
/-- The byte at the higher address (R41). -/
def lowByte (op : Word) : Byte := op.extractLsb' 0 8

/-! ### The decoder -/

/-- Why a word is no instruction: `DecodeWarning::UnknownOpcode(value)` (60_exceptions.md R222). -/
inductive DecodeWarning where
  /-- The word matches no row of R64; carries the full word. -/
  | unknownOpcode (op : Word)
  deriving DecidableEq, Repr

/-- Family 0: the whole word must be 0x00E0 or 0x00EE (R65). -/
def decodeFamily0 (op : Word) : Except DecodeWarning Instr :=
  if op = 0x00E0#16 then .ok .cls
  else if op = 0x00EE#16 then .ok .ret
  else .error (.unknownOpcode op)

/-- Family 5: the low nibble must be 0 (R65). -/
def decodeFamily5 (op : Word) : Except DecodeWarning Instr :=
  if fieldN op = 0x0#4 then .ok (.seVxVy (fieldX op) (fieldY op)) else .error (.unknownOpcode op)

/-- Family 8: the low nibble is the sub-code, one of 0 to 7 or E (R65). -/
def decodeFamily8 (op : Word) : Except DecodeWarning Instr :=
  let x := fieldX op
  let y := fieldY op
  match (fieldN op).toNat with
  | 0x0 => .ok (.ldVxVy x y)
  | 0x1 => .ok (.orVxVy x y)
  | 0x2 => .ok (.andVxVy x y)
  | 0x3 => .ok (.xorVxVy x y)
  | 0x4 => .ok (.addVxVy x y)
  | 0x5 => .ok (.subVxVy x y)
  | 0x6 => .ok (.shrVx x y)
  | 0x7 => .ok (.subnVxVy x y)
  | 0xE => .ok (.shlVx x y)
  | _ => .error (.unknownOpcode op)

/-- Family 9: the low nibble must be 0 (R65). -/
def decodeFamily9 (op : Word) : Except DecodeWarning Instr :=
  if fieldN op = 0x0#4 then .ok (.sneVxVy (fieldX op) (fieldY op)) else .error (.unknownOpcode op)

/-- Family E: the low byte is 9E or A1 (R65). -/
def decodeFamilyE (op : Word) : Except DecodeWarning Instr :=
  if fieldNN op = 0x9E#8 then .ok (.skpVx (fieldX op))
  else if fieldNN op = 0xA1#8 then .ok (.sknpVx (fieldX op))
  else .error (.unknownOpcode op)

/-- Family F: the low byte is one of nine sub-codes (R65). -/
def decodeFamilyF (op : Word) : Except DecodeWarning Instr :=
  let x := fieldX op
  if fieldNN op = 0x07#8 then .ok (.ldVxDt x)
  else if fieldNN op = 0x0A#8 then .ok (.ldVxK x)
  else if fieldNN op = 0x15#8 then .ok (.ldDtVx x)
  else if fieldNN op = 0x18#8 then .ok (.ldStVx x)
  else if fieldNN op = 0x1E#8 then .ok (.addIVx x)
  else if fieldNN op = 0x29#8 then .ok (.ldFVx x)
  else if fieldNN op = 0x33#8 then .ok (.ldBVx x)
  else if fieldNN op = 0x55#8 then .ok (.ldMemVx x)
  else if fieldNN op = 0x65#8 then .ok (.ldVxMem x)
  else .error (.unknownOpcode op)

/-- Two levels (R63): `op[15:12]` selects the family, a sub-code selects the instruction in families 0, 5, 8, 9, E and F. -/
def decodeWord (op : Word) : Except DecodeWarning Instr :=
  match (fieldF op).toNat with
  | 0x0 => decodeFamily0 op
  | 0x1 => .ok (.jpNnn (fieldNNN op))
  | 0x2 => .ok (.callNnn (fieldNNN op))
  | 0x3 => .ok (.seVxNn (fieldX op) (fieldNN op))
  | 0x4 => .ok (.sneVxNn (fieldX op) (fieldNN op))
  | 0x5 => decodeFamily5 op
  | 0x6 => .ok (.ldVxNn (fieldX op) (fieldNN op))
  | 0x7 => .ok (.addVxNn (fieldX op) (fieldNN op))
  | 0x8 => decodeFamily8 op
  | 0x9 => decodeFamily9 op
  | 0xA => .ok (.ldINnn (fieldNNN op))
  | 0xB => .ok (.jpV0Nnn (fieldNNN op))
  | 0xC => .ok (.rndVxNn (fieldX op) (fieldNN op))
  | 0xD => .ok (.drwVxVyN (fieldX op) (fieldY op) (fieldN op))
  | 0xE => decodeFamilyE op
  | _ => decodeFamilyF op

/-- Decoding the two bytes an instruction occupies, the byte at the lower address first (R60). -/
def decodeBytes (hi lo : Byte) : Except DecodeWarning Instr := decodeWord (wordOfBytes hi lo)

/-! ### The encoder -/

/-- A register index as a nibble. -/
def regNibble (r : Reg) : Nibble := BitVec.ofFin r

/-- Four nibbles from bit 15 down: `F X Y N` (R61). -/
def wordFXYN (f : Nibble) (x y : Reg) (n : Nibble) : Word := f ++ regNibble x ++ regNibble y ++ n
/-- `F X NN` (R61). -/
def wordFXNN (f : Nibble) (x : Reg) (nn : Byte) : Word := f ++ regNibble x ++ nn
/-- `F NNN` (R61). -/
def wordFNNN (f : Nibble) (nnn : Addr12) : Word := f ++ nnn

/-- The word of an instruction, from the table of R64. -/
def encode : Instr → Word
  | .cls => 0x00E0#16
  | .ret => 0x00EE#16
  | .jpNnn nnn => wordFNNN 0x1#4 nnn
  | .callNnn nnn => wordFNNN 0x2#4 nnn
  | .seVxNn x nn => wordFXNN 0x3#4 x nn
  | .sneVxNn x nn => wordFXNN 0x4#4 x nn
  | .seVxVy x y => wordFXYN 0x5#4 x y 0x0#4
  | .ldVxNn x nn => wordFXNN 0x6#4 x nn
  | .addVxNn x nn => wordFXNN 0x7#4 x nn
  | .ldVxVy x y => wordFXYN 0x8#4 x y 0x0#4
  | .orVxVy x y => wordFXYN 0x8#4 x y 0x1#4
  | .andVxVy x y => wordFXYN 0x8#4 x y 0x2#4
  | .xorVxVy x y => wordFXYN 0x8#4 x y 0x3#4
  | .addVxVy x y => wordFXYN 0x8#4 x y 0x4#4
  | .subVxVy x y => wordFXYN 0x8#4 x y 0x5#4
  | .shrVx x y => wordFXYN 0x8#4 x y 0x6#4
  | .subnVxVy x y => wordFXYN 0x8#4 x y 0x7#4
  | .shlVx x y => wordFXYN 0x8#4 x y 0xE#4
  | .sneVxVy x y => wordFXYN 0x9#4 x y 0x0#4
  | .ldINnn nnn => wordFNNN 0xA#4 nnn
  | .jpV0Nnn nnn => wordFNNN 0xB#4 nnn
  | .rndVxNn x nn => wordFXNN 0xC#4 x nn
  | .drwVxVyN x y n => wordFXYN 0xD#4 x y n
  | .skpVx x => wordFXNN 0xE#4 x 0x9E#8
  | .sknpVx x => wordFXNN 0xE#4 x 0xA1#8
  | .ldVxDt x => wordFXNN 0xF#4 x 0x07#8
  | .ldVxK x => wordFXNN 0xF#4 x 0x0A#8
  | .ldDtVx x => wordFXNN 0xF#4 x 0x15#8
  | .ldStVx x => wordFXNN 0xF#4 x 0x18#8
  | .addIVx x => wordFXNN 0xF#4 x 0x1E#8
  | .ldFVx x => wordFXNN 0xF#4 x 0x29#8
  | .ldBVx x => wordFXNN 0xF#4 x 0x33#8
  | .ldMemVx x => wordFXNN 0xF#4 x 0x55#8
  | .ldVxMem x => wordFXNN 0xF#4 x 0x65#8

/-- The two bytes of an instruction as memory holds them, big-endian (R41). -/
def encodeBytes (i : Instr) : List Byte := [highByte (encode i), lowByte (encode i)]

/-! ### The opcode map as data (R64) -/

/-- `(mask, match)` of the instruction's row of R64: a word is the row's when `(op AND mask) = match` (R63). -/
def Instr.row : Instr → Word × Word
  | .cls => (0xFFFF, 0x00E0)
  | .ret => (0xFFFF, 0x00EE)
  | .jpNnn _ => (0xF000, 0x1000)
  | .callNnn _ => (0xF000, 0x2000)
  | .seVxNn _ _ => (0xF000, 0x3000)
  | .sneVxNn _ _ => (0xF000, 0x4000)
  | .seVxVy _ _ => (0xF00F, 0x5000)
  | .ldVxNn _ _ => (0xF000, 0x6000)
  | .addVxNn _ _ => (0xF000, 0x7000)
  | .ldVxVy _ _ => (0xF00F, 0x8000)
  | .orVxVy _ _ => (0xF00F, 0x8001)
  | .andVxVy _ _ => (0xF00F, 0x8002)
  | .xorVxVy _ _ => (0xF00F, 0x8003)
  | .addVxVy _ _ => (0xF00F, 0x8004)
  | .subVxVy _ _ => (0xF00F, 0x8005)
  | .shrVx _ _ => (0xF00F, 0x8006)
  | .subnVxVy _ _ => (0xF00F, 0x8007)
  | .shlVx _ _ => (0xF00F, 0x800E)
  | .sneVxVy _ _ => (0xF00F, 0x9000)
  | .ldINnn _ => (0xF000, 0xA000)
  | .jpV0Nnn _ => (0xF000, 0xB000)
  | .rndVxNn _ _ => (0xF000, 0xC000)
  | .drwVxVyN _ _ _ => (0xF000, 0xD000)
  | .skpVx _ => (0xF0FF, 0xE09E)
  | .sknpVx _ => (0xF0FF, 0xE0A1)
  | .ldVxDt _ => (0xF0FF, 0xF007)
  | .ldVxK _ => (0xF0FF, 0xF00A)
  | .ldDtVx _ => (0xF0FF, 0xF015)
  | .ldStVx _ => (0xF0FF, 0xF018)
  | .addIVx _ => (0xF0FF, 0xF01E)
  | .ldFVx _ => (0xF0FF, 0xF029)
  | .ldBVx _ => (0xF0FF, 0xF033)
  | .ldMemVx _ => (0xF0FF, 0xF055)
  | .ldVxMem _ => (0xF0FF, 0xF065)

/-- One instruction of each row, in the table's order. -/
def oneOfEachRow : List Instr :=
  [.cls, .ret, .jpNnn 0, .callNnn 0, .seVxNn 0 0, .sneVxNn 0 0, .seVxVy 0 0, .ldVxNn 0 0, .addVxNn 0 0, .ldVxVy 0 0,
   .orVxVy 0 0, .andVxVy 0 0, .xorVxVy 0 0, .addVxVy 0 0, .subVxVy 0 0, .shrVx 0 0, .subnVxVy 0 0, .shlVx 0 0]
  ++ [.sneVxVy 0 0, .ldINnn 0, .jpV0Nnn 0, .rndVxNn 0 0, .drwVxVyN 0 0 0, .skpVx 0, .sknpVx 0, .ldVxDt 0, .ldVxK 0,
   .ldDtVx 0, .ldStVx 0, .addIVx 0, .ldFVx 0, .ldBVx 0, .ldMemVx 0, .ldVxMem 0]

/-- The 34 rows of R64 as `(mask, match)`. -/
def opcodeRows : List (Word × Word) := oneOfEachRow.map Instr.row

/-- The word `op` matches the row (R63). -/
def matchesRow (op : Word) (row : Word × Word) : Bool := op &&& row.1 == row.2

/-! ### The host's entry point -/

/-- The instruction the decoder reads from the bits `w` of a table row of `nbits` bits: bit 0 is the least significant bit of
the one 16-bit word; the bits from `nbits` up are 0; the word is laid out as memory holds it, high byte first (R41). An
instruction is never longer than 16 bits (R60), so a longer row is none. -/
def decodeTableWord (nbits w : Nat) : Option Instr :=
  if nbits ≤ 16 then
    let op : Word := BitVec.ofNat 16 (w % 2 ^ nbits)
    match decodeBytes (highByte op) (lowByte op) with
    | .ok i => some i
    | .error _ => none
  else none

end Sys2Proof
end

