-- ==== Sys2Proof/Config.lean ====
section
/-! DEFINITION. What an implementation fixes: the sizes of 00_scope.md R4, the two parameters R4 leaves open (a record that
State carries, so that every statement holds for every choice of them), and the free value of the machine, the random byte. -/

namespace Sys2Proof

/-- `MEM_SIZE`: bytes of memory (R4). -/
abbrev memSize : Nat := 4096
/-- `LOAD_ADDR`: where a program is loaded and where PC points after reset (R4). -/
abbrev loadAddr : Nat := 512
/-- `ROM_MAX`: the largest program (R4, R252). -/
abbrev romMax : Nat := 3584
/-- `GLYPH_LEN`: bytes of one glyph (R4). -/
abbrev glyphLen : Nat := 5
/-- `STACK_DEPTH`: entries of the call stack (R4). -/
abbrev stackDepth : Nat := 16
/-- `FB_W`: pixels of a framebuffer row (R4). -/
abbrev fbWidth : Nat := 64
/-- `FB_SIZE`: pixels of the framebuffer (R4). -/
abbrev fbSize : Nat := 2048
/-- `NKEYS`: keys of the key matrix (R4). -/
abbrev numKeys : Nat := 16

/-- The two parameters 00_scope.md R4 marks as open. Log entry 2: State carries them, no operation writes them. -/
structure Config where
  /-- `FX1E_SETS_VF`: does `ADD I, Vx` write VF (48_index_memory.md R190, D20) -/
  fx1eSetsVF : Bool
  /-- `FONT`: the `FONT_LEN` = 80 font bytes (R4, 20_memory.md R47, D3) -/
  font : Vector Byte 80
  deriving DecidableEq, Repr

/-- The free value `draw_byte()` (00_scope.md R6, 10_state.md R27, D15): the byte the environment supplies in the `k`-th
randomize instruction. No body: nothing constrains it. DESIGN CHOICE, log entry 1. -/
opaque Config.drawByte : Nat → Byte

end Sys2Proof
end

