-- ==== Sys2Proof/Machine/State.lean ====
section
/-! DEFINITION. The state of the block as plain data (10_state.md), the fault causes, the reasons a step can stop, and the
state after reset (R28). -/

namespace Sys2Proof.Machine

/-- The three faults (60_exceptions.md R221). -/
inductive Cause where
  | stackOverflow
  | stackUnderflow
  | addressOutOfRange
  deriving DecidableEq, Repr

/-- A raised fault with its information word, which is reported and not stored (R221, D28). -/
structure Raise where
  cause : Cause
  info : Nat
  deriving DecidableEq, Repr

/-- MODE, the engine's control state (R26). -/
inductive Mode where
  /-- the next `STEP` fetches and executes an instruction -/
  | running
  /-- the next `STEP` polls the key matrix; `x` is the register that will receive the key -/
  | waitingForKey (x : Reg)
  /-- a fault was raised; `STEP` and `TICK` change nothing -/
  | halted (c : Cause)
  deriving DecidableEq, Repr

/-- Why a step would stop with no next state. No constructor: every exception of this machine has an entry the spec describes
(R224), so a step that raises one has a NEXT state, in mode `halted` (log entry 3); nobody raises a `Fault`. -/
inductive Fault where
  deriving DecidableEq, Repr

/-- Why the model gives an operation no meaning. -/
inductive Refusal where
  /-- Raised by an arm of `exec` for an instruction with no meaning yet; no arm uses it. Safe. -/
  | notModelled (mnemonic : String)
  /-- Raised by `Block.apply` for any operation but RESET and LOAD before the first of them (R13, R201, R251, U12). Safe. -/
  | beforeFirstReset
  /-- Raised by `Block.apply` for SET_KEY with an index of 16 or more, a host error outside the spec (R204, U21). Safe. -/
  | keyIndexOutsideMatrix (k : Nat)
  deriving DecidableEq, Repr

/-- The bytes of MEM that differ from the reset contents, addresses strictly rising (log entry 11). -/
abbrev Memory := List Host.Cell

/-- The framebuffer: 32 rows, top first, of 64 pixels, bit `x` of row `y` being pixel (x, y) (R24). -/
abbrev FrameBuffer := Vector (BitVec 64) 32

/-- The complete state of the block (10_state.md, R10 to R26), and the model's own `draws` (log entry 1) and `config` (log
entry 2). -/
structure State where
  /-- V0 to VF (R10); VF is `v[15]` (R11) -/
  v : Vector Byte 16
  /-- the index register (R17) -/
  i : Word
  /-- the program counter (R15) -/
  pc : Word
  /-- the stack pointer, 0 to 16 inclusive (R18) -/
  sp : Fin 17
  /-- the call stack (R19) -/
  stack : Vector Word 16
  /-- main memory (R23) -/
  mem : Memory
  /-- the framebuffer (R24) -/
  fb : FrameBuffer
  /-- the key matrix, bit `k` is 1 when key `k` is pressed (R25) -/
  key : BitVec 16
  /-- the delay timer (R20) -/
  dt : Byte
  /-- the sound timer (R21) -/
  st : Byte
  /-- the redraw flag (R22) -/
  redraw : Bool
  /-- the engine mode (R26) -/
  mode : Mode
  /-- how many free bytes randomize has drawn: the model's own (log entry 1) -/
  draws : Nat
  /-- the open parameters of R4: configuration, written by nothing (log entry 2) -/
  config : Config
  deriving DecidableEq, Repr

/-- Every field at its value in the table of R28, for the given parameters: memory lists nothing, since an unlisted address
reads as the reset contents. -/
def State.resetWith (c : Config) : State where
  v := Vector.replicate 16 0
  i := 0
  pc := BitVec.ofNat 16 loadAddr
  sp := 0
  stack := Vector.replicate 16 0
  mem := []
  fb := Vector.replicate 32 0
  key := 0
  dt := 0
  st := 0
  redraw := true
  mode := .running
  draws := 0
  config := c

/-- The machine right after reset, with the parameters at their defaults (R28, R250). -/
def State.reset : State := State.resetWith defaultConfig

end Sys2Proof.Machine
end

