-- ==== Sys2Proof/Machine/Ops.lean ====
section
/-! DEFINITION. The named operations over registers, memory, framebuffer, keys and stack: the pseudocode primitives of
00_scope.md R6, the only ways a meaning touches state; taking a fault (60_exceptions.md R224); fetch (20_memory.md R42); the
key-wait poll (46_keys.md R173); the unknown opcode (30_encoding.md R66). -/

namespace Sys2Proof.Machine

/-! ### Registers -/

/-- VF = V[15] (R11). -/
abbrev vf : Reg := 15

/-- `V[x]` (R6). -/
def State.reg (s : State) (x : Reg) : Byte := s.v[x]
/-- `V[x] <- b` (R6). -/
def State.setReg (s : State) (x : Reg) (b : Byte) : State := { s with v := s.v.set x b }
/-- All of V at once. -/
def State.setRegs (s : State) (v : Vector Byte 16) : State := { s with v := v }
/-- `I <- w`. -/
def State.setI (s : State) (w : Word) : State := { s with i := w }
/-- `PC <- w`. -/
def State.setPc (s : State) (w : Word) : State := { s with pc := w }
/-- `SP <- n`. -/
def State.setSp (s : State) (n : Fin 17) : State := { s with sp := n }
/-- `STACK[k] <- w`. -/
def State.setStack (s : State) (k : Fin 16) (w : Word) : State := { s with stack := s.stack.set k w }
/-- All of MEM at once. -/
def State.setMem (s : State) (m : Memory) : State := { s with mem := m }
/-- All of FB at once. -/
def State.setFb (s : State) (f : FrameBuffer) : State := { s with fb := f }
/-- All of KEY at once. -/
def State.setKeys (s : State) (k : BitVec 16) : State := { s with key := k }
/-- `DT <- b`. -/
def State.setDt (s : State) (b : Byte) : State := { s with dt := b }
/-- `ST <- b`. -/
def State.setSt (s : State) (b : Byte) : State := { s with st := b }
/-- `REDRAW <- b`. -/
def State.setRedraw (s : State) (b : Bool) : State := { s with redraw := b }
/-- `MODE <- m`. -/
def State.setMode (s : State) (m : Mode) : State := { s with mode := m }
/-- The number of bytes drawn (log entry 1). -/
def State.setDraws (s : State) (n : Nat) : State := { s with draws := n }

/-- `pc <- PC + n`, 16-bit (R16). -/
def State.advance (s : State) (n : Nat) : State := s.setPc (s.pc + BitVec.ofNat 16 n)

/-- A skip: `PC + 4` if the condition holds, else `PC + 2` (R16). -/
def State.skipIf (s : State) (cond : Bool) : State := if cond then s.advance 4 else s.advance 2

/-! ### Faults -/

/-- The numeric code of a fault (R221, D17). -/
def Cause.code : Cause → Nat
  | .stackOverflow => 1
  | .stackUnderflow => 2
  | .addressOutOfRange => 3

/-- Taking a fault (R224): nothing is saved, no vector is fetched, every other piece of state keeps its value; MODE becomes
`Halted(c)`. There is no return from it (R226): only RESET and LOAD leave the mode. -/
def State.halt (s : State) (c : Cause) : State := s.setMode (.halted c)

/-- The end of an instruction: its new state, or the fault it raised taken in the state BEFORE it, which discards every write
it had made (R6, R224). -/
def commit (s : State) : Except Raise State → Host.Outcome State Fault Refusal
  | .ok t => .next t
  | .error r => .next (s.halt r.cause)

/-- `raise AddressOutOfRange(a)` (R6). -/
def outOfRange (a : Nat) : Raise := { cause := .addressOutOfRange, info := a }

/-! ### Memory -/

/-- What an unlisted address reads as: the reset contents, the font at [0, 80) and 0 above it (R28, R46). -/
def resetByte (c : Config) (a : Nat) : Byte := if h : a < 80 then c.font[a] else 0

/-- The listed value of an address. -/
def Memory.lookup : Memory → Nat → Option Byte
  | [], _ => none
  | (b, v) :: m, a => if a = b then some v else Memory.lookup m a

/-- One byte of memory. -/
def Memory.read (c : Config) (m : Memory) (a : Nat) : Byte := (Memory.lookup m a).getD (resetByte c a)

/-- List a value at its place, replacing one already listed. -/
def Memory.insert (a : Nat) (v : Byte) : Memory → Memory
  | [] => [(a, v)]
  | (b, w) :: m =>
    if a < b then (a, v) :: (b, w) :: m
    else if a = b then (a, v) :: m
    else (b, w) :: Memory.insert a v m

/-- Unlist an address. -/
def Memory.erase (a : Nat) : Memory → Memory
  | [] => []
  | (b, w) :: m => if a = b then Memory.erase a m else (b, w) :: Memory.erase a m

/-- Write one byte, keeping the canonical form: writing what an unlisted address reads as removes the entry. -/
def Memory.write (c : Config) (m : Memory) (a : Nat) (v : Byte) : Memory :=
  if v = resetByte c a then Memory.erase a m else Memory.insert a v m

/-- Every listed address is above `lo`, inside MEM and rising, and no entry equals the reset contents. -/
def Memory.wfFrom (c : Config) : Nat → Memory → Bool
  | _, [] => true
  | lo, (a, v) :: m => decide (lo ≤ a) && decide (a < memSize) && decide (v ≠ resetByte c a) && Memory.wfFrom c (a + 1) m

/-- The canonical form. -/
def Memory.wf (c : Config) (m : Memory) : Bool := Memory.wfFrom c 0 m

/-- `MEM[a]` as plain storage (R45); 4096 and above hold nothing and read as 0, but no access reaches them (`memRead`). -/
def State.byteAt (s : State) (a : Nat) : Byte := Memory.read s.config s.mem a

/-- `MEM[a] <- v` as plain storage. -/
def State.setByte (s : State) (a : Nat) (v : Byte) : State := s.setMem (Memory.write s.config s.mem a v)

/-- `MemRead(a, 1)`: never wraps, never truncates (R6, R44). -/
def State.memRead (s : State) (a : Nat) : Except Raise Byte :=
  if a < memSize then .ok (s.byteAt a) else .error (outOfRange a)

/-- `MemRead(a, 2)`: big-endian, reports its first argument (R6, R221). -/
def State.memRead2 (s : State) (a : Nat) : Except Raise Word :=
  if a + 1 < memSize then .ok (wordOfBytes (s.byteAt a) (s.byteAt (a + 1))) else .error (outOfRange a)

/-- `MemWrite(a, 1, v)` (R6, R44); no range is protected (R48). -/
def State.memWrite (s : State) (a : Nat) (v : Byte) : Except Raise State :=
  if a < memSize then .ok (s.setByte a v) else .error (outOfRange a)

/-- `MemWrite` of successive bytes from `a` up, in ascending order. -/
def State.storeBytes : List Byte → Nat → State → Except Raise State
  | [], _, s => .ok s
  | b :: bs, a, s =>
    match s.memWrite a b with
    | .ok t => State.storeBytes bs (a + 1) t
    | .error r => .error r

/-- `V[i] <- MemRead(base + i, 1)` for the registers listed, in that order. -/
def State.loadRegs (base : Nat) : List Reg → State → Except Raise State
  | [], s => .ok s
  | x :: xs, s =>
    match s.memRead (base + x.val) with
    | .ok b => State.loadRegs base xs (s.setReg x b)
    | .error r => .error r

/-! ### Framebuffer -/

/-- The blank framebuffer (R100). -/
def blankScreen : FrameBuffer := Vector.replicate 32 0

/-- Pixel `i` of a framebuffer: column `i mod 64` of row `i / 64`, since pixel (x, y) has index `y*64 + x` (R24); an index of
2048 or more is no pixel and reads as 0, but no access reaches it (`State.fbRead`). -/
def pixel (f : FrameBuffer) (i : Nat) : Bool :=
  if h : i / 64 < 32 then f[i / 64].getLsbD (i % 64) else false

/-- A row of pixels with column `c` set to `b`. -/
def setColumn (row : BitVec 64) (c : Nat) (b : Bool) : BitVec 64 :=
  if b then row ||| (1#64 <<< c) else row &&& ~~~(1#64 <<< c)

/-- A framebuffer with pixel `i` set to `b`. -/
def setPixel (f : FrameBuffer) (i : Nat) (b : Bool) : FrameBuffer :=
  if h : i / 64 < 32 then f.set (i / 64) (setColumn f[i / 64] (i % 64) b) else f

/-- `FbRead(i)` (R6, R53). -/
def State.fbRead (s : State) (i : Nat) : Except Raise Bool :=
  if i < fbSize then .ok (pixel s.fb i) else .error (outOfRange i)

/-- `FbWrite(i, b)` (R6, R53). -/
def State.fbWrite (s : State) (i : Nat) (b : Bool) : Except Raise State :=
  if i < fbSize then .ok (s.setFb (setPixel s.fb i b)) else .error (outOfRange i)

/-! ### Keys -/

/-- `KeyRead(k)` (R6, R54). -/
def State.keyRead (s : State) (k : Nat) : Except Raise Bool :=
  if k < numKeys then .ok (s.key.getLsbD k) else .error (outOfRange k)

/-- The register and key numbers in rising order. -/
def allRegs : List Reg := [0, 1, 2, 3, 4, 5, 6, 7, 8, 9, 10, 11, 12, 13, 14, 15]

/-- The least pressed key (R173, D11). -/
def lowestKey (keys : BitVec 16) : Option Reg := allRegs.find? fun k => keys.getLsbD k.val

/-- The key-wait poll for register `x` (R173). -/
def State.pollKeys (s : State) (x : Reg) : State :=
  match lowestKey s.key with
  | some k => ((s.setReg x (BitVec.ofNat 8 k.val)).advance 2).setMode .running
  | none => s

/-! ### Call stack -/

/-- Push a return address (R103), or `raise StackOverflow(PC)` when all 16 entries are live. -/
def State.push (s : State) (w : Word) : Except Raise State :=
  if h : s.sp.val < stackDepth then
    .ok ((s.setStack ⟨s.sp.val, h⟩ w).setSp ⟨s.sp.val + 1, Nat.succ_lt_succ h⟩)
  else .error { cause := .stackOverflow, info := s.pc.toNat }

/-- Pop the top live entry, leaving it in place (R19, R101), or `raise StackUnderflow(PC)`. -/
def State.pop (s : State) : Except Raise (Word × State) :=
  if h : 0 < s.sp.val then
    have hlt : s.sp.val - 1 < 16 := by have := s.sp.isLt; omega
    .ok (s.stack[s.sp.val - 1], s.setSp ⟨s.sp.val - 1, Nat.lt_succ_of_lt hlt⟩)
  else .error { cause := .stackUnderflow, info := s.pc.toNat }

/-! ### Fetch and the unknown opcode -/

/-- `op <- MemRead(PC, 2)` (R42). -/
def State.fetch (s : State) : Except Raise Word := s.memRead2 s.pc.toNat

/-- The step of an unknown opcode: `pc <- PC + 2` and nothing else (R66). -/
def State.skipUnknown (s : State) : State := s.advance 2

/-- Place a word at PC, big-endian (R41). -/
def State.placeWord (s : State) (op : Word) : State :=
  (s.setByte s.pc.toNat (highByte op)).setByte (s.pc.toNat + 1) (lowByte op)

/-- A state whose next `STEP` fetches at PC: mode Running, and PC at 512 if nothing can be fetched at it (R42, R220). -/
def State.readyToFetch (s : State) : State :=
  let t := if s.pc.toNat + 1 < memSize then s else s.setPc (BitVec.ofNat 16 loadAddr)
  t.setMode .running

end Sys2Proof.Machine
end

