-- ==== Sys2Proof/Machine/Operands.lean ====
section
/-! DEFINITION. The operand forms (30_encoding.md R62, 48_index_memory.md's single addressing mode, 45_draw.md R161). -/

namespace Sys2Proof.Machine

/-- `NNN` as a 16-bit address (R62). -/
def addrOf (nnn : Addr12) : Word := nnn.setWidth 16

/-- The effective address `I + k`, a natural number without wrap (R44). -/
def State.effAddr (s : State) (k : Nat) : Nat := s.i.toNat + k

/-- The register numbers `0 .. x` in rising order (R193, R194). -/
def regsUpTo (x : Reg) : List Reg := allRegs.take (x.val + 1)

/-- `V[0..x]`, read before any write (R193). -/
def State.regsValues (s : State) (x : Reg) : List Byte := (regsUpTo x).map s.reg

/-- Hundreds, tens and ones of a byte (R192). -/
def decimalDigits (a : Byte) : List Byte :=
  [BitVec.ofNat 8 (a.toNat / 100), BitVec.ofNat 8 (a.toNat / 10 % 10), BitVec.ofNat 8 (a.toNat % 10)]

/-- Sprite column `c` of a row byte is bit `7 - c` (R161). -/
def spriteBit (row : Byte) (c : Nat) : Bool := row.getLsbD (7 - c)

/-- The pixel index of sprite row `r`, column `c`, with no reduction (R53). -/
def pixelIndex (x0 y0 r c : Nat) : Nat := (y0 + r) * fbWidth + (x0 + c)

end Sys2Proof.Machine
end

