-- ==== Sys2Proof/Machine/Flags.lean ====
section
/-! DEFINITION. Results and flag values of the flag-writing instructions (10_state.md R11, 43_alu.md R139), computed over the
natural numbers and narrowed at the end (00_scope.md R5), and the order of the two writes (R14, R140). -/

namespace Sys2Proof.Machine

/-- A flag as VF holds it: 1 or 0. -/
def flagByte (b : Bool) : Byte := if b then 1 else 0

/-- `(a + b) mod 256` (R121, R134). -/
def addResult (a b : Byte) : Byte := BitVec.ofNat 8 (a.toNat + b.toNat)
/-- 1 when the sum exceeds 255 (R134). -/
def carryFlag (a b : Byte) : Byte := flagByte (decide (a.toNat + b.toNat > 255))

/-- `(a - b + 256) mod 256` (R135, R137). -/
def subResult (a b : Byte) : Byte := BitVec.ofNat 8 (a.toNat + 256 - b.toNat)
/-- 0 when `b > a`, a borrow, else 1 (R135, R137). -/
def noBorrowFlag (a b : Byte) : Byte := flagByte (!decide (b.toNat > a.toNat))

/-- `a / 2` (R136). -/
def shrResult (a : Byte) : Byte := BitVec.ofNat 8 (a.toNat / 2)
/-- Bit 0 before the shift (R136). -/
def shrFlag (a : Byte) : Byte := flagByte (a.getLsbD 0)

/-- `(a * 2) mod 256` (R138). -/
def shlResult (a : Byte) : Byte := BitVec.ofNat 8 (a.toNat * 2)
/-- Bit 7 before the shift (R138). -/
def shlFlag (a : Byte) : Byte := flagByte (a.getLsbD 7)

/-- `(I + VX) mod 65536` (R190, D21). -/
def indexSum (i : Word) (a : Byte) : Word := BitVec.ofNat 16 (i.toNat + a.toNat)
/-- 1 when the unwrapped sum exceeds 0xFFF (R190). -/
def indexFlag (i : Word) (a : Byte) : Byte := flagByte (decide (i.toNat + a.toNat > 0xFFF))

/-- The flag is written first and the result second, so with `x = 15` the result stays in VF (R14, R140). -/
def State.writeFlagged (s : State) (x : Reg) (flag result : Byte) : State := (s.setReg vf flag).setReg x result

end Sys2Proof.Machine
end

