-- ==== Sys2Proof/Machine/Alu.lean ====
section
/-! DEFINITION. Register-to-register ALU operations (43_alu.md R130 to R140). Operands are read from the state before the
step, flags are written before results (R14, R140). -/

namespace Sys2Proof.Machine

/-- `LD Vx, Vy` (R130). -/
def execLdVxVy (x y : Reg) (s : State) : Host.Outcome State Fault Refusal := .next ((s.setReg x (s.reg y)).advance 2)

/-- `OR Vx, Vy` (R131). -/
def execOrVxVy (x y : Reg) (s : State) : Host.Outcome State Fault Refusal :=
  .next ((s.setReg x (s.reg x ||| s.reg y)).advance 2)

/-- `AND Vx, Vy` (R132). -/
def execAndVxVy (x y : Reg) (s : State) : Host.Outcome State Fault Refusal :=
  .next ((s.setReg x (s.reg x &&& s.reg y)).advance 2)

/-- `XOR Vx, Vy` (R133). -/
def execXorVxVy (x y : Reg) (s : State) : Host.Outcome State Fault Refusal :=
  .next ((s.setReg x (s.reg x ^^^ s.reg y)).advance 2)

/-- `ADD Vx, Vy` (R134): VF is the carry out; there is no carry in. -/
def execAddVxVy (x y : Reg) (s : State) : Host.Outcome State Fault Refusal :=
  .next ((s.writeFlagged x (carryFlag (s.reg x) (s.reg y)) (addResult (s.reg x) (s.reg y))).advance 2)

/-- `SUB Vx, Vy` (R135): VX minus VY, VF 1 when there is no borrow. -/
def execSubVxVy (x y : Reg) (s : State) : Host.Outcome State Fault Refusal :=
  .next ((s.writeFlagged x (noBorrowFlag (s.reg x) (s.reg y)) (subResult (s.reg x) (s.reg y))).advance 2)

/-- `SHR Vx` (R136): VX in place; the Y field is ignored. -/
def execShrVx (x : Reg) (s : State) : Host.Outcome State Fault Refusal :=
  .next ((s.writeFlagged x (shrFlag (s.reg x)) (shrResult (s.reg x))).advance 2)

/-- `SUBN Vx, Vy` (R137): VY minus VX into VX. -/
def execSubnVxVy (x y : Reg) (s : State) : Host.Outcome State Fault Refusal :=
  .next ((s.writeFlagged x (noBorrowFlag (s.reg y) (s.reg x)) (subResult (s.reg y) (s.reg x))).advance 2)

/-- `SHL Vx` (R138): VX in place; the Y field is ignored. -/
def execShlVx (x : Reg) (s : State) : Host.Outcome State Fault Refusal :=
  .next ((s.writeFlagged x (shlFlag (s.reg x)) (shlResult (s.reg x))).advance 2)

end Sys2Proof.Machine
end

