-- ==== Sys2Proof/Machine/Draw.lean ====
section
/-! DEFINITION. Sprite draw: the XOR compositor and the collision detector (45_draw.md R160, R161), the loops of R160 as they
stand. -/

namespace Sys2Proof.Machine

/-- The sprite's columns, left to right. -/
def spriteColumns : List Nat := [0, 1, 2, 3, 4, 5, 6, 7]

/-- One set sprite bit (R160): a pixel that was 1 raises VF, and the pixel is toggled. -/
def drawPixel (idx : Nat) (s : State) : Except Raise State :=
  match s.fbRead idx with
  | .ok old => (if old then s.setReg vf 1 else s).fbWrite idx (!old)
  | .error r => .error r

/-- The columns of one sprite row; a 0 bit makes no access (R161). -/
def drawRow (row : Byte) (x0 y0 r : Nat) : List Nat → State → Except Raise State
  | [], s => .ok s
  | c :: cs, s =>
    if spriteBit row c then
      match drawPixel (pixelIndex x0 y0 r c) s with
      | .ok t => drawRow row x0 y0 r cs t
      | .error e => .error e
    else drawRow row x0 y0 r cs s

/-- The rows of the sprite, each read at `base + r` before it is drawn. -/
def drawRows (base x0 y0 : Nat) : List Nat → State → Except Raise State
  | [], s => .ok s
  | r :: rs, s =>
    match s.memRead (base + r) with
    | .ok row =>
      match drawRow row x0 y0 r spriteColumns s with
      | .ok t => drawRows base x0 y0 rs t
      | .error e => .error e
    | .error e => .error e

/-- What `DRW Vx, Vy, n` does or raises (R160): the coordinates are latched, VF cleared, the rows drawn, REDRAW set. -/
def effectDrwVxVyN (x y : Reg) (n : Nibble) (s : State) : Except Raise State :=
  match drawRows (s.effAddr 0) (s.reg x).toNat (s.reg y).toNat (List.range n.toNat) (s.setReg vf 0) with
  | .ok t => .ok ((t.setRedraw true).advance 2)
  | .error r => .error r

/-- `DRW Vx, Vy, n` (R160). -/
def execDrwVxVyN (x y : Reg) (n : Nibble) (s : State) : Host.Outcome State Fault Refusal :=
  commit s (effectDrwVxVyN x y n s)

end Sys2Proof.Machine
end

