-- ==== Sys2Proof/Machine/Immediate.lean ====
section
/-! DEFINITION. Load immediate and add immediate (42_immediate.md R120, R121). -/

namespace Sys2Proof.Machine

/-- `LD Vx, nn` (R120). -/
def execLdVxNn (x : Reg) (nn : Byte) (s : State) : Host.Outcome State Fault Refusal := .next ((s.setReg x nn).advance 2)

/-- `ADD Vx, nn` (R121): wraps, does not touch VF. -/
def execAddVxNn (x : Reg) (nn : Byte) (s : State) : Host.Outcome State Fault Refusal :=
  .next ((s.setReg x (addResult (s.reg x) nn)).advance 2)

end Sys2Proof.Machine
end

