-- ==== Sys2Proof/Machine/IndexJumpRandom.lean ====
section
/-! DEFINITION. Set index, jump with offset, randomize (44_index_jump_random.md R150 to R152). -/

namespace Sys2Proof.Machine

/-- `LD I, nnn` (R150). -/
def execLdINnn (nnn : Addr12) (s : State) : Host.Outcome State Fault Refusal := .next ((s.setI (addrOf nnn)).advance 2)

/-- `JP V0, nnn` (R151): the sum is not reduced modulo 4096 and not checked. -/
def execJpV0Nnn (nnn : Addr12) (s : State) : Host.Outcome State Fault Refusal :=
  .next (s.setPc (BitVec.ofNat 16 (nnn.toNat + (s.reg 0).toNat)))

/-- The effect of `RND Vx, nn` for the drawn byte `r` (R152); the draw counter moves on (DESIGN CHOICE, log entry 1). -/
def randomizeWith (r : Byte) (x : Reg) (nn : Byte) (s : State) : State :=
  ((s.setReg x (r &&& nn)).setDraws (s.draws + 1)).advance 2

/-- `RND Vx, nn` (R152): the drawn byte is a free value (DESIGN CHOICE, log entry 1). -/
def execRndVxNn (x : Reg) (nn : Byte) (s : State) : Host.Outcome State Fault Refusal :=
  .next (randomizeWith (Config.drawByte s.draws) x nn s)

end Sys2Proof.Machine
end

