-- ==== Sys2Proof/Machine/IndexMemory.lean ====
section
/-! DEFINITION. Index arithmetic, font address, BCD, register dump and load (48_index_memory.md R190 to R194). -/

namespace Sys2Proof.Machine

/-- `ADD I, Vx` (R190): writes VF only when the parameter `FX1E_SETS_VF` is true; never faults. -/
def execAddIVx (x : Reg) (s : State) : Host.Outcome State Fault Refusal :=
  let t := if s.config.fx1eSetsVF then s.setReg vf (indexFlag s.i (s.reg x)) else s
  .next ((t.setI (indexSum s.i (s.reg x))).advance 2)

/-- What `LD F, Vx` does or raises (R191): a glyph number above 15 is out of range, not masked. -/
def effectLdFVx (x : Reg) (s : State) : Except Raise State :=
  if (s.reg x).toNat < 16 then .ok ((s.setI (BitVec.ofNat 16 ((s.reg x).toNat * glyphLen))).advance 2)
  else .error (outOfRange (s.reg x).toNat)

/-- `LD F, Vx` (R191). -/
def execLdFVx (x : Reg) (s : State) : Host.Outcome State Fault Refusal := commit s (effectLdFVx x s)

/-- What `LD B, Vx` does or raises (R192). -/
def effectLdBVx (x : Reg) (s : State) : Except Raise State :=
  match State.storeBytes (decimalDigits (s.reg x)) (s.effAddr 0) s with
  | .ok t => .ok (t.advance 2)
  | .error r => .error r

/-- `LD B, Vx` (R192): I is unchanged. -/
def execLdBVx (x : Reg) (s : State) : Host.Outcome State Fault Refusal := commit s (effectLdBVx x s)

/-- What `LD [I], Vx` does or raises (R193). -/
def effectLdMemVx (x : Reg) (s : State) : Except Raise State :=
  match State.storeBytes (s.regsValues x) (s.effAddr 0) s with
  | .ok t => .ok ((t.setI (BitVec.ofNat 16 (s.effAddr (x.val + 1)))).advance 2)
  | .error r => .error r

/-- `LD [I], Vx` (R193): I moves past the last byte written. -/
def execLdMemVx (x : Reg) (s : State) : Host.Outcome State Fault Refusal := commit s (effectLdMemVx x s)

/-- What `LD Vx, [I]` does or raises (R194). -/
def effectLdVxMem (x : Reg) (s : State) : Except Raise State :=
  match State.loadRegs (s.effAddr 0) (regsUpTo x) s with
  | .ok t => .ok ((t.setI (BitVec.ofNat 16 (s.effAddr (x.val + 1)))).advance 2)
  | .error r => .error r

/-- `LD Vx, [I]` (R194): I moves past the last byte read. -/
def execLdVxMem (x : Reg) (s : State) : Host.Outcome State Fault Refusal := commit s (effectLdVxMem x s)

end Sys2Proof.Machine
end

