-- ==== Sys2Proof/Machine/Keys.lean ====
section
/-! DEFINITION. Key skips and wait for key (46_keys.md R170 to R172); the poll itself is `State.pollKeys` (R173). -/

namespace Sys2Proof.Machine

/-- What `SKP Vx` does or raises (R170): the key number is VX, not masked. -/
def effectSkpVx (x : Reg) (s : State) : Except Raise State :=
  match s.keyRead (s.reg x).toNat with
  | .ok p => .ok (s.skipIf p)
  | .error r => .error r

/-- `SKP Vx` (R170). -/
def execSkpVx (x : Reg) (s : State) : Host.Outcome State Fault Refusal := commit s (effectSkpVx x s)

/-- What `SKNP Vx` does or raises (R171). -/
def effectSknpVx (x : Reg) (s : State) : Except Raise State :=
  match s.keyRead (s.reg x).toNat with
  | .ok p => .ok (s.skipIf (!p))
  | .error r => .error r

/-- `SKNP Vx` (R171). -/
def execSknpVx (x : Reg) (s : State) : Host.Outcome State Fault Refusal := commit s (effectSknpVx x s)

/-- `LD Vx, K` (R172): the step that starts the wait moves neither PC nor VX and reads no key. -/
def execLdVxK (x : Reg) (s : State) : Host.Outcome State Fault Refusal := .next (s.setMode (.waitingForKey x))

end Sys2Proof.Machine
end

