-- ==== Sys2Proof/Machine/ScreenAndSubroutines.lean ====
section
/-! DEFINITION. Clear screen, return, jump, call (40_screen_and_subroutines.md R100 to R103). -/

namespace Sys2Proof.Machine

/-- `CLS` (R100): every pixel 0, REDRAW set whether or not anything changed. -/
def execCls (s : State) : Host.Outcome State Fault Refusal :=
  .next (((s.setFb blankScreen).setRedraw true).advance 2)

/-- What `RET` does or raises (R101): the `+ 2` is applied at return time. -/
def effectRet (s : State) : Except Raise State :=
  match s.pop with
  | .ok (ra, t) => .ok (t.setPc (ra + 2))
  | .error r => .error r

/-- `RET` (R101). -/
def execRet (s : State) : Host.Outcome State Fault Refusal := commit s (effectRet s)

/-- `JP nnn` (R102): no check of the target. -/
def execJpNnn (nnn : Addr12) (s : State) : Host.Outcome State Fault Refusal := .next (s.setPc (addrOf nnn))

/-- What `CALL nnn` does or raises (R103): it pushes its own address, not that address plus 2. -/
def effectCallNnn (nnn : Addr12) (s : State) : Except Raise State :=
  match s.push s.pc with
  | .ok t => .ok (t.setPc (addrOf nnn))
  | .error r => .error r

/-- `CALL nnn` (R103). -/
def execCallNnn (nnn : Addr12) (s : State) : Host.Outcome State Fault Refusal := commit s (effectCallNnn nnn s)

end Sys2Proof.Machine
end

