-- ==== Sys2Proof/Machine/Skips.lean ====
section
/-! DEFINITION. Conditional skips on registers (41_skips.md R110 to R113): equality of 8-bit values only. -/

namespace Sys2Proof.Machine

/-- `SE Vx, nn` (R110). -/
def execSeVxNn (x : Reg) (nn : Byte) (s : State) : Host.Outcome State Fault Refusal := .next (s.skipIf (s.reg x == nn))

/-- `SNE Vx, nn` (R111). -/
def execSneVxNn (x : Reg) (nn : Byte) (s : State) : Host.Outcome State Fault Refusal := .next (s.skipIf (s.reg x != nn))

/-- `SE Vx, Vy` (R112). -/
def execSeVxVy (x y : Reg) (s : State) : Host.Outcome State Fault Refusal := .next (s.skipIf (s.reg x == s.reg y))

/-- `SNE Vx, Vy` (R113). -/
def execSneVxVy (x y : Reg) (s : State) : Host.Outcome State Fault Refusal := .next (s.skipIf (s.reg x != s.reg y))

end Sys2Proof.Machine
end

