-- ==== Sys2Proof/Machine/Timers.lean ====
section
/-! DEFINITION. Timer access instructions (47_timers.md R180 to R182) and the timer countdown unit (60_exceptions.md R231 to
R233). -/

namespace Sys2Proof.Machine

/-- `LD Vx, DT` (R180). -/
def execLdVxDt (x : Reg) (s : State) : Host.Outcome State Fault Refusal := .next ((s.setReg x s.dt).advance 2)

/-- `LD DT, Vx` (R181). -/
def execLdDtVx (x : Reg) (s : State) : Host.Outcome State Fault Refusal := .next ((s.setDt (s.reg x)).advance 2)

/-- `LD ST, Vx` (R182): never raises the beep itself. -/
def execLdStVx (x : Reg) (s : State) : Host.Outcome State Fault Refusal := .next ((s.setSt (s.reg x)).advance 2)

/-- A timer counts down by 1 and stays at 0 (R231). -/
def countDown (b : Byte) : Byte := if b = 0 then 0 else b - 1

/-- The state after `TICK` (R231): in mode Halted nothing changes (R233). -/
def tick (s : State) : State :=
  match s.mode with
  | .halted _ => s
  | .running | .waitingForKey _ => (s.setDt (countDown s.dt)).setSt (countDown s.st)

/-- `beep_started` of `TICK` (R203, R232): exactly when this tick takes ST from 1 to 0. -/
def tickBeep (s : State) : Bool :=
  match s.mode with
  | .halted _ => false
  | .running | .waitingForKey _ => s.st == 1

end Sys2Proof.Machine
end

