-- ==== Sys2Proof/Machine/Engine.lean ====
section
/-! DEFINITION. One instruction in mode Running: fetch, decode, execute (60_exceptions.md R220). -/

namespace Sys2Proof.Machine

/-- Execute the fetched word: the row's instruction, or the unknown opcode of R66. -/
def executeWord (op : Word) (s : State) : Host.Outcome State Fault Refusal :=
  match decodeWord op with
  | .ok i => exec i s
  | .error _ => .next s.skipUnknown

/-- A `STEP` in mode Running (R220): a failed fetch takes the fault and decodes nothing (R225). -/
def runInstruction (s : State) : Host.Outcome State Fault Refusal :=
  match s.fetch with
  | .ok op => executeWord op s
  | .error r => .next (s.halt r.cause)

/-- The word the bits of an opcode-table row stand for: the bits from `nbits` up are 0, and an instruction has 16 (R60). -/
def tableWord (nbits w : Nat) : Word := BitVec.ofNat 16 (w % 2 ^ nbits)

/-- A state whose next `STEP` fetches and runs exactly `op` (log entry 5). -/
def State.loadedWith (s : State) (op : Word) : State := s.readyToFetch.placeWord op

end Sys2Proof.Machine
end

