-- ==== Sys2Proof/Machine/Step.lean ====
section
/-! DEFINITION. `STEP`, the engine's one transition (60_exceptions.md R220), and the placing of a word where it fetches. -/

namespace Sys2Proof.Machine

/-- `STEP` (R220): by mode, nothing (R226), the key-wait poll (R173), or one instruction. -/
def step (s : State) : Host.Outcome State Fault Refusal :=
  match s.mode with
  | .halted _ => .next s
  | .waitingForKey x => .next (s.pollKeys x)
  | .running => runInstruction s

/-- `s` with the instruction of the bits `w` stored where `step` fetches next (log entry 5). -/
def State.withFetchWord (s : State) (nbits w : Nat) : State := s.loadedWith (tableWord nbits w)

end Sys2Proof.Machine
end

