-- ==== Sys2Proof/Machine/Outcome.lean ====
section
/-! DEFINITION. The outcome a `STEP` reports to the host (50_host_interface.md R202): a function of the state before the step,
stored nowhere in the block (log entry 4). -/

namespace Sys2Proof.Machine

/-- A reported fault: its cause, and the information word in the step that raises it only (R202, R221, D28). -/
structure FaultReport where
  cause : Cause
  info : Option Nat
  deriving DecidableEq, Repr

/-- The four fields of a `STEP` outcome (R202). -/
structure StepOutcome where
  /-- REDRAW after the step, a level (D29) -/
  redraw : Bool
  /-- always 0: a step never changes a timer (D13) -/
  beep : Bool
  /-- `UnknownOpcode(op)` -/
  warning : Option Word
  fault : Option FaultReport
  deriving DecidableEq, Repr

/-- The fault of an instruction's effect, if it raises one. -/
def raiseOf : Except Raise State → Option Raise
  | .ok _ => none
  | .error r => some r

/-- The fault the instruction raises in this state (R223): every instruction not listed there raises nothing. -/
def Instr.raises (i : Instr) (s : State) : Option Raise :=
  match i with
  | .ret => raiseOf (effectRet s)
  | .callNnn nnn => raiseOf (effectCallNnn nnn s)
  | .drwVxVyN x y n => raiseOf (effectDrwVxVyN x y n s)
  | .skpVx x => raiseOf (effectSkpVx x s)
  | .sknpVx x => raiseOf (effectSknpVx x s)
  | .ldFVx x => raiseOf (effectLdFVx x s)
  | .ldBVx x => raiseOf (effectLdBVx x s)
  | .ldMemVx x => raiseOf (effectLdMemVx x s)
  | .ldVxMem x => raiseOf (effectLdVxMem x s)
  | .cls | .jpNnn _ | .seVxNn _ _ | .sneVxNn _ _ | .seVxVy _ _ | .ldVxNn _ _ | .addVxNn _ _ | .ldVxVy _ _ | .orVxVy _ _
  | .andVxVy _ _ | .xorVxVy _ _ | .addVxVy _ _ | .subVxVy _ _ | .shrVx _ _ | .subnVxVy _ _ | .shlVx _ _ | .sneVxVy _ _
  | .ldINnn _ | .jpV0Nnn _ | .rndVxNn _ _ | .ldVxDt _ | .ldVxK _ | .ldDtVx _ | .ldStVx _ | .addIVx _ => none

/-- The fault a `STEP` in mode Running raises: the fetch's first (R225), then the instruction's. -/
def State.raisedInRunning (s : State) : Option Raise :=
  match s.fetch with
  | .error r => some r
  | .ok op =>
    match decodeWord op with
    | .ok i => Instr.raises i s
    | .error _ => none

/-- The warning of a `STEP` in mode Running (R222). -/
def State.warningInRunning (s : State) : Option Word :=
  match s.fetch with
  | .error _ => none
  | .ok op =>
    match decodeWord op with
    | .ok _ => none
    | .error (.unknownOpcode w) => some w

/-- The warning of a `STEP` (R202): a poll and a halted step give none (R173, R226). -/
def stepWarning (s : State) : Option Word :=
  match s.mode with
  | .running => s.warningInRunning
  | .waitingForKey _ | .halted _ => none

/-- The fault of a `STEP` (R202): with its information word in the step that raises it, and the cause again in every later
step (R226). -/
def stepFault (s : State) : Option FaultReport :=
  match s.mode with
  | .running => s.raisedInRunning.map fun r => { cause := r.cause, info := some r.info }
  | .waitingForKey _ => none
  | .halted c => some { cause := c, info := none }

/-- REDRAW after the step (R202, R220). -/
def redrawAfterStep (s : State) : Bool :=
  match step s with
  | .next t => t.redraw
  | .fault _ | .refused _ => s.redraw

/-- The outcome of `STEP` (R202). -/
def stepOutcome (s : State) : StepOutcome where
  redraw := redrawAfterStep s
  beep := false
  warning := stepWarning s
  fault := stepFault s

end Sys2Proof.Machine
end

