-- ==== Sys2Proof/Machine/HostOps.lean ====
section
/-! DEFINITION. The operations the host invokes on the block (50_host_interface.md R200 to R206, 70_reset_and_hazards.md R250
to R252). `STEP` is `step` and `TICK` is `tick`. -/

namespace Sys2Proof.Machine

/-- `RESET` of a block that has been reset before (R250): every field at its value of R28; the parameters stay, and the draws
go on, since "a reset does not make the sequence repeat" (R152; log entries 1 and 2). -/
def resetBlock (s : State) : State := (State.resetWith s.config).setDraws s.draws

/-- Place bytes at successive addresses from `a` up. -/
def placeBytes : List Byte → Nat → State → State
  | [], _, s => s
  | b :: bs, a, s => placeBytes bs (a + 1) (s.setByte a b)

/-- The result of `LOAD` (R252). -/
inductive LoadResult where
  | ok
  | capacityExceeded
  deriving DecidableEq, Repr

/-- The result `LOAD` returns (R252). -/
def loadResult (bytes : List Byte) : LoadResult := if bytes.length > romMax then .capacityExceeded else .ok

/-- The state after `LOAD` (R252): always a reset first; then the bytes from 512 up, or nothing when they do not fit. -/
def load (bytes : List Byte) (s : State) : State :=
  if bytes.length > romMax then resetBlock s else placeBytes bytes loadAddr (resetBlock s)

/-- `SET_KEY(k, p)` for a key of the matrix: `KEY[k] <- p` and nothing else (R204). -/
def setKey (k : Fin 16) (p : Bool) (s : State) : State :=
  s.setKeys (if p then s.key ||| (1#16 <<< k.val) else s.key &&& ~~~(1#16 <<< k.val))

/-- `CLEAR_REDRAW`: `REDRAW <- 0` and nothing else (R206). -/
def clearRedraw (s : State) : State := s.setRedraw false

/-- `FRAME_BUFFER`: the 2048 pixel values, pixel (x, y) at position `y*64 + x` (R205). -/
def frameBuffer (s : State) : List Bool := (List.range fbSize).map (pixel s.fb)

/-- The operations of R200; `SET_KEY` takes the host's raw index. -/
inductive HostOp where
  | reset
  | load (bytes : List Byte)
  | step
  | tick
  | setKey (k : Nat) (p : Bool)
  | clearRedraw
  | frameBuffer
  deriving DecidableEq, Repr

/-- What an operation returns to the host (R200). -/
inductive Reply where
  | none
  | load (r : LoadResult)
  | step (o : StepOutcome)
  | timer (beepStarted : Bool)
  | pixels (fb : List Bool)
  deriving DecidableEq, Repr

/-- The block as power is applied, and once it has been reset: before the first `RESET` or `LOAD` every piece of state is
unspecified, so there is none to hold but the parameters and the position in the draws (R13, R251; log entry 6). -/
inductive Block where
  | unreset (config : Config) (draws : Nat)
  | up (s : State)
  deriving DecidableEq, Repr

/-- The freshly reset state of a block, whatever it held before (R250). -/
def Block.freshState : Block → State
  | .unreset c n => (State.resetWith c).setDraws n
  | .up s => resetBlock s

/-- One operation on a block that has been reset (R201): accepted in every mode. -/
def applyUp (op : HostOp) (s : State) : Host.Outcome (State × Reply) Fault Refusal :=
  match op with
  | .reset => .next (resetBlock s, .none)
  | .load bytes => .next (load bytes s, .load (loadResult bytes))
  | .step =>
    match step s with
    | .next t => .next (t, .step (stepOutcome s))
    | .fault f => .fault f
    | .refused r => .refused r
  | .tick => .next (tick s, .timer (tickBeep s))
  | .setKey k p => if h : k < 16 then .next (setKey ⟨k, h⟩ p s, .none) else .refused (.keyIndexOutsideMatrix k)
  | .clearRedraw => .next (clearRedraw s, .none)
  | .frameBuffer => .next (s, .pixels (frameBuffer s))

/-- One host operation (R200, R201): before the first `RESET` or `LOAD` only these two are accepted. -/
def Block.apply (op : HostOp) (b : Block) : Host.Outcome (State × Reply) Fault Refusal :=
  match b with
  | .up s => applyUp op s
  | .unreset _ _ =>
    match op with
    | .reset => .next (b.freshState, .none)
    | .load bytes => .next (load bytes b.freshState, .load (loadResult bytes))
    | .step | .tick | .setKey _ _ | .clearRedraw | .frameBuffer => .refused .beforeFirstReset

/-- The state after a list of operations on a block that has been reset: any interleaving the host chooses (R7, R207, R256). -/
def runOps : List HostOp → State → Host.Outcome State Fault Refusal
  | [], s => .next s
  | op :: ops, s =>
    match applyUp op s with
    | .next (t, _) => runOps ops t
    | .fault f => .fault f
    | .refused r => .refused r

end Sys2Proof.Machine
end

