-- ==== Sys2Proof/Machine/Pins.lean ====
section
/-! DEFINITION. The pin-level sketch (50_host_interface.md R209, not normative; log entry 15): a wrapper that takes one command
per rising edge of `clk`, samples its inputs there, and shows the block on its outputs. -/

namespace Sys2Proof.Machine

/-- The inputs sampled at an edge. How the bytes of a `LOAD` arrive is left open, so they are an argument of the edge. -/
structure PinInput where
  cmd : BitVec 3
  keyIdx : BitVec 4
  keyVal : Bool
  /-- `rnd`: the byte CXNN samples as its draw -/
  rnd : Byte
  /-- the bytes of a `LOAD` -/
  rom : List Byte
  deriving DecidableEq, Repr

/-- The block, once reset, with the two outputs it does not hold itself. -/
structure Clocked where
  block : State
  /-- high for the one cycle of a `TICK` that takes ST from 1 to 0 -/
  beep : Bool
  /-- `warn` and `warn_op`: the unknown-opcode warning of the last `STEP` -/
  warn : Option Word
  deriving DecidableEq, Repr

/-- The command on `cmd`: 0 none, 7 treated as none. -/
def PinInput.command (p : PinInput) : Option HostOp :=
  match p.cmd.toNat with
  | 1 => some .reset
  | 2 => some .step
  | 3 => some .tick
  | 4 => some (.setKey p.keyIdx.toNat p.keyVal)
  | 5 => some .clearRedraw
  | 6 => some (.load p.rom)
  | _ => none

/-- The operands of the CXNN that the next `STEP` executes, if it executes one. -/
def State.nextRandomize (s : State) : Option (Reg × Byte) :=
  match s.mode with
  | .running =>
    match s.fetch with
    | .ok op =>
      match decodeWord op with
      | .ok (.rndVxNn x nn) => some (x, nn)
      | .ok _ | .error _ => none
    | .error _ => none
  | .waitingForKey _ | .halted _ => none

/-- A `STEP` whose CXNN samples the byte `rnd` as its draw; every other `STEP` draws nothing. -/
def stepWith (rnd : Byte) (s : State) : Host.Outcome State Fault Refusal :=
  match s.nextRandomize with
  | some (x, nn) => .next (randomizeWith rnd x nn s)
  | none => step s

/-- One operation presented with the byte `rnd`: only a `STEP` looks at it. -/
def applyUpWith (rnd : Byte) (op : HostOp) (s : State) : Host.Outcome (State × Reply) Fault Refusal :=
  match op with
  | .step =>
    match stepWith rnd s with
    | .next t => .next (t, .step (stepOutcome s))
    | .fault f => .fault f
    | .refused r => .refused r
  | .reset | .load _ | .tick | .setKey _ _ | .clearRedraw | .frameBuffer => applyUp op s

/-- `beep` after an operation: only a `TICK` raises it (R232). -/
def Reply.beep : Reply → Bool
  | .timer b => b
  | .none | .load _ | .step _ | .pixels _ => false

/-- `warn` and `warn_op` after an operation: a `STEP` replaces them. -/
def Reply.warnAfter (old : Option Word) : Reply → Option Word
  | .step o => o.warning
  | .none | .load _ | .timer _ | .pixels _ => old

/-- One rising edge: the command completes before the next edge. -/
def Clocked.edge (p : PinInput) (c : Clocked) : Clocked :=
  match p.command with
  | none => { c with beep := false }
  | some op =>
    match applyUpWith p.rnd op c.block with
    | .next (s, r) => { block := s, beep := r.beep, warn := r.warnAfter c.warn }
    | .fault _ | .refused _ => { c with beep := false }

/-- `mode`: 0 Running, 1 WaitingForKey, 2 Halted. -/
def Clocked.modePin (c : Clocked) : BitVec 2 :=
  match c.block.mode with
  | .running => 0
  | .waitingForKey _ => 1
  | .halted _ => 2

/-- `wait_reg`: the register waited for; outside a key wait the pin says nothing. -/
def Clocked.waitRegPin (c : Clocked) : Option Reg :=
  match c.block.mode with
  | .waitingForKey x => some x
  | .running | .halted _ => none

/-- `fault`: the code of R221, 0 for none. -/
def Clocked.faultPin (c : Clocked) : BitVec 2 :=
  match c.block.mode with
  | .halted e => BitVec.ofNat 2 e.code
  | .running | .waitingForKey _ => 0

/-- `redraw`. -/
def Clocked.redrawPin (c : Clocked) : Bool := c.block.redraw

/-- `fb_data` for the address on `fb_addr`: combinational. -/
def Clocked.fbDataPin (c : Clocked) (fbAddr : BitVec 11) : Bool := pixel c.block.fb fbAddr.toNat

end Sys2Proof.Machine
end

