-- ==== Sys2Proof/Safety.lean ====
section
/-! DEFINITION. What counts as a safe run and a good end (70_reset_and_hazards.md R254), the invariant of R29, and the words
statements use to say what an instruction leaves unchanged. -/

namespace Sys2Proof.Machine

/-! ### The end of a run (R254, D27) -/

/-- A run has ended well: mode Running with PC at a `JP` whose target is its own address. -/
def EndedWell (s : State) : Prop :=
  s.mode = .running ∧ ∃ nnn, s.fetch = .ok (encode (.jpNnn nnn)) ∧ addrOf nnn = s.pc

/-- A run has gone wrong: mode Halted. -/
def GoneWrong (s : State) : Prop := ∃ c, s.mode = .halted c

/-! ### The invariant (R29) -/

/-- The memory list is in canonical form (the model's own; log entry 11). -/
def MemInv (s : State) : Prop := Memory.wf s.config s.mem = true

/-- `PC <= 0x10FE` (R29, C10). -/
def PcInv (s : State) : Prop := s.pc.toNat ≤ 0x10FE

/-- Every live stack entry is at most 4094 (R29). -/
def StackInv (s : State) : Prop := ∀ k : Fin 16, k.val < s.sp.val → s.stack[k].toNat ≤ 4094

/-- In `WaitingForKey(x)`, MEM[PC] and MEM[PC+1] still spell the FX0A that started the wait, with X = x (R29). -/
def WaitInv (s : State) : Prop := ∀ x, s.mode = .waitingForKey x → s.fetch = .ok (encode (.ldVxK x))

/-- The clauses of R29 that the types of State do not already carry. -/
def EngineInv (s : State) : Prop := MemInv s ∧ PcInv s ∧ StackInv s ∧ WaitInv s

/-! ### What is left unchanged -/

/-- The pieces of State. -/
inductive Part where
  | v | i | pc | sp | stack | mem | fb | key | dt | st | redraw | mode | draws | config
  deriving DecidableEq, Repr

/-- The piece reads the same in both states; memory through the read of one byte, at every address. -/
def Same (s t : State) : Part → Prop
  | .v => ∀ x, t.reg x = s.reg x
  | .i => t.i = s.i
  | .pc => t.pc = s.pc
  | .sp => t.sp = s.sp
  | .stack => t.stack = s.stack
  | .mem => ∀ a, t.byteAt a = s.byteAt a
  | .fb => t.fb = s.fb
  | .key => t.key = s.key
  | .dt => t.dt = s.dt
  | .st => t.st = s.st
  | .redraw => t.redraw = s.redraw
  | .mode => t.mode = s.mode
  | .draws => t.draws = s.draws
  | .config => t.config = s.config

/-- Every piece of State but those listed is unchanged. -/
def OnlyChanges (ps : List Part) (s t : State) : Prop := ∀ p, p ∉ ps → Same s t p

/-- Every general register but `x` is unchanged. -/
def OnlyReg (x : Reg) (s t : State) : Prop := ∀ z, z ≠ x → t.reg z = s.reg z

/-- Every general register but `x` and VF is unchanged. -/
def OnlyRegAndVf (x : Reg) (s t : State) : Prop := ∀ z, z ≠ x → z ≠ vf → t.reg z = s.reg z

/-! ### Words of statements -/

/-- The word of value `w` reads as the instruction `i`. -/
def Spells (w : Nat) (i : Instr) : Prop := decodeWord (BitVec.ofNat 16 w) = .ok i

/-- Every piece of state is at its value of the table of R28, for the parameters `c`. -/
def ResetValues (c : Config) (s : State) : Prop :=
  (∀ x, s.reg x = 0) ∧ s.i = 0 ∧ s.pc = 512 ∧ s.sp = 0 ∧ (∀ k : Fin 16, s.stack[k] = 0) ∧
  (∀ a (h : a < 80), s.byteAt a = c.font[a]) ∧ (∀ a, 80 ≤ a → a < 4096 → s.byteAt a = 0) ∧
  (∀ p, p < 2048 → pixel s.fb p = false) ∧ (∀ k : Fin 16, s.key.getLsbD k.val = false) ∧
  s.dt = 0 ∧ s.st = 0 ∧ s.redraw = true ∧ s.mode = .running ∧ s.config = c

/-- The parameters of a block, reset or not. -/
def Block.params : Block → Config
  | .unreset c _ => c
  | .up s => s.config

/-- How many free bytes randomize has drawn, in a block reset or not (the model's own, log entry 1). -/
def Block.drawn : Block → Nat
  | .unreset _ n => n
  | .up s => s.draws

/-- The invariants R29 lists, the bounds the types carry among them. -/
def ListedInvariants (s : State) : Prop :=
  s.sp.val ≤ 16 ∧ (∀ x, (s.reg x).toNat ≤ 255) ∧ s.dt.toNat ≤ 255 ∧ s.st.toNat ≤ 255 ∧
  (∀ a, (s.byteAt a).toNat ≤ 255) ∧ s.i.toNat ≤ 65535 ∧ s.pc.toNat ≤ 65535 ∧ (∀ k : Fin 16, s.stack[k].toNat ≤ 65535) ∧
  StackInv s ∧ PcInv s ∧ WaitInv s

/-- The next `STEP` executes `RND Vx, nn` (R220, R152). -/
def RandomizesNext (s : State) (x : Reg) (nn : Byte) : Prop := s.mode = .running ∧ s.fetch = .ok (encode (.rndVxNn x nn))

/-- `p` is one of the pixel indices of the sprite that `DRW Vx, Vy, n` draws in `s`: the set `S` of R162. -/
def SpritePixel (s : State) (x y : Reg) (n : Nibble) (p : Nat) : Prop :=
  ∃ r c, r < n.toNat ∧ c < 8 ∧ (s.byteAt (s.effAddr r)).getLsbD (7 - c) = true ∧
    p = ((s.reg y).toNat + r) * 64 + ((s.reg x).toNat + c)

/-- The draw is possible: every row address is below 4096 and every pixel index of the sprite below 2048 (R162). -/
def SpriteFits (s : State) (x y : Reg) (n : Nibble) : Prop :=
  (∀ r, r < n.toNat → s.effAddr r < 4096) ∧ ∀ p, SpritePixel s x y n p → p < 2048

/-- When an instruction raises a fault (R223); every instruction not listed there raises nothing. -/
def FaultsWhen : Instr → State → Prop
  | .ret, s => s.sp.val = 0
  | .callNnn _, s => s.sp.val = 16
  | .drwVxVyN x y n, s => ¬ SpriteFits s x y n
  | .skpVx x, s => 16 ≤ (s.reg x).toNat
  | .sknpVx x, s => 16 ≤ (s.reg x).toNat
  | .ldFVx x, s => 16 ≤ (s.reg x).toNat
  | .ldBVx _, s => 4096 ≤ s.effAddr 2
  | .ldMemVx x, s => 4096 ≤ s.effAddr x.val
  | .ldVxMem x, s => 4096 ≤ s.effAddr x.val
  | .cls, _ | .jpNnn _, _ | .seVxNn _ _, _ | .sneVxNn _ _, _ | .seVxVy _ _, _ | .ldVxNn _ _, _ | .addVxNn _ _, _
  | .ldVxVy _ _, _ | .orVxVy _ _, _ | .andVxVy _ _, _ | .xorVxVy _ _, _ | .addVxVy _ _, _ | .subVxVy _ _, _ | .shrVx _ _, _
  | .subnVxVy _ _, _ | .shlVx _ _, _ | .sneVxVy _ _, _ | .ldINnn _, _ | .jpV0Nnn _, _ | .rndVxNn _ _, _ | .ldVxDt _, _
  | .ldVxK _, _ | .ldDtVx _, _ | .ldStVx _, _ | .addIVx _, _ => False

/-- The cause of the fault an instruction can raise (R223). -/
def causeOf : Instr → Cause
  | .ret => .stackUnderflow
  | .callNnn _ => .stackOverflow
  | .cls | .jpNnn _ | .seVxNn _ _ | .sneVxNn _ _ | .seVxVy _ _ | .ldVxNn _ _ | .addVxNn _ _ | .ldVxVy _ _ | .orVxVy _ _
  | .andVxVy _ _ | .xorVxVy _ _ | .addVxVy _ _ | .subVxVy _ _ | .shrVx _ _ | .subnVxVy _ _ | .shlVx _ _ | .sneVxVy _ _
  | .ldINnn _ | .jpV0Nnn _ | .rndVxNn _ _ | .drwVxVyN _ _ _ | .skpVx _ | .sknpVx _ | .ldVxDt _ | .ldVxK _ | .ldDtVx _
  | .ldStVx _ | .addIVx _ | .ldFVx _ | .ldBVx _ | .ldMemVx _ | .ldVxMem _ => .addressOutOfRange

/-- The general registers an instruction may write: the write rows of R12, and VF as a flag by the table of R11. -/
def MayWriteReg : Instr → State → Reg → Prop
  | .ldVxNn x _, _, z | .addVxNn x _, _, z | .ldVxVy x _, _, z | .orVxVy x _, _, z | .andVxVy x _, _, z | .xorVxVy x _, _, z
  | .rndVxNn x _, _, z | .ldVxDt x, _, z => z = x
  | .addVxVy x _, _, z | .subVxVy x _, _, z | .shrVx x _, _, z | .subnVxVy x _, _, z | .shlVx x _, _, z => z = x ∨ z = vf
  | .drwVxVyN _ _ _, _, z => z = vf
  | .addIVx _, s, z => s.config.fx1eSetsVF = true ∧ z = vf
  | .ldVxMem x, _, z => z ≤ x
  | .cls, _, _ | .ret, _, _ | .jpNnn _, _, _ | .callNnn _, _, _ | .seVxNn _ _, _, _ | .sneVxNn _ _, _, _ | .seVxVy _ _, _, _
  | .sneVxVy _ _, _, _ | .ldINnn _, _, _ | .jpV0Nnn _, _, _ | .skpVx _, _, _ | .sknpVx _, _, _ | .ldVxK _, _, _
  | .ldDtVx _, _, _ | .ldStVx _, _, _ | .ldFVx _, _, _ | .ldBVx _, _, _ | .ldMemVx _, _, _ => False

/-- The pieces of State an instruction may change, from its rule (files 40 to 48), `mode` among them where it can fault. -/
def footprint : Instr → List Part
  | .cls => [.fb, .redraw, .pc]
  | .ret => [.sp, .pc, .mode]
  | .jpNnn _ | .jpV0Nnn _ | .seVxNn _ _ | .sneVxNn _ _ | .seVxVy _ _ | .sneVxVy _ _ => [.pc]
  | .callNnn _ => [.sp, .stack, .pc, .mode]
  | .ldVxNn _ _ | .addVxNn _ _ | .ldVxVy _ _ | .orVxVy _ _ | .andVxVy _ _ | .xorVxVy _ _ | .addVxVy _ _ | .subVxVy _ _
  | .shrVx _ _ | .subnVxVy _ _ | .shlVx _ _ | .ldVxDt _ => [.v, .pc]
  | .ldINnn _ => [.i, .pc]
  | .rndVxNn _ _ => [.v, .draws, .pc]
  | .drwVxVyN _ _ _ => [.v, .fb, .redraw, .pc, .mode]
  | .skpVx _ | .sknpVx _ => [.pc, .mode]
  | .ldVxK _ => [.mode]
  | .ldDtVx _ => [.dt, .pc]
  | .ldStVx _ => [.st, .pc]
  | .addIVx _ => [.v, .i, .pc]
  | .ldFVx _ => [.i, .pc, .mode]
  | .ldBVx _ => [.mem, .pc, .mode]
  | .ldMemVx _ => [.mem, .i, .pc, .mode]
  | .ldVxMem _ => [.v, .i, .pc, .mode]

end Sys2Proof.Machine
end

