-- ==== Sys2Proof/Certificates/Slice0/Obligations.lean ====
section
/-! DEFINITION. The statements for the provers, one per obligation of OBLIGATIONS.json. Each says which rule of spec/ it
formalises; none is proved here. -/

open Sys2Proof Sys2Proof.Machine

/-! ### Reset, load and the invariant -/

/-- R28, R250: `RESET` of any block, in any mode and before the first reset too, leaves every piece of state at its value of the
table, whatever the parameters; a `LOAD` that fits leaves the same but for the loaded bytes; and `State.reset` is that state for
the default parameters (log entry 2). MODE after a reset without a load is the spec's own decision D26. Neither moves the model's
own count of the bytes drawn, fitting or not, so that "a reset does not make the sequence repeat" (R152): the model's choice, log
entry 1. -/
def Obligations.ResetAndLoadLeaveTheResetValues : Prop :=
  ResetValues defaultConfig State.reset ∧
  (∀ b : Block, ∃ t, b.apply .reset = .next (t, .none) ∧ ResetValues b.params t ∧ t.draws = b.drawn) ∧
  (∀ (b : Block) (bytes : List Byte), bytes.length ≤ 3584 →
    ∃ t u, b.apply (.load bytes) = .next (t, .load .ok) ∧ ResetValues b.params u ∧ OnlyChanges [.mem] u t ∧
      ∀ a, a < 512 ∨ 512 + bytes.length ≤ a → t.byteAt a = u.byteAt a) ∧
  (∀ (b : Block) (bytes : List Byte), ∃ t r, b.apply (.load bytes) = .next (t, r) ∧ t.draws = b.drawn)

/-- R252: `LOAD` of any block, in any mode, resets first; a sequence that fits is copied verbatim from 512 up and every other
piece of state is at its reset value; one that does not fit is refused whole with `CapacityExceeded`, leaving a freshly reset
block. -/
def Obligations.LoadCopiesTheRomOrRefusesIt : Prop :=
  ∀ (b : Block) (bytes : List Byte),
    (bytes.length ≤ 3584 → ∃ t, b.apply (.load bytes) = .next (t, .load .ok) ∧
      (∀ k (h : k < bytes.length), t.byteAt (512 + k) = bytes[k]) ∧
      (∀ a, 512 + bytes.length ≤ a → a < 4096 → t.byteAt a = 0) ∧
      (∀ a (h : a < 80), t.byteAt a = b.params.font[a]) ∧ (∀ a, 80 ≤ a → a < 512 → t.byteAt a = 0) ∧
      ∃ u, ResetValues b.params u ∧ OnlyChanges [.mem] u t) ∧
    (3584 < bytes.length → ∃ t, b.apply (.load bytes) = .next (t, .load .capacityExceeded) ∧ ResetValues b.params t)

/-- The reset state meets the invariant, for every choice of the parameters. Its clauses are the ones the spec derives in R29 and
the model's own canonical form of memory (log entry 11). -/
def Obligations.ResetStateMeetsInvariant : Prop := EngineInv State.reset ∧ ∀ c, EngineInv (State.resetWith c)

/-- Every step keeps the invariant: memory stays canonical, PC stays at most 0x10FE, live stack entries stay at most 4094, and a
key wait stays at the FX0A that started it (the spec's inference in R29; the form of memory is the model's, log entry 11). -/
def Obligations.StepKeepsInvariant : Prop := ∀ s t, EngineInv s → step s = .next t → EngineInv t

/-- R29, which the spec derives: the listed invariants hold after any reset and after every operation from then on. Memory's
canonical form (the model's own, log entry 11) is carried along. -/
def Obligations.EveryOperationKeepsListedInvariants : Prop :=
  (∀ (b : Block) t r, b.apply .reset = .next (t, r) → ListedInvariants t ∧ MemInv t) ∧
  (∀ op s t r, ListedInvariants s ∧ MemInv s → applyUp op s = .next (t, r) → ListedInvariants t ∧ MemInv t)

/-! ### Encoding -/

/-- Decoding the word of an instruction gives the instruction back, every operand at every value (R61 to R64); so do its two
bytes as memory holds them. -/
def Obligations.DecodeOfEncodeIsTheInstruction : Prop :=
  ∀ i : Instr, i.wellFormed = true → decodeWord (encode i) = .ok i ∧
    decodeBytes (highByte (encode i)) (lowByte (encode i)) = .ok i

/-- Every word the decoder reads as an instruction is that instruction's word: no bit of a word is ignored but the Y field of
the shifts, which the instruction keeps (R61 to R65). -/
def Obligations.EncodeOfDecodeIsTheWord : Prop :=
  ∀ (op : Word) (i : Instr), decodeWord op = .ok i → encode i = op

/-- R63: a word is an instruction exactly when it matches a row of the opcode map, the row it matches is the instruction's, a word
that matches none is an unknown opcode, and the rows are disjoint. -/
def Obligations.DecodeFollowsTheOpcodeMap : Prop :=
  (∀ op : Word, (∃ i, decodeWord op = .ok i) ↔ ∃ row ∈ opcodeRows, matchesRow op row = true) ∧
  (∀ (op : Word) (i : Instr), decodeWord op = .ok i → matchesRow op i.row = true) ∧
  (∀ op : Word, (∀ row ∈ opcodeRows, matchesRow op row = false) → decodeWord op = .error (.unknownOpcode op)) ∧
  (opcodeRows.length = 34 ∧
    opcodeRows.Pairwise fun p q => ∀ op : Word, ¬ (matchesRow op p = true ∧ matchesRow op q = true))

/-- R65: the words each family accepts; every other word is the unknown opcode of its own value (that everything outside the
table is unknown is the spec's own decision D2). -/
def Obligations.StrictDecodeBySubCode : Prop :=
  ∀ op : Word,
    ((∃ i, decodeWord op = .ok i) ↔
      (op.toNat / 4096 = 0 ∧ (op = 0x00E0 ∨ op = 0x00EE)) ∨
      (op.toNat / 4096 ∈ [1, 2, 3, 4, 6, 7, 0xA, 0xB, 0xC, 0xD]) ∨
      (op.toNat / 4096 ∈ [5, 9] ∧ op.toNat % 16 = 0) ∨
      (op.toNat / 4096 = 8 ∧ op.toNat % 16 ∈ [0, 1, 2, 3, 4, 5, 6, 7, 0xE]) ∨
      (op.toNat / 4096 = 0xE ∧ op.toNat % 256 ∈ [0x9E, 0xA1]) ∨
      (op.toNat / 4096 = 0xF ∧ op.toNat % 256 ∈ [0x07, 0x0A, 0x15, 0x18, 0x1E, 0x29, 0x33, 0x55, 0x65])) ∧
    ((∀ i, decodeWord op ≠ .ok i) → decodeWord op = .error (.unknownOpcode op))

/-- The spec's own words of the document's scenarios and of 95_test_vectors.md 2.1 read as the instructions they stand for. -/
def Obligations.SampleWordsDecode : Prop :=
  Spells 0x600A (.ldVxNn 0 0x0A) ∧ Spells 0x8014 (.addVxVy 0 1) ∧ Spells 0x2208 (.callNnn 0x208) ∧ Spells 0x00EE .ret ∧
  Spells 0x4A00 (.sneVxNn 0xA 0) ∧ Spells 0xB300 (.jpV0Nnn 0x300) ∧ Spells 0xD12A (.drwVxVyN 1 2 0xA) ∧
  Spells 0xEBA1 (.sknpVx 0xB) ∧ Spells 0xF407 (.ldVxDt 4) ∧ Spells 0xFF65 (.ldVxMem 15) ∧ Spells 0x8276 (.shrVx 2 7)

/-! ### The step -/

/-- R220: in mode Running, when the two bytes at PC decode to an instruction, the step is the execution of it; nothing is added
around it, each instruction writes PC itself. -/
def Obligations.StepRunsTheDecodedInstruction : Prop :=
  ∀ (s : State) (i : Instr), s.mode = .running → s.pc.toNat ≤ 4094 →
    decodeBytes (s.byteAt s.pc.toNat) (s.byteAt (s.pc.toNat + 1)) = .ok i → i.wellFormed = true → step s = exec i s

/-- R42: a fetch succeeds exactly when `PC <= 4094` and is big-endian; otherwise the step takes AddressOutOfRange(PC), PC keeping
its value (that the fetching step takes it is the spec's own decision D9). -/
def Obligations.FetchIsBigEndianOrFaults : Prop :=
  ∀ s : State,
    (s.pc.toNat ≤ 4094 → ∃ op, s.fetch = .ok op ∧
      op.toNat = (s.byteAt s.pc.toNat).toNat * 256 + (s.byteAt (s.pc.toNat + 1)).toNat) ∧
    (4095 ≤ s.pc.toNat → s.mode = .running →
      step s = .next { s with mode := .halted .addressOutOfRange } ∧
      (stepOutcome s).fault = some { cause := .addressOutOfRange, info := some s.pc.toNat })

/-- A fetched word that matches no row of the opcode map advances PC by 2, changes nothing else, and is reported with its full word
as a warning (R66). The other fields of the outcome (R202): no fault, the redraw level as it stands and a beep of 0, the last two
the spec's own decisions D29 and D13; the outcome as a function of the state is the model's (log entry 4). -/
def Obligations.UnknownOpcodeWarnsAndAdvances : Prop :=
  ∀ (s : State) (op : Word), s.mode = .running → s.fetch = .ok op → (∀ row ∈ opcodeRows, matchesRow op row = false) →
    step s = .next { s with pc := s.pc + 2 } ∧
    stepOutcome s = { redraw := s.redraw, beep := false, warning := some op, fault := none }

/-- R226: in mode Halted a step changes nothing and reports the cause again, a tick changes nothing and reports no beep, the
host's `SET_KEY`, `CLEAR_REDRAW` and `FRAME_BUFFER` work as always, and only `RESET` or `LOAD` leaves the mode. The mode and what
it forbids are the spec's own decision D8. -/
def Obligations.HaltedIsLeftByResetOnly : Prop :=
  ∀ (s : State) (c : Cause), s.mode = .halted c →
    step s = .next s ∧ (stepOutcome s).fault = some { cause := c, info := none } ∧
    applyUp .tick s = .next (s, .timer false) ∧
    (∀ (k : Fin 16) (p : Bool), ∃ t, applyUp (.setKey k.val p) s = .next (t, .none) ∧
      (∀ j : Fin 16, t.key.getLsbD j.val = if j = k then p else s.key.getLsbD j.val) ∧ OnlyChanges [.key] s t) ∧
    applyUp .clearRedraw s = .next ({ s with redraw := false }, .none) ∧
    applyUp .frameBuffer s = .next (s, .pixels (frameBuffer s)) ∧
    (∀ op t r, applyUp op s = .next (t, r) → op ≠ .reset → (∀ bytes, op ≠ .load bytes) → t.mode = .halted c) ∧
    (∃ t, applyUp .reset s = .next (t, .none) ∧ t.mode = .running) ∧
    (∀ bytes, ∃ t r, applyUp (.load bytes) s = .next (t, r) ∧ t.mode = .running)

/-- R173: the key-wait poll stores the least pressed key and goes on at `PC + 2`, or changes nothing; it raises no fault and gives
no warning. That the least one is taken is the spec's own decision D11. -/
def Obligations.KeyWaitPollTakesTheLeastKey : Prop :=
  ∀ (s : State) (x : Reg), s.mode = .waitingForKey x →
    (∀ k : Fin 16, s.key.getLsbD k.val = true → (∀ j : Fin 16, j < k → s.key.getLsbD j.val = false) →
      ∃ t, step s = .next t ∧ (t.reg x).toNat = k.val ∧ t.pc = s.pc + 2 ∧ t.mode = .running ∧ OnlyReg x s t ∧
        OnlyChanges [.v, .pc, .mode] s t) ∧
    ((∀ k : Fin 16, s.key.getLsbD k.val = false) → step s = .next s) ∧
    (stepOutcome s).warning = none ∧ (stepOutcome s).fault = none

/-- No step and no instruction stops the model: `step` and `exec` answer a next state from every state. That a fault is a next
state, in mode Halted, is the model's (log entry 3). -/
def Obligations.EveryStepAnswersANextState : Prop :=
  (∀ s, ∃ t, step s = .next t) ∧ ∀ i s, ∃ t, exec i s = .next t

/-- R202: the outcome of a step is the redraw level after it, no beep, a warning exactly for an unknown opcode, and the fault the
state is halted by, with an information word exactly in the step that raises it; never a warning and a fault together. The redraw
level, the constant beep and the information word are the spec's own decisions D29, D13 and D28. -/
def Obligations.StepOutcomeReportsTheStep : Prop :=
  ∀ s t, step s = .next t →
    (stepOutcome s).redraw = t.redraw ∧ (stepOutcome s).beep = false ∧
    (∀ w, (stepOutcome s).warning = some w ↔ s.mode = .running ∧ s.fetch = .ok w ∧ ∀ i, decodeWord w ≠ .ok i) ∧
    (∀ c, (∃ info, (stepOutcome s).fault = some { cause := c, info := info }) ↔ t.mode = .halted c) ∧
    (∀ c, (stepOutcome s).fault = some { cause := c, info := none } ↔ s.mode = .halted c) ∧
    ((stepOutcome s).warning = none ∨ (stepOutcome s).fault = none)

/-- R224: a step that raises a fault changes nothing but MODE, whatever it had written before the raise, and reports the fault
with an information word. Precision is the spec's own decision D7. -/
def Obligations.FaultsArePrecise : Prop :=
  ∀ s t c, s.mode = .running → step s = .next t → t.mode = .halted c →
    t = { s with mode := .halted c } ∧ ∃ info, (stepOutcome s).fault = some { cause := c, info := some info }

/-- R223: which step takes which fault: at fetch when `PC >= 4095`; an instruction exactly when its row of the table says so, with
that cause; an unknown opcode, a key-wait poll, a halted step and a tick none that is new. The index checks behind the rows are
the spec's own decision D5. -/
def Obligations.FaultsExactlyWhenTabled : Prop :=
  ∀ s t : State, step s = .next t →
    (s.mode = .running → 4095 ≤ s.pc.toNat → t = { s with mode := .halted .addressOutOfRange }) ∧
    (∀ op i, s.mode = .running → s.fetch = .ok op → decodeWord op = .ok i → FaultsWhen i s →
      t = { s with mode := .halted (causeOf i) }) ∧
    (∀ op i, s.mode = .running → s.fetch = .ok op → decodeWord op = .ok i → ¬ FaultsWhen i s → ∀ c, t.mode ≠ .halted c) ∧
    (∀ op w, s.mode = .running → s.fetch = .ok op → decodeWord op = .error w → ∀ c, t.mode ≠ .halted c) ∧
    (∀ x, s.mode = .waitingForKey x → ∀ c, t.mode ≠ .halted c) ∧
    (∀ c, s.mode = .halted c → t.mode = .halted c) ∧
    (tick s).mode = s.mode

/-! ### Rules about the whole machine -/

/-- No step writes the key matrix or the parameters, and no step clears the redraw flag (R22, R25, R30). -/
def Obligations.StepLeavesTheHostsStateAlone : Prop :=
  ∀ s t, step s = .next t → t.key = s.key ∧ t.config = s.config ∧ (s.redraw = true → t.redraw = true)

/-- A step moves a timer only by executing the instruction that writes it (R20, R21, R220). -/
def Obligations.StepNeverCountsTimersDown : Prop :=
  ∀ s t, step s = .next t →
    (t.dt = s.dt ∨ ∃ x, s.mode = .running ∧ s.fetch = .ok (encode (.ldDtVx x)) ∧ t.dt = s.reg x) ∧
    (t.st = s.st ∨ ∃ x, s.mode = .running ∧ s.fetch = .ok (encode (.ldStVx x)) ∧ t.st = s.reg x)

/-- Every instruction changes no piece of state outside its own list (files 40 to 48): only 00E0 and DXYN write the framebuffer,
only FX33 and FX55 write memory, only 00EE and 2NNN write SP, only 2NNN the stack. -/
def Obligations.EachInstructionChangesOnlyItsParts : Prop :=
  ∀ i s t, exec i s = .next t → OnlyChanges (footprint i) s t

/-- Every instruction writes no general register outside the write rows of R12 and the flag table of R11. -/
def Obligations.RegistersAreWrittenAsTabled : Prop :=
  ∀ i s t z, exec i s = .next t → ¬ MayWriteReg i s z → t.reg z = s.reg z

/-- A program learns nothing of the sound timer or the redraw flag: changing them changes nothing else in any step, whatever byte is
drawn, the same in both (R21, R22; log entry 1). -/
def Obligations.StepIgnoresSoundTimerAndRedraw : Prop :=
  ∀ (s : State) (b : Byte) (r : Bool), ∃ t t', step s = .next t ∧ step { s with st := b, redraw := r } = .next t' ∧
    OnlyChanges [.st, .redraw] t t'

/-- The stale stack entries at and above SP cannot be observed: two states that differ only in them step to states that differ
only in them, whatever byte is drawn, the same in both (the spec's inference in R19; log entry 1). -/
def Obligations.StaleStackEntriesAreUnobservable : Prop :=
  ∀ (s : State) (k : Vector Word 16), (∀ j : Fin 16, j.val < s.sp.val → k[j] = s.stack[j]) →
    ∃ t t', step s = .next t ∧ step { s with stack := k } = .next t' ∧ t' = { t with stack := t'.stack } ∧
      ∀ j : Fin 16, j.val < t.sp.val → t'.stack[j] = t.stack[j]

/-- The bytes a register dump stored are what the very next fetch reads, V[k] the high byte and V[k+1] the low byte (the spec's
inferences in R51 and R41). -/
def Obligations.DumpedBytesAreFetchedNext : Prop :=
  ∀ (x k k' : Reg) (s : State), s.effAddr x.val < 4096 → k'.val = k.val + 1 → k' ≤ x → (s.pc + 2).toNat = s.effAddr k.val →
    ∃ t, exec (.ldMemVx x) s = .next t ∧ t.fetch = .ok (wordOfBytes (s.reg k) (s.reg k'))

/-! ### Host operations -/

/-- R231: in mode Running and in a key wait, `TICK` takes each timer that is above 0 down by 1 and changes nothing else, and
reports a beep exactly when it takes ST from 1 to 0. -/
def Obligations.TickCountsDownAndBeepsOnce : Prop :=
  ∀ s : State, (s.mode = .running ∨ ∃ x, s.mode = .waitingForKey x) →
    ∃ t, applyUp .tick s = .next (t, .timer (decide (s.st.toNat = 1))) ∧ t.dt.toNat = s.dt.toNat - 1 ∧
      t.st.toNat = s.st.toNat - 1 ∧ OnlyChanges [.dt, .st] s t

/-- R204: `SET_KEY(k, p)` writes that key and nothing else, in every mode; no step writes a key. -/
def Obligations.SetKeyWritesOneKey : Prop :=
  ∀ s : State,
    (∀ (k : Nat) (p : Bool), k < 16 → ∃ t, applyUp (.setKey k p) s = .next (t, .none) ∧
      (∀ j, j < 16 → t.key.getLsbD j = if j = k then p else s.key.getLsbD j) ∧ OnlyChanges [.key] s t) ∧
    ∀ t, step s = .next t → t.key = s.key

/-- R205: `FRAME_BUFFER` returns the 2048 pixels in order and changes nothing, in every mode. -/
def Obligations.FrameBufferReturnsThePixels : Prop :=
  ∀ s : State, ∃ ps, applyUp .frameBuffer s = .next (s, .pixels ps) ∧ ps.length = 2048 ∧
    ∀ x y, x < 64 → y < 32 → ps[y * 64 + x]? = some (pixel s.fb (y * 64 + x))

/-- R22: REDRAW is set by every completed clear and draw and by a reset, and nothing but `CLEAR_REDRAW` clears it; that operation
clears it and changes nothing else. -/
def Obligations.RedrawIsClearedByTheHostOnly : Prop :=
  (∀ s t, exec .cls s = .next t → t.redraw = true) ∧
  (∀ x y n s t, SpriteFits s x y n → exec (.drwVxVyN x y n) s = .next t → t.redraw = true) ∧
  (∀ (b : Block) t r, b.apply .reset = .next (t, r) → t.redraw = true) ∧
  (∀ op s t r, applyUp op s = .next (t, r) → op ≠ .clearRedraw → s.redraw = true → t.redraw = true) ∧
  ∀ s, applyUp .clearRedraw s = .next ({ s with redraw := false }, .none)

/-- R13, R201: before the first reset the block accepts `RESET` and `LOAD` and nothing else (the spec's own decision D18; that the
model refuses the rest by name is log entry 6). -/
def Obligations.OnlyResetAndLoadBeforeTheFirstReset : Prop :=
  ∀ (c : Config) (n : Nat) (op : HostOp),
    ((∃ r, (Block.unreset c n).apply op = .next r) ↔ op = .reset ∨ ∃ bytes, op = .load bytes) ∧
    (¬ (op = .reset ∨ ∃ bytes, op = .load bytes) → (Block.unreset c n).apply op = .refused .beforeFirstReset)

/-- The model refuses an operation exactly where the spec leaves it outside: anything but `RESET` and `LOAD` before the first of
them (log entry 6), and a key index of 16 or more (log entry 7). -/
def Obligations.OnlyHostErrorsAreRefused : Prop :=
  ∀ (b : Block) (op : HostOp),
    (∃ r, b.apply op = .refused r) ↔
      (∃ c n, b = .unreset c n ∧ op ≠ .reset ∧ ∀ bytes, op ≠ .load bytes) ∨
      ∃ s k p, b = .up s ∧ op = .setKey k p ∧ 16 ≤ k

/-- The pin-level sketch (R209, the spec's own decision D19; log entry 15), by the code on `cmd`: 0 and 7 leave the block as it is,
1 to 6 are `RESET`, `STEP`, `TICK`, `SET_KEY(key_idx, key_val)`, `CLEAR_REDRAW` and `LOAD`; a `STEP` that executes CXNN draws the
byte on `rnd`, every other `STEP` is `step`. `beep` is high exactly after a `TICK` that takes ST from 1 to 0; the warning is that of
the last `STEP`. That the count of the draws moves on is the model's (log entry 1), and so is that a command other than `STEP`, a
reset among them, keeps the warning (log entry 15). -/
def Obligations.ClockEdgeIsOneOperation : Prop :=
  ∀ (p : PinInput) (c : Clocked),
    (p.cmd = 0 ∨ p.cmd = 7 → (c.edge p).block = c.block) ∧
    (p.cmd = 1 → applyUp .reset c.block = .next ((c.edge p).block, .none)) ∧
    (p.cmd = 2 → (∀ x nn, ¬ RandomizesNext c.block x nn) → step c.block = .next (c.edge p).block) ∧
    (p.cmd = 2 → ∀ x nn, RandomizesNext c.block x nn →
      (c.edge p).block.reg x = p.rnd &&& nn ∧ (c.edge p).block.pc = c.block.pc + 2 ∧
        (c.edge p).block.draws = c.block.draws + 1 ∧ OnlyReg x c.block (c.edge p).block ∧
        OnlyChanges [.v, .pc, .draws] c.block (c.edge p).block) ∧
    (p.cmd = 3 → applyUp .tick c.block = .next ((c.edge p).block, .timer (c.edge p).beep)) ∧
    (p.cmd = 4 → applyUp (.setKey p.keyIdx.toNat p.keyVal) c.block = .next ((c.edge p).block, .none)) ∧
    (p.cmd = 5 → applyUp .clearRedraw c.block = .next ((c.edge p).block, .none)) ∧
    (p.cmd = 6 → applyUp (.load p.rom) c.block = .next ((c.edge p).block, .load (loadResult p.rom))) ∧
    ((c.edge p).beep = true ↔ p.cmd = 3 ∧ (∀ e, c.block.mode ≠ .halted e) ∧ c.block.st.toNat = 1) ∧
    (c.edge p).warn = (if p.cmd = 2 then (stepOutcome c.block).warning else c.warn)

/-! ### Clear screen, return, jump, call -/

/-- R100. -/
def Obligations.ClearScreen : Prop :=
  Spells 0x00E0 .cls ∧
  ∀ s, ∃ t, exec .cls s = .next t ∧ (∀ p, p < 2048 → pixel t.fb p = false) ∧ t.redraw = true ∧ t.pc = s.pc + 2 ∧
    OnlyChanges [.fb, .redraw, .pc] s t

/-- R101. -/
def Obligations.ReturnPopsOrUnderflows : Prop :=
  Spells 0x00EE .ret ∧
  (∀ (s : State) (k : Fin 16), s.sp.val = k.val + 1 → ∃ t, exec .ret s = .next t ∧ t.sp.val = k.val ∧
    t.pc.toNat = (s.stack[k].toNat + 2) % 65536 ∧ OnlyChanges [.sp, .pc] s t) ∧
  (∀ s : State, s.sp.val = 0 → exec .ret s = .next { s with mode := .halted .stackUnderflow } ∧
    Instr.raises .ret s = some { cause := .stackUnderflow, info := s.pc.toNat })

/-- R102. -/
def Obligations.JumpSetsPc : Prop :=
  ∀ nnn : Addr12, Spells (0x1000 + nnn.toNat) (.jpNnn nnn) ∧
    ∀ s, ∃ t, exec (.jpNnn nnn) s = .next t ∧ t.pc.toNat = nnn.toNat ∧ OnlyChanges [.pc] s t

/-- R103. -/
def Obligations.CallPushesItsAddressOrOverflows : Prop :=
  ∀ nnn : Addr12, Spells (0x2000 + nnn.toNat) (.callNnn nnn) ∧
    (∀ s : State, s.sp.val < 16 → ∃ t, exec (.callNnn nnn) s = .next t ∧ t.sp.val = s.sp.val + 1 ∧
      (∀ k : Fin 16, t.stack[k] = if k.val = s.sp.val then s.pc else s.stack[k]) ∧ t.pc.toNat = nnn.toNat ∧
      OnlyChanges [.sp, .stack, .pc] s t) ∧
    (∀ s : State, s.sp.val = 16 → exec (.callNnn nnn) s = .next { s with mode := .halted .stackOverflow } ∧
      Instr.raises (.callNnn nnn) s = some { cause := .stackOverflow, info := s.pc.toNat })

/-- R104: a call executed at P with the stack not full, and later a return at the same depth with the pushed entry untouched,
leave `PC = P + 2` and the depth as it was. -/
def Obligations.CallReturnRoundTrip : Prop :=
  ∀ (nnn : Addr12) (s : State), s.pc.toNat ≤ 4094 → s.sp.val < 16 →
    ∃ t, exec (.callNnn nnn) s = .next t ∧
      ∀ u : State, u.sp = t.sp → (∀ d : Fin 16, d.val = s.sp.val → u.stack[d] = t.stack[d]) →
        ∃ w, exec .ret u = .next w ∧ w.pc.toNat = s.pc.toNat + 2 ∧ w.sp = s.sp

/-! ### Skips, immediates, ALU -/

/-- R110, R111, R112, R113: a skip goes to `PC + 4` when its condition holds, else to `PC + 2`, and changes nothing else. -/
def Obligations.RegisterSkips : Prop :=
  ∀ (x y : Reg) (nn : Byte),
    Spells (0x3000 + x.val * 0x100 + nn.toNat) (.seVxNn x nn) ∧ Spells (0x4000 + x.val * 0x100 + nn.toNat) (.sneVxNn x nn) ∧
    Spells (0x5000 + x.val * 0x100 + y.val * 0x10) (.seVxVy x y) ∧
    Spells (0x9000 + x.val * 0x100 + y.val * 0x10) (.sneVxVy x y) ∧
    ∀ s,
      (∃ t, exec (.seVxNn x nn) s = .next t ∧ t.pc = s.pc + (if s.reg x = nn then 4 else 2) ∧ OnlyChanges [.pc] s t) ∧
      (∃ t, exec (.sneVxNn x nn) s = .next t ∧ t.pc = s.pc + (if s.reg x ≠ nn then 4 else 2) ∧ OnlyChanges [.pc] s t) ∧
      (∃ t, exec (.seVxVy x y) s = .next t ∧ t.pc = s.pc + (if s.reg x = s.reg y then 4 else 2) ∧ OnlyChanges [.pc] s t) ∧
      (∃ t, exec (.sneVxVy x y) s = .next t ∧ t.pc = s.pc + (if s.reg x ≠ s.reg y then 4 else 2) ∧ OnlyChanges [.pc] s t)

/-- R120. -/
def Obligations.LoadImmediate : Prop :=
  ∀ (x : Reg) (nn : Byte), Spells (0x6000 + x.val * 0x100 + nn.toNat) (.ldVxNn x nn) ∧
    ∀ s, ∃ t, exec (.ldVxNn x nn) s = .next t ∧ t.reg x = nn ∧ t.pc = s.pc + 2 ∧ OnlyReg x s t ∧
      OnlyChanges [.v, .pc] s t

/-- R121: the sum wraps and VF is not touched (unless it is VX). -/
def Obligations.AddImmediateWraps : Prop :=
  ∀ (x : Reg) (nn : Byte), Spells (0x7000 + x.val * 0x100 + nn.toNat) (.addVxNn x nn) ∧
    ∀ s, ∃ t, exec (.addVxNn x nn) s = .next t ∧ (t.reg x).toNat = ((s.reg x).toNat + nn.toNat) % 256 ∧ t.pc = s.pc + 2 ∧
      OnlyReg x s t ∧ OnlyChanges [.v, .pc] s t

/-- R130, R131, R132, R133: assign and the bitwise operations, bit by bit, with no flag side effect. -/
def Obligations.AssignAndBitwise : Prop :=
  ∀ x y : Reg,
    Spells (0x8000 + x.val * 0x100 + y.val * 0x10) (.ldVxVy x y) ∧ Spells (0x8001 + x.val * 0x100 + y.val * 0x10) (.orVxVy x y) ∧
    Spells (0x8002 + x.val * 0x100 + y.val * 0x10) (.andVxVy x y) ∧
    Spells (0x8003 + x.val * 0x100 + y.val * 0x10) (.xorVxVy x y) ∧
    ∀ s,
      (∃ t, exec (.ldVxVy x y) s = .next t ∧ t.reg x = s.reg y ∧ t.pc = s.pc + 2 ∧ OnlyReg x s t ∧
        OnlyChanges [.v, .pc] s t) ∧
      (∃ t, exec (.orVxVy x y) s = .next t ∧
        (∀ k, (t.reg x).getLsbD k = ((s.reg x).getLsbD k || (s.reg y).getLsbD k)) ∧ t.pc = s.pc + 2 ∧ OnlyReg x s t ∧
        OnlyChanges [.v, .pc] s t) ∧
      (∃ t, exec (.andVxVy x y) s = .next t ∧
        (∀ k, (t.reg x).getLsbD k = ((s.reg x).getLsbD k && (s.reg y).getLsbD k)) ∧ t.pc = s.pc + 2 ∧ OnlyReg x s t ∧
        OnlyChanges [.v, .pc] s t) ∧
      (∃ t, exec (.xorVxVy x y) s = .next t ∧
        (∀ k, (t.reg x).getLsbD k = ((s.reg x).getLsbD k ^^ (s.reg y).getLsbD k)) ∧ t.pc = s.pc + 2 ∧ OnlyReg x s t ∧
        OnlyChanges [.v, .pc] s t)

/-- R134 with R140: the sum modulo 256 in VX, the carry out in VF unless VF is VX. -/
def Obligations.AddWithCarryOut : Prop :=
  ∀ x y : Reg, Spells (0x8004 + x.val * 0x100 + y.val * 0x10) (.addVxVy x y) ∧
    ∀ s, ∃ t, exec (.addVxVy x y) s = .next t ∧ (t.reg x).toNat = ((s.reg x).toNat + (s.reg y).toNat) % 256 ∧
      (x ≠ vf → (t.reg vf).toNat = if (s.reg x).toNat + (s.reg y).toNat > 255 then 1 else 0) ∧ t.pc = s.pc + 2 ∧
      OnlyRegAndVf x s t ∧ OnlyChanges [.v, .pc] s t

/-- R135, R137 with R140: the difference as its residue modulo 256 in VX; VF 1 exactly when there is no borrow, unless VF is
VX. -/
def Obligations.SubtractBothWays : Prop :=
  ∀ x y : Reg, Spells (0x8005 + x.val * 0x100 + y.val * 0x10) (.subVxVy x y) ∧
    Spells (0x8007 + x.val * 0x100 + y.val * 0x10) (.subnVxVy x y) ∧
    ∀ s,
      (∃ t, exec (.subVxVy x y) s = .next t ∧
        ((t.reg x).toNat : Int) = (((s.reg x).toNat : Int) - ((s.reg y).toNat : Int)) % 256 ∧
        (x ≠ vf → (t.reg vf).toNat = if (s.reg y).toNat > (s.reg x).toNat then 0 else 1) ∧ t.pc = s.pc + 2 ∧
        OnlyRegAndVf x s t ∧ OnlyChanges [.v, .pc] s t) ∧
      (∃ t, exec (.subnVxVy x y) s = .next t ∧
        ((t.reg x).toNat : Int) = (((s.reg y).toNat : Int) - ((s.reg x).toNat : Int)) % 256 ∧
        (x ≠ vf → (t.reg vf).toNat = if (s.reg x).toNat > (s.reg y).toNat then 0 else 1) ∧ t.pc = s.pc + 2 ∧
        OnlyRegAndVf x s t ∧ OnlyChanges [.v, .pc] s t)

/-- R136, R138 with R140: shifts of VX in place by one, whatever the Y field; the bit shifted out in VF unless VF is VX. -/
def Obligations.ShiftsByOne : Prop :=
  ∀ x y : Reg, Spells (0x8006 + x.val * 0x100 + y.val * 0x10) (.shrVx x y) ∧
    Spells (0x800E + x.val * 0x100 + y.val * 0x10) (.shlVx x y) ∧
    ∀ s,
      (∃ t, exec (.shrVx x y) s = .next t ∧ (t.reg x).toNat = (s.reg x).toNat / 2 ∧
        (x ≠ vf → (t.reg vf).toNat = (s.reg x).toNat % 2) ∧ t.pc = s.pc + 2 ∧ OnlyRegAndVf x s t ∧
        OnlyChanges [.v, .pc] s t) ∧
      (∃ t, exec (.shlVx x y) s = .next t ∧ (t.reg x).toNat = (s.reg x).toNat * 2 % 256 ∧
        (x ≠ vf → (t.reg vf).toNat = (s.reg x).toNat / 128) ∧ t.pc = s.pc + 2 ∧ OnlyRegAndVf x s t ∧
        OnlyChanges [.v, .pc] s t)

/-! ### Index, jump with offset, randomize -/

/-- R150, R151. -/
def Obligations.SetIndexAndJumpWithOffset : Prop :=
  ∀ nnn : Addr12, Spells (0xA000 + nnn.toNat) (.ldINnn nnn) ∧ Spells (0xB000 + nnn.toNat) (.jpV0Nnn nnn) ∧
    ∀ s,
      (∃ t, exec (.ldINnn nnn) s = .next t ∧ t.i.toNat = nnn.toNat ∧ t.pc = s.pc + 2 ∧ OnlyChanges [.i, .pc] s t) ∧
      (∃ t, exec (.jpV0Nnn nnn) s = .next t ∧ t.pc.toNat = nnn.toNat + (s.reg 0).toNat ∧ OnlyChanges [.pc] s t)

/-- R152: VX holds the drawn byte under the mask, for whatever byte is drawn; all a program can rely on is that the bits outside
the mask are 0. The drawn byte as a free value at a position that moves on by one is the model's own (log entry 1). -/
def Obligations.RandomizeMasksTheDraw : Prop :=
  ∀ (x : Reg) (nn : Byte), Spells (0xC000 + x.val * 0x100 + nn.toNat) (.rndVxNn x nn) ∧
    ∀ s, ∃ t, exec (.rndVxNn x nn) s = .next t ∧ t.reg x = Config.drawByte s.draws &&& nn ∧ t.reg x &&& ~~~nn = 0 ∧
      t.pc = s.pc + 2 ∧ t.draws = s.draws + 1 ∧ OnlyReg x s t ∧ OnlyChanges [.v, .pc, .draws] s t

/-! ### Draw -/

/-- R160, R162 (an inference of the spec's; the bit order of a row, the fault at an index past the end and the discarded step are
its own decisions D4, D5, D6 and D7): when every row address and every pixel index of the sprite is in range, each pixel of the sprite is toggled and
no other, VF is 1 exactly when one of them was 1, REDRAW is set; otherwise the whole step is discarded and the fault taken, its
information word an offending index. -/
def Obligations.DrawIsTheCompositor : Prop :=
  ∀ (x y : Reg) (n : Nibble), Spells (0xD000 + x.val * 0x100 + y.val * 0x10 + n.toNat) (.drwVxVyN x y n) ∧
    ∀ s,
      (SpriteFits s x y n → ∃ t, exec (.drwVxVyN x y n) s = .next t ∧
        (∀ p, SpritePixel s x y n p → pixel t.fb p = !pixel s.fb p) ∧
        (∀ p, ¬ SpritePixel s x y n p → pixel t.fb p = pixel s.fb p) ∧
        ((∃ p, SpritePixel s x y n p ∧ pixel s.fb p = true) → t.reg vf = 1) ∧
        ((∀ p, SpritePixel s x y n p → pixel s.fb p = false) → t.reg vf = 0) ∧
        t.redraw = true ∧ t.pc = s.pc + 2 ∧ OnlyReg vf s t ∧ OnlyChanges [.v, .fb, .redraw, .pc] s t) ∧
      (¬ SpriteFits s x y n → exec (.drwVxVyN x y n) s = .next { s with mode := .halted .addressOutOfRange } ∧
        ∃ a, Instr.raises (.drwVxVyN x y n) s = some { cause := .addressOutOfRange, info := a } ∧
          ((∃ r, r < n.toNat ∧ a = s.effAddr r ∧ 4096 ≤ a) ∨ (SpritePixel s x y n a ∧ 2048 ≤ a)))

/-- R163, an inference of the spec's: drawing the same sprite twice at the same place restores the framebuffer; the first draw's VF says whether some pixel of
the sprite was 1 at the start, the second's whether some was 0. -/
def Obligations.DrawTwiceRestores : Prop :=
  ∀ (x y : Reg) (n : Nibble) (s : State), SpriteFits s x y n →
    ∃ t, exec (.drwVxVyN x y n) s = .next t ∧
      (t.reg vf = 1 ↔ ∃ p, SpritePixel s x y n p ∧ pixel s.fb p = true) ∧
      ((x ≠ vf ∧ y ≠ vf) ∨ t.reg vf = s.reg vf → ∃ u, exec (.drwVxVyN x y n) t = .next u ∧ u.fb = s.fb ∧
        (u.reg vf = 1 ↔ ∃ p, SpritePixel s x y n p ∧ pixel s.fb p = false))

/-! ### Keys and timers -/

/-- R170, R171: the key number is VX, not masked; 16 or more is AddressOutOfRange (the spec's own decision D5). -/
def Obligations.KeySkips : Prop :=
  ∀ x : Reg, Spells (0xE09E + x.val * 0x100) (.skpVx x) ∧ Spells (0xE0A1 + x.val * 0x100) (.sknpVx x) ∧
    ∀ s,
      ((s.reg x).toNat < 16 →
        (∃ t, exec (.skpVx x) s = .next t ∧ t.pc = s.pc + (if s.key.getLsbD (s.reg x).toNat = true then 4 else 2) ∧
          OnlyChanges [.pc] s t) ∧
        (∃ t, exec (.sknpVx x) s = .next t ∧ t.pc = s.pc + (if s.key.getLsbD (s.reg x).toNat = false then 4 else 2) ∧
          OnlyChanges [.pc] s t)) ∧
      (16 ≤ (s.reg x).toNat →
        exec (.skpVx x) s = .next { s with mode := .halted .addressOutOfRange } ∧
        exec (.sknpVx x) s = .next { s with mode := .halted .addressOutOfRange } ∧
        Instr.raises (.skpVx x) s = some { cause := .addressOutOfRange, info := (s.reg x).toNat } ∧
        Instr.raises (.sknpVx x) s = some { cause := .addressOutOfRange, info := (s.reg x).toNat })

/-- R172: the step that executes it changes nothing but MODE. -/
def Obligations.WaitForKeyStartsTheWait : Prop :=
  ∀ x : Reg, Spells (0xF00A + x.val * 0x100) (.ldVxK x) ∧
    ∀ s, exec (.ldVxK x) s = .next { s with mode := .waitingForKey x }

/-- R180, R181, R182. -/
def Obligations.TimerMoves : Prop :=
  ∀ x : Reg, Spells (0xF007 + x.val * 0x100) (.ldVxDt x) ∧ Spells (0xF015 + x.val * 0x100) (.ldDtVx x) ∧
    Spells (0xF018 + x.val * 0x100) (.ldStVx x) ∧
    ∀ s,
      (∃ t, exec (.ldVxDt x) s = .next t ∧ t.reg x = s.dt ∧ t.pc = s.pc + 2 ∧ OnlyReg x s t ∧ OnlyChanges [.v, .pc] s t) ∧
      (∃ t, exec (.ldDtVx x) s = .next t ∧ t.dt = s.reg x ∧ t.pc = s.pc + 2 ∧ OnlyChanges [.dt, .pc] s t) ∧
      (∃ t, exec (.ldStVx x) s = .next t ∧ t.st = s.reg x ∧ t.pc = s.pc + 2 ∧ OnlyChanges [.st, .pc] s t)

/-! ### Index arithmetic, font address, BCD, dump and load -/

/-- R190: I takes the sum modulo 65536 and never faults; VF takes the comparison of the unwrapped sum with 0xFFF exactly when the
parameter FX1E_SETS_VF is true. The parameter and the wrap are the spec's own decisions D20 and D21. -/
def Obligations.AddToIndex : Prop :=
  ∀ x : Reg, Spells (0xF01E + x.val * 0x100) (.addIVx x) ∧
    ∀ s, ∃ t, exec (.addIVx x) s = .next t ∧ t.i.toNat = (s.i.toNat + (s.reg x).toNat) % 65536 ∧ t.pc = s.pc + 2 ∧
      (s.config.fx1eSetsVF = true → (t.reg vf).toNat = (if s.i.toNat + (s.reg x).toNat > 0xFFF then 1 else 0) ∧
        OnlyReg vf s t ∧ OnlyChanges [.v, .i, .pc] s t) ∧
      (s.config.fx1eSetsVF = false → OnlyChanges [.i, .pc] s t)

/-- R191: five times the glyph number; 16 or more is AddressOutOfRange (the spec's own decision D5). -/
def Obligations.FontAddress : Prop :=
  ∀ x : Reg, Spells (0xF029 + x.val * 0x100) (.ldFVx x) ∧
    ∀ s,
      ((s.reg x).toNat < 16 → ∃ t, exec (.ldFVx x) s = .next t ∧ t.i.toNat = (s.reg x).toNat * 5 ∧ t.pc = s.pc + 2 ∧
        OnlyChanges [.i, .pc] s t) ∧
      (16 ≤ (s.reg x).toNat → exec (.ldFVx x) s = .next { s with mode := .halted .addressOutOfRange } ∧
        Instr.raises (.ldFVx x) s = some { cause := .addressOutOfRange, info := (s.reg x).toNat })

/-- R192: hundreds, tens and ones at I, I+1 and I+2, no other byte; nothing at all when I+2 is 4096 or more. -/
def Obligations.BcdStore : Prop :=
  ∀ x : Reg, Spells (0xF033 + x.val * 0x100) (.ldBVx x) ∧
    ∀ s,
      (s.effAddr 2 < 4096 → ∃ t, exec (.ldBVx x) s = .next t ∧
        (t.byteAt (s.effAddr 0)).toNat = (s.reg x).toNat / 100 ∧
        (t.byteAt (s.effAddr 1)).toNat = (s.reg x).toNat / 10 % 10 ∧
        (t.byteAt (s.effAddr 2)).toNat = (s.reg x).toNat % 10 ∧
        (∀ a, a < s.effAddr 0 ∨ s.effAddr 2 < a → t.byteAt a = s.byteAt a) ∧ t.pc = s.pc + 2 ∧
        OnlyChanges [.mem, .pc] s t) ∧
      (4096 ≤ s.effAddr 2 → exec (.ldBVx x) s = .next { s with mode := .halted .addressOutOfRange } ∧
        Instr.raises (.ldBVx x) s = some { cause := .addressOutOfRange, info := max (s.effAddr 0) 4096 })

/-- R193: V[0..X] at I up to I+X, no other byte, I moved past them; nothing at all when I+X is 4096 or more. -/
def Obligations.RegisterDump : Prop :=
  ∀ x : Reg, Spells (0xF055 + x.val * 0x100) (.ldMemVx x) ∧
    ∀ s,
      (s.effAddr x.val < 4096 → ∃ t, exec (.ldMemVx x) s = .next t ∧
        (∀ z, z ≤ x → t.byteAt (s.effAddr z.val) = s.reg z) ∧
        (∀ a, a < s.effAddr 0 ∨ s.effAddr x.val < a → t.byteAt a = s.byteAt a) ∧
        t.i.toNat = s.effAddr (x.val + 1) ∧ t.pc = s.pc + 2 ∧ OnlyChanges [.mem, .i, .pc] s t) ∧
      (4096 ≤ s.effAddr x.val → exec (.ldMemVx x) s = .next { s with mode := .halted .addressOutOfRange } ∧
        Instr.raises (.ldMemVx x) s = some { cause := .addressOutOfRange, info := max (s.effAddr 0) 4096 })

/-- R194: V[0..X] from I up to I+X, no other register, I moved past them; nothing at all when I+X is 4096 or more. -/
def Obligations.RegisterLoad : Prop :=
  ∀ x : Reg, Spells (0xF065 + x.val * 0x100) (.ldVxMem x) ∧
    ∀ s,
      (s.effAddr x.val < 4096 → ∃ t, exec (.ldVxMem x) s = .next t ∧
        (∀ z, z ≤ x → t.reg z = s.byteAt (s.effAddr z.val)) ∧ (∀ z, ¬ z ≤ x → t.reg z = s.reg z) ∧
        t.i.toNat = s.effAddr (x.val + 1) ∧ t.pc = s.pc + 2 ∧ OnlyChanges [.v, .i, .pc] s t) ∧
      (4096 ≤ s.effAddr x.val → exec (.ldVxMem x) s = .next { s with mode := .halted .addressOutOfRange } ∧
        Instr.raises (.ldVxMem x) s = some { cause := .addressOutOfRange, info := max (s.effAddr 0) 4096 })

/-! ### The end of a run -/

/-- R254, R102: at a `JP` to its own address in mode Running every step leaves the state unchanged: the run has ended well (this
definition of the end is the spec's own decision D27). -/
def Obligations.EndedWellIsAFixedPoint : Prop := ∀ s, EndedWell s → step s = .next s
end

