-- ==== Sys2Proof/Laws/Decode.lean ====
section
/-! SUPPORT. The fields of a composed word are the fields it was composed of, and a word is composed of its fields
(30_encoding.md R61). -/

namespace Sys2Proof.Laws

/-- Every instruction is well formed: the operand types carry the ranges of R62. -/
theorem wellFormed_all (i : Instr) : i.wellFormed = true := by
  cases i <;> simp [Instr.wellFormed, fitsReg, fitsNN, fitsN, fitsNNN] <;> omega

theorem toNat_wordFXYN (f : Nibble) (x y : Reg) (n : Nibble) :
    (wordFXYN f x y n).toNat = f.toNat * 4096 + x.val * 256 + y.val * 16 + n.toNat := by
  have hx := x.isLt; have hy := y.isLt; have hn := n.isLt
  have e1 : (regNibble x).toNat = x.val := rfl
  have e2 : (regNibble y).toNat = y.val := rfl
  simp only [wordFXYN, BitVec.toNat_append, e1, e2]
  rw [← Nat.shiftLeft_add_eq_or_of_lt (by omega), ← Nat.shiftLeft_add_eq_or_of_lt (by omega),
    ← Nat.shiftLeft_add_eq_or_of_lt (by omega)]
  simp only [Nat.shiftLeft_eq]
  omega

theorem toNat_wordFXNN (f : Nibble) (x : Reg) (nn : Byte) :
    (wordFXNN f x nn).toNat = f.toNat * 4096 + x.val * 256 + nn.toNat := by
  have hx := x.isLt; have hn := nn.isLt
  have e1 : (regNibble x).toNat = x.val := rfl
  simp only [wordFXNN, BitVec.toNat_append, e1]
  rw [← Nat.shiftLeft_add_eq_or_of_lt (by omega), ← Nat.shiftLeft_add_eq_or_of_lt (by omega)]
  simp only [Nat.shiftLeft_eq]
  omega

theorem toNat_wordFNNN (f : Nibble) (nnn : Addr12) : (wordFNNN f nnn).toNat = f.toNat * 4096 + nnn.toNat := by
  have hn := nnn.isLt
  simp only [wordFNNN, BitVec.toNat_append]
  rw [← Nat.shiftLeft_add_eq_or_of_lt (by omega)]
  simp only [Nat.shiftLeft_eq]

theorem toNat_wordOfBytes (hi lo : Byte) : (wordOfBytes hi lo).toNat = hi.toNat * 256 + lo.toNat := by
  have hl := lo.isLt
  simp only [wordOfBytes, BitVec.toNat_append]
  rw [← Nat.shiftLeft_add_eq_or_of_lt (by omega)]
  simp only [Nat.shiftLeft_eq]

theorem toNat_fieldF (op : Word) : (fieldF op).toNat = op.toNat / 4096 := by
  have := op.isLt
  simp [fieldF, BitVec.extractLsb'_toNat, Nat.shiftRight_eq_div_pow]; omega

theorem val_fieldX (op : Word) : (fieldX op).val = op.toNat / 256 % 16 := by
  show (nibbleX op).toNat = _
  simp [nibbleX, BitVec.extractLsb'_toNat, Nat.shiftRight_eq_div_pow]

theorem val_fieldY (op : Word) : (fieldY op).val = op.toNat / 16 % 16 := by
  show (nibbleY op).toNat = _
  simp [nibbleY, BitVec.extractLsb'_toNat, Nat.shiftRight_eq_div_pow]

theorem toNat_fieldN (op : Word) : (fieldN op).toNat = op.toNat % 16 := by
  simp [fieldN, BitVec.extractLsb'_toNat]

theorem toNat_fieldNN (op : Word) : (fieldNN op).toNat = op.toNat % 256 := by
  simp [fieldNN, BitVec.extractLsb'_toNat]

theorem toNat_fieldNNN (op : Word) : (fieldNNN op).toNat = op.toNat % 4096 := by
  simp [fieldNNN, BitVec.extractLsb'_toNat]

theorem toNat_highByte (op : Word) : (highByte op).toNat = op.toNat / 256 := by
  have := op.isLt
  simp [highByte, BitVec.extractLsb'_toNat, Nat.shiftRight_eq_div_pow]; omega

theorem toNat_lowByte (op : Word) : (lowByte op).toNat = op.toNat % 256 := by
  simp [lowByte, BitVec.extractLsb'_toNat]

/-! ### Fields of a composed word -/

@[simp] theorem fieldF_wordFXYN (f : Nibble) (x y : Reg) (n : Nibble) : fieldF (wordFXYN f x y n) = f := by
  apply BitVec.eq_of_toNat_eq
  have hx := x.isLt; have hy := y.isLt; have hn := n.isLt
  rw [toNat_fieldF, toNat_wordFXYN]; omega

@[simp] theorem fieldX_wordFXYN (f : Nibble) (x y : Reg) (n : Nibble) : fieldX (wordFXYN f x y n) = x := by
  apply Fin.ext
  have hx := x.isLt; have hy := y.isLt; have hn := n.isLt
  rw [val_fieldX, toNat_wordFXYN]; omega

@[simp] theorem fieldY_wordFXYN (f : Nibble) (x y : Reg) (n : Nibble) : fieldY (wordFXYN f x y n) = y := by
  apply Fin.ext
  have hx := x.isLt; have hy := y.isLt; have hn := n.isLt
  rw [val_fieldY, toNat_wordFXYN]; omega

@[simp] theorem fieldN_wordFXYN (f : Nibble) (x y : Reg) (n : Nibble) : fieldN (wordFXYN f x y n) = n := by
  apply BitVec.eq_of_toNat_eq
  have hn := n.isLt
  rw [toNat_fieldN, toNat_wordFXYN]; omega

@[simp] theorem fieldF_wordFXNN (f : Nibble) (x : Reg) (nn : Byte) : fieldF (wordFXNN f x nn) = f := by
  apply BitVec.eq_of_toNat_eq
  have hx := x.isLt; have hn := nn.isLt
  rw [toNat_fieldF, toNat_wordFXNN]; omega

@[simp] theorem fieldX_wordFXNN (f : Nibble) (x : Reg) (nn : Byte) : fieldX (wordFXNN f x nn) = x := by
  apply Fin.ext
  have hx := x.isLt; have hn := nn.isLt
  rw [val_fieldX, toNat_wordFXNN]; omega

@[simp] theorem fieldNN_wordFXNN (f : Nibble) (x : Reg) (nn : Byte) : fieldNN (wordFXNN f x nn) = nn := by
  apply BitVec.eq_of_toNat_eq
  have hn := nn.isLt
  rw [toNat_fieldNN, toNat_wordFXNN]; omega

@[simp] theorem fieldF_wordFNNN (f : Nibble) (nnn : Addr12) : fieldF (wordFNNN f nnn) = f := by
  apply BitVec.eq_of_toNat_eq
  have hn := nnn.isLt
  rw [toNat_fieldF, toNat_wordFNNN]; omega

@[simp] theorem fieldNNN_wordFNNN (f : Nibble) (nnn : Addr12) : fieldNNN (wordFNNN f nnn) = nnn := by
  apply BitVec.eq_of_toNat_eq
  have hn := nnn.isLt
  rw [toNat_fieldNNN, toNat_wordFNNN]; omega

/-! ### A word is composed of its fields -/

theorem wordFXYN_fields (op : Word) : wordFXYN (fieldF op) (fieldX op) (fieldY op) (fieldN op) = op := by
  apply BitVec.eq_of_toNat_eq
  rw [toNat_wordFXYN, toNat_fieldF, val_fieldX, val_fieldY, toNat_fieldN]; omega

theorem wordFXNN_fields (op : Word) : wordFXNN (fieldF op) (fieldX op) (fieldNN op) = op := by
  apply BitVec.eq_of_toNat_eq
  rw [toNat_wordFXNN, toNat_fieldF, val_fieldX, toNat_fieldNN]; omega

theorem wordFNNN_fields (op : Word) : wordFNNN (fieldF op) (fieldNNN op) = op := by
  apply BitVec.eq_of_toNat_eq
  rw [toNat_wordFNNN, toNat_fieldF, toNat_fieldNNN]; omega

@[simp] theorem wordOfBytes_bytes (op : Word) : wordOfBytes (highByte op) (lowByte op) = op := by
  apply BitVec.eq_of_toNat_eq
  rw [toNat_wordOfBytes, toNat_highByte, toNat_lowByte]; omega

/-- Masking a word nibble by nibble (R63). -/
theorem wordFXYN_and (f f' : Nibble) (x x' y y' : Reg) (n n' : Nibble) :
    wordFXYN f x y n &&& wordFXYN f' x' y' n' =
      wordFXYN (f &&& f') (regNibble x &&& regNibble x').toFin (regNibble y &&& regNibble y').toFin (n &&& n') := by
  show ((f ++ regNibble x ++ regNibble y ++ n : BitVec (4 + 4 + 4 + 4)) &&&
    (f' ++ regNibble x' ++ regNibble y' ++ n' : BitVec (4 + 4 + 4 + 4))) = _
  rw [BitVec.and_append, BitVec.and_append, BitVec.and_append]
  rfl

/-- Two composed words are equal when their fields are. -/
theorem wordFXYN_inj (f f' : Nibble) (x x' y y' : Reg) (n n' : Nibble) :
    wordFXYN f x y n = wordFXYN f' x' y' n' ↔ f = f' ∧ x = x' ∧ y = y' ∧ n = n' := by
  constructor
  · intro h
    exact ⟨by simpa using congrArg fieldF h, by simpa using congrArg fieldX h, by simpa using congrArg fieldY h,
      by simpa using congrArg fieldN h⟩
  · rintro ⟨rfl, rfl, rfl, rfl⟩; rfl

/-- The immediate is the two low nibbles (R61). -/
theorem wordFXNN_eq_wordFXYN (f : Nibble) (x : Reg) (nn : Byte) :
    wordFXNN f x nn = wordFXYN f x (fieldY (wordFXNN f x nn)) (fieldN (wordFXNN f x nn)) := by
  have h := wordFXYN_fields (wordFXNN f x nn)
  rw [fieldF_wordFXNN, fieldX_wordFXNN] at h
  exact h.symm

/-- The address is the three low nibbles (R61). -/
theorem wordFNNN_eq_wordFXYN (f : Nibble) (nnn : Addr12) :
    wordFNNN f nnn = wordFXYN f (fieldX (wordFNNN f nnn)) (fieldY (wordFNNN f nnn)) (fieldN (wordFNNN f nnn)) := by
  have h := wordFXYN_fields (wordFNNN f nnn)
  rw [fieldF_wordFNNN] at h
  exact h.symm

end Sys2Proof.Laws
end

