-- ==== Sys2Proof/Laws/State.lean ====
section
/-! SUPPORT. One lemma per field per update of State, and what each update does to the reads `reg` and `byteAt`, so that no
proof unfolds a record update. -/

namespace Sys2Proof.Machine

variable (s : State)

/-! `State.setReg` -/

@[simp] theorem State.setReg_v (x : Reg) (b : Byte) : (s.setReg x b).v = s.v.set x b := rfl
@[simp] theorem State.setReg_i (x : Reg) (b : Byte) : (s.setReg x b).i = s.i := rfl
@[simp] theorem State.setReg_pc (x : Reg) (b : Byte) : (s.setReg x b).pc = s.pc := rfl
@[simp] theorem State.setReg_sp (x : Reg) (b : Byte) : (s.setReg x b).sp = s.sp := rfl
@[simp] theorem State.setReg_stack (x : Reg) (b : Byte) : (s.setReg x b).stack = s.stack := rfl
@[simp] theorem State.setReg_mem (x : Reg) (b : Byte) : (s.setReg x b).mem = s.mem := rfl
@[simp] theorem State.setReg_fb (x : Reg) (b : Byte) : (s.setReg x b).fb = s.fb := rfl
@[simp] theorem State.setReg_key (x : Reg) (b : Byte) : (s.setReg x b).key = s.key := rfl
@[simp] theorem State.setReg_dt (x : Reg) (b : Byte) : (s.setReg x b).dt = s.dt := rfl
@[simp] theorem State.setReg_st (x : Reg) (b : Byte) : (s.setReg x b).st = s.st := rfl
@[simp] theorem State.setReg_redraw (x : Reg) (b : Byte) : (s.setReg x b).redraw = s.redraw := rfl
@[simp] theorem State.setReg_mode (x : Reg) (b : Byte) : (s.setReg x b).mode = s.mode := rfl
@[simp] theorem State.setReg_draws (x : Reg) (b : Byte) : (s.setReg x b).draws = s.draws := rfl
@[simp] theorem State.setReg_config (x : Reg) (b : Byte) : (s.setReg x b).config = s.config := rfl
@[simp] theorem State.byteAt_setReg (x : Reg) (b : Byte) (z : Nat) : (s.setReg x b).byteAt z = s.byteAt z := rfl
@[simp] theorem State.fetch_setReg (x : Reg) (b : Byte) : (s.setReg x b).fetch = s.fetch := rfl

/-! `State.setRegs` -/

@[simp] theorem State.setRegs_v (w : Vector Byte 16) : (s.setRegs w).v = w := rfl
@[simp] theorem State.setRegs_i (w : Vector Byte 16) : (s.setRegs w).i = s.i := rfl
@[simp] theorem State.setRegs_pc (w : Vector Byte 16) : (s.setRegs w).pc = s.pc := rfl
@[simp] theorem State.setRegs_sp (w : Vector Byte 16) : (s.setRegs w).sp = s.sp := rfl
@[simp] theorem State.setRegs_stack (w : Vector Byte 16) : (s.setRegs w).stack = s.stack := rfl
@[simp] theorem State.setRegs_mem (w : Vector Byte 16) : (s.setRegs w).mem = s.mem := rfl
@[simp] theorem State.setRegs_fb (w : Vector Byte 16) : (s.setRegs w).fb = s.fb := rfl
@[simp] theorem State.setRegs_key (w : Vector Byte 16) : (s.setRegs w).key = s.key := rfl
@[simp] theorem State.setRegs_dt (w : Vector Byte 16) : (s.setRegs w).dt = s.dt := rfl
@[simp] theorem State.setRegs_st (w : Vector Byte 16) : (s.setRegs w).st = s.st := rfl
@[simp] theorem State.setRegs_redraw (w : Vector Byte 16) : (s.setRegs w).redraw = s.redraw := rfl
@[simp] theorem State.setRegs_mode (w : Vector Byte 16) : (s.setRegs w).mode = s.mode := rfl
@[simp] theorem State.setRegs_draws (w : Vector Byte 16) : (s.setRegs w).draws = s.draws := rfl
@[simp] theorem State.setRegs_config (w : Vector Byte 16) : (s.setRegs w).config = s.config := rfl
@[simp] theorem State.byteAt_setRegs (w : Vector Byte 16) (z : Nat) : (s.setRegs w).byteAt z = s.byteAt z := rfl
@[simp] theorem State.fetch_setRegs (w : Vector Byte 16) : (s.setRegs w).fetch = s.fetch := rfl

/-! `State.setI` -/

@[simp] theorem State.setI_v (w : Word) : (s.setI w).v = s.v := rfl
@[simp] theorem State.setI_i (w : Word) : (s.setI w).i = w := rfl
@[simp] theorem State.setI_pc (w : Word) : (s.setI w).pc = s.pc := rfl
@[simp] theorem State.setI_sp (w : Word) : (s.setI w).sp = s.sp := rfl
@[simp] theorem State.setI_stack (w : Word) : (s.setI w).stack = s.stack := rfl
@[simp] theorem State.setI_mem (w : Word) : (s.setI w).mem = s.mem := rfl
@[simp] theorem State.setI_fb (w : Word) : (s.setI w).fb = s.fb := rfl
@[simp] theorem State.setI_key (w : Word) : (s.setI w).key = s.key := rfl
@[simp] theorem State.setI_dt (w : Word) : (s.setI w).dt = s.dt := rfl
@[simp] theorem State.setI_st (w : Word) : (s.setI w).st = s.st := rfl
@[simp] theorem State.setI_redraw (w : Word) : (s.setI w).redraw = s.redraw := rfl
@[simp] theorem State.setI_mode (w : Word) : (s.setI w).mode = s.mode := rfl
@[simp] theorem State.setI_draws (w : Word) : (s.setI w).draws = s.draws := rfl
@[simp] theorem State.setI_config (w : Word) : (s.setI w).config = s.config := rfl
@[simp] theorem State.reg_setI (w : Word) (z : Reg) : (s.setI w).reg z = s.reg z := rfl
@[simp] theorem State.byteAt_setI (w : Word) (z : Nat) : (s.setI w).byteAt z = s.byteAt z := rfl
@[simp] theorem State.fetch_setI (w : Word) : (s.setI w).fetch = s.fetch := rfl

/-! `State.setPc` -/

@[simp] theorem State.setPc_v (w : Word) : (s.setPc w).v = s.v := rfl
@[simp] theorem State.setPc_i (w : Word) : (s.setPc w).i = s.i := rfl
@[simp] theorem State.setPc_pc (w : Word) : (s.setPc w).pc = w := rfl
@[simp] theorem State.setPc_sp (w : Word) : (s.setPc w).sp = s.sp := rfl
@[simp] theorem State.setPc_stack (w : Word) : (s.setPc w).stack = s.stack := rfl
@[simp] theorem State.setPc_mem (w : Word) : (s.setPc w).mem = s.mem := rfl
@[simp] theorem State.setPc_fb (w : Word) : (s.setPc w).fb = s.fb := rfl
@[simp] theorem State.setPc_key (w : Word) : (s.setPc w).key = s.key := rfl
@[simp] theorem State.setPc_dt (w : Word) : (s.setPc w).dt = s.dt := rfl
@[simp] theorem State.setPc_st (w : Word) : (s.setPc w).st = s.st := rfl
@[simp] theorem State.setPc_redraw (w : Word) : (s.setPc w).redraw = s.redraw := rfl
@[simp] theorem State.setPc_mode (w : Word) : (s.setPc w).mode = s.mode := rfl
@[simp] theorem State.setPc_draws (w : Word) : (s.setPc w).draws = s.draws := rfl
@[simp] theorem State.setPc_config (w : Word) : (s.setPc w).config = s.config := rfl
@[simp] theorem State.reg_setPc (w : Word) (z : Reg) : (s.setPc w).reg z = s.reg z := rfl
@[simp] theorem State.byteAt_setPc (w : Word) (z : Nat) : (s.setPc w).byteAt z = s.byteAt z := rfl

/-! `State.setSp` -/

@[simp] theorem State.setSp_v (n : Fin 17) : (s.setSp n).v = s.v := rfl
@[simp] theorem State.setSp_i (n : Fin 17) : (s.setSp n).i = s.i := rfl
@[simp] theorem State.setSp_pc (n : Fin 17) : (s.setSp n).pc = s.pc := rfl
@[simp] theorem State.setSp_sp (n : Fin 17) : (s.setSp n).sp = n := rfl
@[simp] theorem State.setSp_stack (n : Fin 17) : (s.setSp n).stack = s.stack := rfl
@[simp] theorem State.setSp_mem (n : Fin 17) : (s.setSp n).mem = s.mem := rfl
@[simp] theorem State.setSp_fb (n : Fin 17) : (s.setSp n).fb = s.fb := rfl
@[simp] theorem State.setSp_key (n : Fin 17) : (s.setSp n).key = s.key := rfl
@[simp] theorem State.setSp_dt (n : Fin 17) : (s.setSp n).dt = s.dt := rfl
@[simp] theorem State.setSp_st (n : Fin 17) : (s.setSp n).st = s.st := rfl
@[simp] theorem State.setSp_redraw (n : Fin 17) : (s.setSp n).redraw = s.redraw := rfl
@[simp] theorem State.setSp_mode (n : Fin 17) : (s.setSp n).mode = s.mode := rfl
@[simp] theorem State.setSp_draws (n : Fin 17) : (s.setSp n).draws = s.draws := rfl
@[simp] theorem State.setSp_config (n : Fin 17) : (s.setSp n).config = s.config := rfl
@[simp] theorem State.reg_setSp (n : Fin 17) (z : Reg) : (s.setSp n).reg z = s.reg z := rfl
@[simp] theorem State.byteAt_setSp (n : Fin 17) (z : Nat) : (s.setSp n).byteAt z = s.byteAt z := rfl
@[simp] theorem State.fetch_setSp (n : Fin 17) : (s.setSp n).fetch = s.fetch := rfl

/-! `State.setStack` -/

@[simp] theorem State.setStack_v (k : Fin 16) (w : Word) : (s.setStack k w).v = s.v := rfl
@[simp] theorem State.setStack_i (k : Fin 16) (w : Word) : (s.setStack k w).i = s.i := rfl
@[simp] theorem State.setStack_pc (k : Fin 16) (w : Word) : (s.setStack k w).pc = s.pc := rfl
@[simp] theorem State.setStack_sp (k : Fin 16) (w : Word) : (s.setStack k w).sp = s.sp := rfl
@[simp] theorem State.setStack_stack (k : Fin 16) (w : Word) : (s.setStack k w).stack = s.stack.set k w := rfl
@[simp] theorem State.setStack_mem (k : Fin 16) (w : Word) : (s.setStack k w).mem = s.mem := rfl
@[simp] theorem State.setStack_fb (k : Fin 16) (w : Word) : (s.setStack k w).fb = s.fb := rfl
@[simp] theorem State.setStack_key (k : Fin 16) (w : Word) : (s.setStack k w).key = s.key := rfl
@[simp] theorem State.setStack_dt (k : Fin 16) (w : Word) : (s.setStack k w).dt = s.dt := rfl
@[simp] theorem State.setStack_st (k : Fin 16) (w : Word) : (s.setStack k w).st = s.st := rfl
@[simp] theorem State.setStack_redraw (k : Fin 16) (w : Word) : (s.setStack k w).redraw = s.redraw := rfl
@[simp] theorem State.setStack_mode (k : Fin 16) (w : Word) : (s.setStack k w).mode = s.mode := rfl
@[simp] theorem State.setStack_draws (k : Fin 16) (w : Word) : (s.setStack k w).draws = s.draws := rfl
@[simp] theorem State.setStack_config (k : Fin 16) (w : Word) : (s.setStack k w).config = s.config := rfl
@[simp] theorem State.reg_setStack (k : Fin 16) (w : Word) (z : Reg) : (s.setStack k w).reg z = s.reg z := rfl
@[simp] theorem State.byteAt_setStack (k : Fin 16) (w : Word) (z : Nat) : (s.setStack k w).byteAt z = s.byteAt z := rfl
@[simp] theorem State.fetch_setStack (k : Fin 16) (w : Word) : (s.setStack k w).fetch = s.fetch := rfl

/-! `State.setMem` -/

@[simp] theorem State.setMem_v (m : Memory) : (s.setMem m).v = s.v := rfl
@[simp] theorem State.setMem_i (m : Memory) : (s.setMem m).i = s.i := rfl
@[simp] theorem State.setMem_pc (m : Memory) : (s.setMem m).pc = s.pc := rfl
@[simp] theorem State.setMem_sp (m : Memory) : (s.setMem m).sp = s.sp := rfl
@[simp] theorem State.setMem_stack (m : Memory) : (s.setMem m).stack = s.stack := rfl
@[simp] theorem State.setMem_mem (m : Memory) : (s.setMem m).mem = m := rfl
@[simp] theorem State.setMem_fb (m : Memory) : (s.setMem m).fb = s.fb := rfl
@[simp] theorem State.setMem_key (m : Memory) : (s.setMem m).key = s.key := rfl
@[simp] theorem State.setMem_dt (m : Memory) : (s.setMem m).dt = s.dt := rfl
@[simp] theorem State.setMem_st (m : Memory) : (s.setMem m).st = s.st := rfl
@[simp] theorem State.setMem_redraw (m : Memory) : (s.setMem m).redraw = s.redraw := rfl
@[simp] theorem State.setMem_mode (m : Memory) : (s.setMem m).mode = s.mode := rfl
@[simp] theorem State.setMem_draws (m : Memory) : (s.setMem m).draws = s.draws := rfl
@[simp] theorem State.setMem_config (m : Memory) : (s.setMem m).config = s.config := rfl
@[simp] theorem State.reg_setMem (m : Memory) (z : Reg) : (s.setMem m).reg z = s.reg z := rfl

/-! `State.setFb` -/

@[simp] theorem State.setFb_v (f : FrameBuffer) : (s.setFb f).v = s.v := rfl
@[simp] theorem State.setFb_i (f : FrameBuffer) : (s.setFb f).i = s.i := rfl
@[simp] theorem State.setFb_pc (f : FrameBuffer) : (s.setFb f).pc = s.pc := rfl
@[simp] theorem State.setFb_sp (f : FrameBuffer) : (s.setFb f).sp = s.sp := rfl
@[simp] theorem State.setFb_stack (f : FrameBuffer) : (s.setFb f).stack = s.stack := rfl
@[simp] theorem State.setFb_mem (f : FrameBuffer) : (s.setFb f).mem = s.mem := rfl
@[simp] theorem State.setFb_fb (f : FrameBuffer) : (s.setFb f).fb = f := rfl
@[simp] theorem State.setFb_key (f : FrameBuffer) : (s.setFb f).key = s.key := rfl
@[simp] theorem State.setFb_dt (f : FrameBuffer) : (s.setFb f).dt = s.dt := rfl
@[simp] theorem State.setFb_st (f : FrameBuffer) : (s.setFb f).st = s.st := rfl
@[simp] theorem State.setFb_redraw (f : FrameBuffer) : (s.setFb f).redraw = s.redraw := rfl
@[simp] theorem State.setFb_mode (f : FrameBuffer) : (s.setFb f).mode = s.mode := rfl
@[simp] theorem State.setFb_draws (f : FrameBuffer) : (s.setFb f).draws = s.draws := rfl
@[simp] theorem State.setFb_config (f : FrameBuffer) : (s.setFb f).config = s.config := rfl
@[simp] theorem State.reg_setFb (f : FrameBuffer) (z : Reg) : (s.setFb f).reg z = s.reg z := rfl
@[simp] theorem State.byteAt_setFb (f : FrameBuffer) (z : Nat) : (s.setFb f).byteAt z = s.byteAt z := rfl
@[simp] theorem State.fetch_setFb (f : FrameBuffer) : (s.setFb f).fetch = s.fetch := rfl

/-! `State.setKeys` -/

@[simp] theorem State.setKeys_v (k : BitVec 16) : (s.setKeys k).v = s.v := rfl
@[simp] theorem State.setKeys_i (k : BitVec 16) : (s.setKeys k).i = s.i := rfl
@[simp] theorem State.setKeys_pc (k : BitVec 16) : (s.setKeys k).pc = s.pc := rfl
@[simp] theorem State.setKeys_sp (k : BitVec 16) : (s.setKeys k).sp = s.sp := rfl
@[simp] theorem State.setKeys_stack (k : BitVec 16) : (s.setKeys k).stack = s.stack := rfl
@[simp] theorem State.setKeys_mem (k : BitVec 16) : (s.setKeys k).mem = s.mem := rfl
@[simp] theorem State.setKeys_fb (k : BitVec 16) : (s.setKeys k).fb = s.fb := rfl
@[simp] theorem State.setKeys_key (k : BitVec 16) : (s.setKeys k).key = k := rfl
@[simp] theorem State.setKeys_dt (k : BitVec 16) : (s.setKeys k).dt = s.dt := rfl
@[simp] theorem State.setKeys_st (k : BitVec 16) : (s.setKeys k).st = s.st := rfl
@[simp] theorem State.setKeys_redraw (k : BitVec 16) : (s.setKeys k).redraw = s.redraw := rfl
@[simp] theorem State.setKeys_mode (k : BitVec 16) : (s.setKeys k).mode = s.mode := rfl
@[simp] theorem State.setKeys_draws (k : BitVec 16) : (s.setKeys k).draws = s.draws := rfl
@[simp] theorem State.setKeys_config (k : BitVec 16) : (s.setKeys k).config = s.config := rfl
@[simp] theorem State.reg_setKeys (k : BitVec 16) (z : Reg) : (s.setKeys k).reg z = s.reg z := rfl
@[simp] theorem State.byteAt_setKeys (k : BitVec 16) (z : Nat) : (s.setKeys k).byteAt z = s.byteAt z := rfl
@[simp] theorem State.fetch_setKeys (k : BitVec 16) : (s.setKeys k).fetch = s.fetch := rfl

/-! `State.setDt` -/

@[simp] theorem State.setDt_v (b : Byte) : (s.setDt b).v = s.v := rfl
@[simp] theorem State.setDt_i (b : Byte) : (s.setDt b).i = s.i := rfl
@[simp] theorem State.setDt_pc (b : Byte) : (s.setDt b).pc = s.pc := rfl
@[simp] theorem State.setDt_sp (b : Byte) : (s.setDt b).sp = s.sp := rfl
@[simp] theorem State.setDt_stack (b : Byte) : (s.setDt b).stack = s.stack := rfl
@[simp] theorem State.setDt_mem (b : Byte) : (s.setDt b).mem = s.mem := rfl
@[simp] theorem State.setDt_fb (b : Byte) : (s.setDt b).fb = s.fb := rfl
@[simp] theorem State.setDt_key (b : Byte) : (s.setDt b).key = s.key := rfl
@[simp] theorem State.setDt_dt (b : Byte) : (s.setDt b).dt = b := rfl
@[simp] theorem State.setDt_st (b : Byte) : (s.setDt b).st = s.st := rfl
@[simp] theorem State.setDt_redraw (b : Byte) : (s.setDt b).redraw = s.redraw := rfl
@[simp] theorem State.setDt_mode (b : Byte) : (s.setDt b).mode = s.mode := rfl
@[simp] theorem State.setDt_draws (b : Byte) : (s.setDt b).draws = s.draws := rfl
@[simp] theorem State.setDt_config (b : Byte) : (s.setDt b).config = s.config := rfl
@[simp] theorem State.reg_setDt (b : Byte) (z : Reg) : (s.setDt b).reg z = s.reg z := rfl
@[simp] theorem State.byteAt_setDt (b : Byte) (z : Nat) : (s.setDt b).byteAt z = s.byteAt z := rfl
@[simp] theorem State.fetch_setDt (b : Byte) : (s.setDt b).fetch = s.fetch := rfl

/-! `State.setSt` -/

@[simp] theorem State.setSt_v (b : Byte) : (s.setSt b).v = s.v := rfl
@[simp] theorem State.setSt_i (b : Byte) : (s.setSt b).i = s.i := rfl
@[simp] theorem State.setSt_pc (b : Byte) : (s.setSt b).pc = s.pc := rfl
@[simp] theorem State.setSt_sp (b : Byte) : (s.setSt b).sp = s.sp := rfl
@[simp] theorem State.setSt_stack (b : Byte) : (s.setSt b).stack = s.stack := rfl
@[simp] theorem State.setSt_mem (b : Byte) : (s.setSt b).mem = s.mem := rfl
@[simp] theorem State.setSt_fb (b : Byte) : (s.setSt b).fb = s.fb := rfl
@[simp] theorem State.setSt_key (b : Byte) : (s.setSt b).key = s.key := rfl
@[simp] theorem State.setSt_dt (b : Byte) : (s.setSt b).dt = s.dt := rfl
@[simp] theorem State.setSt_st (b : Byte) : (s.setSt b).st = b := rfl
@[simp] theorem State.setSt_redraw (b : Byte) : (s.setSt b).redraw = s.redraw := rfl
@[simp] theorem State.setSt_mode (b : Byte) : (s.setSt b).mode = s.mode := rfl
@[simp] theorem State.setSt_draws (b : Byte) : (s.setSt b).draws = s.draws := rfl
@[simp] theorem State.setSt_config (b : Byte) : (s.setSt b).config = s.config := rfl
@[simp] theorem State.reg_setSt (b : Byte) (z : Reg) : (s.setSt b).reg z = s.reg z := rfl
@[simp] theorem State.byteAt_setSt (b : Byte) (z : Nat) : (s.setSt b).byteAt z = s.byteAt z := rfl
@[simp] theorem State.fetch_setSt (b : Byte) : (s.setSt b).fetch = s.fetch := rfl

/-! `State.setRedraw` -/

@[simp] theorem State.setRedraw_v (b : Bool) : (s.setRedraw b).v = s.v := rfl
@[simp] theorem State.setRedraw_i (b : Bool) : (s.setRedraw b).i = s.i := rfl
@[simp] theorem State.setRedraw_pc (b : Bool) : (s.setRedraw b).pc = s.pc := rfl
@[simp] theorem State.setRedraw_sp (b : Bool) : (s.setRedraw b).sp = s.sp := rfl
@[simp] theorem State.setRedraw_stack (b : Bool) : (s.setRedraw b).stack = s.stack := rfl
@[simp] theorem State.setRedraw_mem (b : Bool) : (s.setRedraw b).mem = s.mem := rfl
@[simp] theorem State.setRedraw_fb (b : Bool) : (s.setRedraw b).fb = s.fb := rfl
@[simp] theorem State.setRedraw_key (b : Bool) : (s.setRedraw b).key = s.key := rfl
@[simp] theorem State.setRedraw_dt (b : Bool) : (s.setRedraw b).dt = s.dt := rfl
@[simp] theorem State.setRedraw_st (b : Bool) : (s.setRedraw b).st = s.st := rfl
@[simp] theorem State.setRedraw_redraw (b : Bool) : (s.setRedraw b).redraw = b := rfl
@[simp] theorem State.setRedraw_mode (b : Bool) : (s.setRedraw b).mode = s.mode := rfl
@[simp] theorem State.setRedraw_draws (b : Bool) : (s.setRedraw b).draws = s.draws := rfl
@[simp] theorem State.setRedraw_config (b : Bool) : (s.setRedraw b).config = s.config := rfl
@[simp] theorem State.reg_setRedraw (b : Bool) (z : Reg) : (s.setRedraw b).reg z = s.reg z := rfl
@[simp] theorem State.byteAt_setRedraw (b : Bool) (z : Nat) : (s.setRedraw b).byteAt z = s.byteAt z := rfl
@[simp] theorem State.fetch_setRedraw (b : Bool) : (s.setRedraw b).fetch = s.fetch := rfl

/-! `State.setMode` -/

@[simp] theorem State.setMode_v (m : Mode) : (s.setMode m).v = s.v := rfl
@[simp] theorem State.setMode_i (m : Mode) : (s.setMode m).i = s.i := rfl
@[simp] theorem State.setMode_pc (m : Mode) : (s.setMode m).pc = s.pc := rfl
@[simp] theorem State.setMode_sp (m : Mode) : (s.setMode m).sp = s.sp := rfl
@[simp] theorem State.setMode_stack (m : Mode) : (s.setMode m).stack = s.stack := rfl
@[simp] theorem State.setMode_mem (m : Mode) : (s.setMode m).mem = s.mem := rfl
@[simp] theorem State.setMode_fb (m : Mode) : (s.setMode m).fb = s.fb := rfl
@[simp] theorem State.setMode_key (m : Mode) : (s.setMode m).key = s.key := rfl
@[simp] theorem State.setMode_dt (m : Mode) : (s.setMode m).dt = s.dt := rfl
@[simp] theorem State.setMode_st (m : Mode) : (s.setMode m).st = s.st := rfl
@[simp] theorem State.setMode_redraw (m : Mode) : (s.setMode m).redraw = s.redraw := rfl
@[simp] theorem State.setMode_mode (m : Mode) : (s.setMode m).mode = m := rfl
@[simp] theorem State.setMode_draws (m : Mode) : (s.setMode m).draws = s.draws := rfl
@[simp] theorem State.setMode_config (m : Mode) : (s.setMode m).config = s.config := rfl
@[simp] theorem State.reg_setMode (m : Mode) (z : Reg) : (s.setMode m).reg z = s.reg z := rfl
@[simp] theorem State.byteAt_setMode (m : Mode) (z : Nat) : (s.setMode m).byteAt z = s.byteAt z := rfl
@[simp] theorem State.fetch_setMode (m : Mode) : (s.setMode m).fetch = s.fetch := rfl

/-! `State.setDraws` -/

@[simp] theorem State.setDraws_v (n : Nat) : (s.setDraws n).v = s.v := rfl
@[simp] theorem State.setDraws_i (n : Nat) : (s.setDraws n).i = s.i := rfl
@[simp] theorem State.setDraws_pc (n : Nat) : (s.setDraws n).pc = s.pc := rfl
@[simp] theorem State.setDraws_sp (n : Nat) : (s.setDraws n).sp = s.sp := rfl
@[simp] theorem State.setDraws_stack (n : Nat) : (s.setDraws n).stack = s.stack := rfl
@[simp] theorem State.setDraws_mem (n : Nat) : (s.setDraws n).mem = s.mem := rfl
@[simp] theorem State.setDraws_fb (n : Nat) : (s.setDraws n).fb = s.fb := rfl
@[simp] theorem State.setDraws_key (n : Nat) : (s.setDraws n).key = s.key := rfl
@[simp] theorem State.setDraws_dt (n : Nat) : (s.setDraws n).dt = s.dt := rfl
@[simp] theorem State.setDraws_st (n : Nat) : (s.setDraws n).st = s.st := rfl
@[simp] theorem State.setDraws_redraw (n : Nat) : (s.setDraws n).redraw = s.redraw := rfl
@[simp] theorem State.setDraws_mode (n : Nat) : (s.setDraws n).mode = s.mode := rfl
@[simp] theorem State.setDraws_draws (n : Nat) : (s.setDraws n).draws = n := rfl
@[simp] theorem State.setDraws_config (n : Nat) : (s.setDraws n).config = s.config := rfl
@[simp] theorem State.reg_setDraws (n : Nat) (z : Reg) : (s.setDraws n).reg z = s.reg z := rfl
@[simp] theorem State.byteAt_setDraws (n : Nat) (z : Nat) : (s.setDraws n).byteAt z = s.byteAt z := rfl
@[simp] theorem State.fetch_setDraws (n : Nat) : (s.setDraws n).fetch = s.fetch := rfl

/-! `State.advance` -/

@[simp] theorem State.advance_v (n : Nat) : (s.advance n).v = s.v := rfl
@[simp] theorem State.advance_i (n : Nat) : (s.advance n).i = s.i := rfl
@[simp] theorem State.advance_pc (n : Nat) : (s.advance n).pc = s.pc + BitVec.ofNat 16 n := rfl
@[simp] theorem State.advance_sp (n : Nat) : (s.advance n).sp = s.sp := rfl
@[simp] theorem State.advance_stack (n : Nat) : (s.advance n).stack = s.stack := rfl
@[simp] theorem State.advance_mem (n : Nat) : (s.advance n).mem = s.mem := rfl
@[simp] theorem State.advance_fb (n : Nat) : (s.advance n).fb = s.fb := rfl
@[simp] theorem State.advance_key (n : Nat) : (s.advance n).key = s.key := rfl
@[simp] theorem State.advance_dt (n : Nat) : (s.advance n).dt = s.dt := rfl
@[simp] theorem State.advance_st (n : Nat) : (s.advance n).st = s.st := rfl
@[simp] theorem State.advance_redraw (n : Nat) : (s.advance n).redraw = s.redraw := rfl
@[simp] theorem State.advance_mode (n : Nat) : (s.advance n).mode = s.mode := rfl
@[simp] theorem State.advance_draws (n : Nat) : (s.advance n).draws = s.draws := rfl
@[simp] theorem State.advance_config (n : Nat) : (s.advance n).config = s.config := rfl
@[simp] theorem State.reg_advance (n : Nat) (z : Reg) : (s.advance n).reg z = s.reg z := rfl
@[simp] theorem State.byteAt_advance (n : Nat) (z : Nat) : (s.advance n).byteAt z = s.byteAt z := rfl

/-! `State.halt` -/

@[simp] theorem State.halt_v (c : Cause) : (s.halt c).v = s.v := rfl
@[simp] theorem State.halt_i (c : Cause) : (s.halt c).i = s.i := rfl
@[simp] theorem State.halt_pc (c : Cause) : (s.halt c).pc = s.pc := rfl
@[simp] theorem State.halt_sp (c : Cause) : (s.halt c).sp = s.sp := rfl
@[simp] theorem State.halt_stack (c : Cause) : (s.halt c).stack = s.stack := rfl
@[simp] theorem State.halt_mem (c : Cause) : (s.halt c).mem = s.mem := rfl
@[simp] theorem State.halt_fb (c : Cause) : (s.halt c).fb = s.fb := rfl
@[simp] theorem State.halt_key (c : Cause) : (s.halt c).key = s.key := rfl
@[simp] theorem State.halt_dt (c : Cause) : (s.halt c).dt = s.dt := rfl
@[simp] theorem State.halt_st (c : Cause) : (s.halt c).st = s.st := rfl
@[simp] theorem State.halt_redraw (c : Cause) : (s.halt c).redraw = s.redraw := rfl
@[simp] theorem State.halt_mode (c : Cause) : (s.halt c).mode = .halted c := rfl
@[simp] theorem State.halt_draws (c : Cause) : (s.halt c).draws = s.draws := rfl
@[simp] theorem State.halt_config (c : Cause) : (s.halt c).config = s.config := rfl
@[simp] theorem State.reg_halt (c : Cause) (z : Reg) : (s.halt c).reg z = s.reg z := rfl
@[simp] theorem State.byteAt_halt (c : Cause) (z : Nat) : (s.halt c).byteAt z = s.byteAt z := rfl
@[simp] theorem State.fetch_halt (c : Cause) : (s.halt c).fetch = s.fetch := rfl

/-! `State.writeFlagged` -/

@[simp] theorem State.writeFlagged_v (x : Reg) (f b : Byte) : (s.writeFlagged x f b).v = (s.v.set vf f).set x b := rfl
@[simp] theorem State.writeFlagged_i (x : Reg) (f b : Byte) : (s.writeFlagged x f b).i = s.i := rfl
@[simp] theorem State.writeFlagged_pc (x : Reg) (f b : Byte) : (s.writeFlagged x f b).pc = s.pc := rfl
@[simp] theorem State.writeFlagged_sp (x : Reg) (f b : Byte) : (s.writeFlagged x f b).sp = s.sp := rfl
@[simp] theorem State.writeFlagged_stack (x : Reg) (f b : Byte) : (s.writeFlagged x f b).stack = s.stack := rfl
@[simp] theorem State.writeFlagged_mem (x : Reg) (f b : Byte) : (s.writeFlagged x f b).mem = s.mem := rfl
@[simp] theorem State.writeFlagged_fb (x : Reg) (f b : Byte) : (s.writeFlagged x f b).fb = s.fb := rfl
@[simp] theorem State.writeFlagged_key (x : Reg) (f b : Byte) : (s.writeFlagged x f b).key = s.key := rfl
@[simp] theorem State.writeFlagged_dt (x : Reg) (f b : Byte) : (s.writeFlagged x f b).dt = s.dt := rfl
@[simp] theorem State.writeFlagged_st (x : Reg) (f b : Byte) : (s.writeFlagged x f b).st = s.st := rfl
@[simp] theorem State.writeFlagged_redraw (x : Reg) (f b : Byte) : (s.writeFlagged x f b).redraw = s.redraw := rfl
@[simp] theorem State.writeFlagged_mode (x : Reg) (f b : Byte) : (s.writeFlagged x f b).mode = s.mode := rfl
@[simp] theorem State.writeFlagged_draws (x : Reg) (f b : Byte) : (s.writeFlagged x f b).draws = s.draws := rfl
@[simp] theorem State.writeFlagged_config (x : Reg) (f b : Byte) : (s.writeFlagged x f b).config = s.config := rfl
@[simp] theorem State.byteAt_writeFlagged (x : Reg) (f b : Byte) (z : Nat) : (s.writeFlagged x f b).byteAt z = s.byteAt z := rfl
@[simp] theorem State.fetch_writeFlagged (x : Reg) (f b : Byte) : (s.writeFlagged x f b).fetch = s.fetch := rfl

/-! `State.setByte` -/

@[simp] theorem State.setByte_v (a : Nat) (b : Byte) : (s.setByte a b).v = s.v := rfl
@[simp] theorem State.setByte_i (a : Nat) (b : Byte) : (s.setByte a b).i = s.i := rfl
@[simp] theorem State.setByte_pc (a : Nat) (b : Byte) : (s.setByte a b).pc = s.pc := rfl
@[simp] theorem State.setByte_sp (a : Nat) (b : Byte) : (s.setByte a b).sp = s.sp := rfl
@[simp] theorem State.setByte_stack (a : Nat) (b : Byte) : (s.setByte a b).stack = s.stack := rfl
@[simp] theorem State.setByte_mem (a : Nat) (b : Byte) : (s.setByte a b).mem = Memory.write s.config s.mem a b := rfl
@[simp] theorem State.setByte_fb (a : Nat) (b : Byte) : (s.setByte a b).fb = s.fb := rfl
@[simp] theorem State.setByte_key (a : Nat) (b : Byte) : (s.setByte a b).key = s.key := rfl
@[simp] theorem State.setByte_dt (a : Nat) (b : Byte) : (s.setByte a b).dt = s.dt := rfl
@[simp] theorem State.setByte_st (a : Nat) (b : Byte) : (s.setByte a b).st = s.st := rfl
@[simp] theorem State.setByte_redraw (a : Nat) (b : Byte) : (s.setByte a b).redraw = s.redraw := rfl
@[simp] theorem State.setByte_mode (a : Nat) (b : Byte) : (s.setByte a b).mode = s.mode := rfl
@[simp] theorem State.setByte_draws (a : Nat) (b : Byte) : (s.setByte a b).draws = s.draws := rfl
@[simp] theorem State.setByte_config (a : Nat) (b : Byte) : (s.setByte a b).config = s.config := rfl
@[simp] theorem State.reg_setByte (a : Nat) (b : Byte) (z : Reg) : (s.setByte a b).reg z = s.reg z := rfl

/-! `State.skipIf` -/

@[simp] theorem State.skipIf_v (c : Bool) : (s.skipIf c).v = s.v := by cases c <;> rfl
@[simp] theorem State.skipIf_i (c : Bool) : (s.skipIf c).i = s.i := by cases c <;> rfl
@[simp] theorem State.skipIf_pc (c : Bool) : (s.skipIf c).pc = s.pc + (if c then 4 else 2) := by
  cases c <;> rfl
@[simp] theorem State.skipIf_sp (c : Bool) : (s.skipIf c).sp = s.sp := by cases c <;> rfl
@[simp] theorem State.skipIf_stack (c : Bool) : (s.skipIf c).stack = s.stack := by cases c <;> rfl
@[simp] theorem State.skipIf_mem (c : Bool) : (s.skipIf c).mem = s.mem := by cases c <;> rfl
@[simp] theorem State.skipIf_fb (c : Bool) : (s.skipIf c).fb = s.fb := by cases c <;> rfl
@[simp] theorem State.skipIf_key (c : Bool) : (s.skipIf c).key = s.key := by cases c <;> rfl
@[simp] theorem State.skipIf_dt (c : Bool) : (s.skipIf c).dt = s.dt := by cases c <;> rfl
@[simp] theorem State.skipIf_st (c : Bool) : (s.skipIf c).st = s.st := by cases c <;> rfl
@[simp] theorem State.skipIf_redraw (c : Bool) : (s.skipIf c).redraw = s.redraw := by cases c <;> rfl
@[simp] theorem State.skipIf_mode (c : Bool) : (s.skipIf c).mode = s.mode := by cases c <;> rfl
@[simp] theorem State.skipIf_draws (c : Bool) : (s.skipIf c).draws = s.draws := by cases c <;> rfl
@[simp] theorem State.skipIf_config (c : Bool) : (s.skipIf c).config = s.config := by cases c <;> rfl
@[simp] theorem State.reg_skipIf (c : Bool) (z : Reg) : (s.skipIf c).reg z = s.reg z := by cases c <;> rfl
@[simp] theorem State.byteAt_skipIf (c : Bool) (z : Nat) : (s.skipIf c).byteAt z = s.byteAt z := by cases c <;> rfl

/-! Reads of the registers an update writes -/

theorem State.reg_setReg (x : Reg) (b : Byte) (z : Reg) : (s.setReg x b).reg z = if z = x then b else s.reg z := by
  simp only [State.reg, State.setReg, Fin.getElem_fin, Vector.getElem_set, Fin.ext_iff, eq_comm]

@[simp] theorem State.reg_setReg_same (x : Reg) (b : Byte) : (s.setReg x b).reg x = b := by simp [State.reg_setReg]

theorem State.reg_setReg_other {x z : Reg} (h : z ≠ x) (b : Byte) : (s.setReg x b).reg z = s.reg z := by
  simp [State.reg_setReg, h]

/-- The result is written last: it is what VX holds (R14). -/
@[simp] theorem State.reg_writeFlagged_dest (x : Reg) (f b : Byte) : (s.writeFlagged x f b).reg x = b := by
  simp [State.writeFlagged]

/-- With `x` other than VF, VF holds the flag (R140). -/
theorem State.reg_writeFlagged_vf {x : Reg} (h : x ≠ vf) (f b : Byte) : (s.writeFlagged x f b).reg vf = f := by
  simp [State.writeFlagged, State.reg_setReg, h.symm]

theorem State.reg_writeFlagged_other {x z : Reg} (hx : z ≠ x) (hf : z ≠ vf) (f b : Byte) :
    (s.writeFlagged x f b).reg z = s.reg z := by
  simp [State.writeFlagged, State.reg_setReg, hx, hf]

/-- Two states are equal when every field is. -/
theorem State.ext_fields {s t : State} (hv : ∀ x, s.reg x = t.reg x) (hi : s.i = t.i) (hpc : s.pc = t.pc) (hsp : s.sp = t.sp)
    (hstack : s.stack = t.stack) (hmem : s.mem = t.mem) (hfb : s.fb = t.fb) (hkey : s.key = t.key) (hdt : s.dt = t.dt)
    (hst : s.st = t.st) (hr : s.redraw = t.redraw) (hm : s.mode = t.mode) (hd : s.draws = t.draws)
    (hc : s.config = t.config) : s = t := by
  have hv' : s.v = t.v := Vector.ext fun k hk => hv ⟨k, hk⟩
  cases s; cases t; simp_all

end Sys2Proof.Machine
end

