-- ==== Sys2Proof/Laws/Memory.lean ====
section
/-! SUPPORT. The laws of memory: a read after a write, in every memory; the canonical form is kept by every write; memories in
canonical form that read the same are equal. -/

namespace Sys2Proof.Machine

/-! ### A read after a write -/

theorem Memory.lookup_insert (a : Nat) (v : Byte) (m : Memory) (z : Nat) :
    Memory.lookup (Memory.insert a v m) z = if z = a then some v else Memory.lookup m z := by
  induction m with
  | nil => simp [Memory.insert, Memory.lookup]
  | cons c m ih =>
    obtain ⟨b, w⟩ := c
    simp only [Memory.insert]
    split
    · simp only [Memory.lookup]
    · split
      · subst_vars; simp only [Memory.lookup]; split <;> rfl
      · simp only [Memory.lookup, ih]
        split
        · split
          · omega
          · rfl
        · rfl

theorem Memory.lookup_erase (a : Nat) (m : Memory) (z : Nat) :
    Memory.lookup (Memory.erase a m) z = if z = a then none else Memory.lookup m z := by
  induction m with
  | nil => simp [Memory.erase, Memory.lookup]
  | cons c m ih =>
    obtain ⟨b, w⟩ := c
    simp only [Memory.erase]
    split
    · subst_vars; rw [ih]; simp only [Memory.lookup]; split <;> rfl
    · simp only [Memory.lookup, ih]
      split
      · split
        · omega
        · rfl
      · rfl

/-- A read after a write to the same place gives the value written, and a write leaves every other place alone (R45). -/
theorem Memory.read_write (c : Config) (m : Memory) (a : Nat) (v : Byte) (z : Nat) :
    Memory.read c (Memory.write c m a v) z = if z = a then v else Memory.read c m z := by
  simp only [Memory.read, Memory.write]
  split
  · rw [Memory.lookup_erase]
    split
    · subst_vars; rfl
    · rfl
  · rw [Memory.lookup_insert]
    split <;> rfl

theorem State.byteAt_setByte (s : State) (a : Nat) (v : Byte) (z : Nat) :
    (s.setByte a v).byteAt z = if z = a then v else s.byteAt z := by
  simp only [State.byteAt, State.setByte_config, State.setByte_mem, Memory.read_write]

@[simp] theorem State.byteAt_setByte_same (s : State) (a : Nat) (v : Byte) : (s.setByte a v).byteAt a = v := by
  simp [State.byteAt_setByte]

theorem State.byteAt_setByte_other (s : State) {a z : Nat} (h : z ≠ a) (v : Byte) :
    (s.setByte a v).byteAt z = s.byteAt z := by
  simp [State.byteAt_setByte, h]

/-! ### The canonical form -/

theorem Memory.wfFrom_cons (c : Config) (lo a : Nat) (v : Byte) (m : Memory) :
    Memory.wfFrom c lo ((a, v) :: m) = true ↔
      lo ≤ a ∧ a < 4096 ∧ v ≠ resetByte c a ∧ Memory.wfFrom c (a + 1) m = true := by
  simp [Memory.wfFrom, and_assoc]

theorem Memory.wfFrom_mono {c : Config} {lo lo' : Nat} {m : Memory} (h : Memory.wfFrom c lo' m = true) (hle : lo ≤ lo') :
    Memory.wfFrom c lo m = true := by
  cases m with
  | nil => rfl
  | cons d m =>
    obtain ⟨a, v⟩ := d
    rw [Memory.wfFrom_cons] at h ⊢
    exact ⟨by omega, h.2⟩

theorem Memory.wfFrom_insert {c : Config} {a : Nat} {v : Byte} (ha : a < 4096) (hv : v ≠ resetByte c a) :
    ∀ {lo : Nat} {m : Memory}, lo ≤ a → Memory.wfFrom c lo m = true → Memory.wfFrom c lo (Memory.insert a v m) = true
  | lo, [], hlo, _ => by simp [Memory.insert, Memory.wfFrom, hlo, ha, hv]
  | lo, (b, w) :: m, hlo, h => by
    have hb := (Memory.wfFrom_cons c lo b w m).1 h
    simp only [Memory.insert]
    split
    · exact (Memory.wfFrom_cons ..).2 ⟨hlo, ha, hv, (Memory.wfFrom_cons ..).2 ⟨by omega, hb.2⟩⟩
    · split
      · subst_vars; exact (Memory.wfFrom_cons ..).2 ⟨hlo, ha, hv, hb.2.2.2⟩
      · exact (Memory.wfFrom_cons ..).2 ⟨hb.1, hb.2.1, hb.2.2.1, Memory.wfFrom_insert ha hv (by omega) hb.2.2.2⟩

theorem Memory.wfFrom_erase {c : Config} (a : Nat) :
    ∀ {lo : Nat} {m : Memory}, Memory.wfFrom c lo m = true → Memory.wfFrom c lo (Memory.erase a m) = true
  | _, [], _ => rfl
  | lo, (b, w) :: m, h => by
    have hb := (Memory.wfFrom_cons c lo b w m).1 h
    simp only [Memory.erase]
    split
    · exact Memory.wfFrom_mono (Memory.wfFrom_erase a hb.2.2.2) (by omega)
    · exact (Memory.wfFrom_cons ..).2 ⟨hb.1, hb.2.1, hb.2.2.1, Memory.wfFrom_erase a hb.2.2.2⟩

/-- Every write inside MEM keeps the canonical form. -/
theorem Memory.wf_write {c : Config} {m : Memory} {a : Nat} (ha : a < 4096) (v : Byte) (h : Memory.wf c m = true) :
    Memory.wf c (Memory.write c m a v) = true := by
  unfold Memory.write
  split
  · exact Memory.wfFrom_erase a h
  · exact Memory.wfFrom_insert ha ‹_› (Nat.zero_le a) h

/-- The memory after a reset has it. -/
theorem State.wf_resetWith (c : Config) : Memory.wf c (State.resetWith c).mem = true := rfl

theorem Memory.lookup_below {c : Config} {a : Nat} :
    ∀ {lo : Nat} {m : Memory}, Memory.wfFrom c lo m = true → a < lo → Memory.lookup m a = none
  | _, [], _, _ => rfl
  | lo, (b, w) :: m, h, hlt => by
    have hb := (Memory.wfFrom_cons c lo b w m).1 h
    have : a ≠ b := by omega
    simp only [Memory.lookup, this, if_false]
    exact Memory.lookup_below hb.2.2.2 (by omega)

theorem Memory.read_cons_head (c : Config) (a : Nat) (v : Byte) (m : Memory) : Memory.read c ((a, v) :: m) a = v := by
  simp [Memory.read, Memory.lookup]

theorem Memory.read_below {c : Config} {lo a : Nat} {m : Memory} (h : Memory.wfFrom c lo m = true) (hlt : a < lo) :
    Memory.read c m a = resetByte c a := by
  simp [Memory.read, Memory.lookup_below h hlt]

/-- Equal memories are equal data: canonical lists that read the same at every address are the same list. -/
theorem Memory.wfFrom_ext {c : Config} :
    ∀ {lo lo' : Nat} {m m' : Memory}, Memory.wfFrom c lo m = true → Memory.wfFrom c lo' m' = true →
      (∀ a, Memory.read c m a = Memory.read c m' a) → m = m'
  | _, _, [], [], _, _, _ => rfl
  | _, lo', [], (b, w) :: m', _, h', e => by
    have hb := (Memory.wfFrom_cons c lo' b w m').1 h'
    have := e b
    rw [Memory.read_cons_head] at this
    exact absurd this.symm hb.2.2.1
  | lo, _, (a, v) :: m, [], h, _, e => by
    have ha := (Memory.wfFrom_cons c lo a v m).1 h
    have := e a
    rw [Memory.read_cons_head] at this
    exact absurd this ha.2.2.1
  | lo, lo', (a, v) :: m, (b, w) :: m', h, h', e => by
    have ha := (Memory.wfFrom_cons c lo a v m).1 h
    have hb := (Memory.wfFrom_cons c lo' b w m').1 h'
    have hab : a = b := by
      rcases Nat.lt_trichotomy a b with hlt | heq | hgt
      · have := e a
        rw [Memory.read_cons_head, Memory.read_below (lo := b) ((Memory.wfFrom_cons ..).2 ⟨le_refl b, hb.2⟩) hlt] at this
        exact absurd this ha.2.2.1
      · exact heq
      · have := e b
        rw [Memory.read_cons_head, Memory.read_below (lo := a) ((Memory.wfFrom_cons ..).2 ⟨le_refl a, ha.2⟩) hgt] at this
        exact absurd this.symm hb.2.2.1
    subst hab
    have hvw : v = w := by simpa [Memory.read_cons_head] using e a
    subst hvw
    have : m = m' := Memory.wfFrom_ext ha.2.2.2 hb.2.2.2 fun z => by
      by_cases hz : z = a
      · subst hz
        rw [Memory.read_below ha.2.2.2 (Nat.lt_succ_self z), Memory.read_below hb.2.2.2 (Nat.lt_succ_self z)]
      · simpa [Memory.read, Memory.lookup, hz] using e z
    rw [this]

theorem State.mem_eq_of_byteAt {s t : State} (hc : s.config = t.config) (hs : Memory.wf s.config s.mem = true)
    (ht : Memory.wf t.config t.mem = true) (e : ∀ a, s.byteAt a = t.byteAt a) : s.mem = t.mem := by
  refine Memory.wfFrom_ext (c := s.config) hs (by rw [hc]; exact ht) fun a => ?_
  have := e a
  simpa [State.byteAt, ← hc] using this

end Sys2Proof.Machine
end

