-- ==== Sys2Proof/Laws/Ops.lean ====
section
/-! SUPPORT. For each shared operation, one lemma that says everything it can do. -/

namespace Sys2Proof.Machine

/-! ### Taking a fault -/

@[simp] theorem commit_ok (s t : State) : commit s (.ok t) = .next t := rfl
@[simp] theorem commit_error (s : State) (r : Raise) : commit s (.error r) = .next (s.halt r.cause) := rfl

/-- An instruction's end is a next state in either case: its effect, or its fault taken in the state before it (R224). -/
theorem commit_cases (s : State) (e : Except Raise State) :
    (∃ t, e = .ok t ∧ commit s e = .next t) ∨ (∃ r, e = .error r ∧ commit s e = .next (s.halt r.cause)) := by
  cases e with
  | ok t => exact .inl ⟨t, rfl, rfl⟩
  | error r => exact .inr ⟨r, rfl, rfl⟩

/-! ### Memory accesses -/

theorem State.memRead_ok {s : State} {a : Nat} (h : a < 4096) : s.memRead a = .ok (s.byteAt a) := by
  simp [State.memRead, memSize, h]

theorem State.memRead_error {s : State} {a : Nat} (h : 4096 ≤ a) : s.memRead a = .error (outOfRange a) := by
  simp [State.memRead, memSize, Nat.not_lt.2 h]

theorem State.memWrite_ok {s : State} {a : Nat} (h : a < 4096) (v : Byte) : s.memWrite a v = .ok (s.setByte a v) := by
  simp [State.memWrite, memSize, h]

theorem State.memWrite_error {s : State} {a : Nat} (h : 4096 ≤ a) (v : Byte) :
    s.memWrite a v = .error (outOfRange a) := by
  simp [State.memWrite, memSize, Nat.not_lt.2 h]

/-- A fetch succeeds exactly when `PC <= 4094` (R42). -/
theorem State.fetch_ok {s : State} (h : s.pc.toNat ≤ 4094) :
    s.fetch = .ok (wordOfBytes (s.byteAt s.pc.toNat) (s.byteAt (s.pc.toNat + 1))) := by
  simp [State.fetch, State.memRead2, memSize, show s.pc.toNat + 1 < 4096 by omega]

theorem State.fetch_error {s : State} (h : 4095 ≤ s.pc.toNat) : s.fetch = .error (outOfRange s.pc.toNat) := by
  simp [State.fetch, State.memRead2, memSize, show ¬ s.pc.toNat + 1 < 4096 by omega]

theorem State.pc_of_fetch_ok {s : State} {op : Word} (h : s.fetch = .ok op) : s.pc.toNat ≤ 4094 := by
  by_contra hn
  rw [State.fetch_error (by omega)] at h
  cases h

/-- Memory after successive bytes are written from `a` up. -/
def Memory.writeAll (c : Config) : List Byte → Nat → Memory → Memory
  | [], _, m => m
  | b :: bs, a, m => Memory.writeAll c bs (a + 1) (Memory.write c m a b)

/-- Written bytes read back, and every other address reads as before. -/
theorem State.byteAt_writeAll : ∀ (bs : List Byte) (a : Nat) (s : State),
    (∀ k (h : k < bs.length), (s.setMem (Memory.writeAll s.config bs a s.mem)).byteAt (a + k) = bs[k]) ∧
      ∀ z, z < a ∨ a + bs.length ≤ z → (s.setMem (Memory.writeAll s.config bs a s.mem)).byteAt z = s.byteAt z
  | [], _, _ => ⟨fun k h => absurd h (Nat.not_lt_zero k), fun _ _ => rfl⟩
  | b :: bs, a, s => by
    obtain ⟨hin, hout⟩ := State.byteAt_writeAll bs (a + 1) (s.setByte a b)
    have hlen : (b :: bs).length = bs.length + 1 := rfl
    refine ⟨fun k hk => ?_, fun z hz => ?_⟩
    · cases k with
      | zero => exact (hout a (.inl (Nat.lt_succ_self a))).trans (State.byteAt_setByte_same s a b)
      | succ k =>
        rw [show a + (k + 1) = a + 1 + k by omega]
        exact hin k (by omega)
    · exact (hout z (by omega)).trans (State.byteAt_setByte_other s (by omega) b)

/-- Writes inside MEM keep the canonical form. -/
theorem Memory.wf_writeAll {c : Config} : ∀ (bs : List Byte) {a : Nat} {m : Memory}, a + bs.length ≤ 4096 →
    Memory.wf c m = true → Memory.wf c (Memory.writeAll c bs a m) = true
  | [], _, _, _, h => h
  | b :: bs, a, m, hle, h => by
    have hlen : (b :: bs).length = bs.length + 1 := rfl
    exact Memory.wf_writeAll bs (by omega) (Memory.wf_write (show a < 4096 by omega) b h)

/-- Stores that fit write their bytes and change nothing but memory. -/
theorem State.storeBytes_ok : ∀ (bs : List Byte) (a : Nat) (s : State), a + bs.length ≤ 4096 →
    State.storeBytes bs a s = .ok (s.setMem (Memory.writeAll s.config bs a s.mem))
  | [], _, _, _ => rfl
  | b :: bs, a, s, h => by
    have hlen : (b :: bs).length = bs.length + 1 := rfl
    simp only [State.storeBytes, State.memWrite_ok (show a < 4096 by omega)]
    exact State.storeBytes_ok bs (a + 1) (s.setByte a b) (by omega)

/-- Stores that run past the end of memory raise at the first address outside it. -/
theorem State.storeBytes_error : ∀ (bs : List Byte) (a : Nat) (s : State), bs ≠ [] → 4096 < a + bs.length →
    State.storeBytes bs a s = .error (outOfRange (max a 4096))
  | [], _, _, h, _ => absurd rfl h
  | b :: bs, a, s, _, h => by
    by_cases ha : a < 4096
    · have hlen : (b :: bs).length = bs.length + 1 := rfl
      have hne : bs ≠ [] := by rintro rfl; rw [List.length_nil] at hlen; omega
      simp only [State.storeBytes, State.memWrite_ok ha]
      rw [State.storeBytes_error bs (a + 1) _ hne (by omega), max_eq_right (by omega : a + 1 ≤ 4096),
        max_eq_right (by omega : a ≤ 4096)]
    · simp only [State.storeBytes, State.memWrite_error (Nat.not_lt.1 ha)]
      rw [max_eq_left (Nat.not_lt.1 ha)]

/-- The registers after the listed ones are loaded through a read of memory. -/
def regsAfter (rd : Nat → Byte) (base : Nat) : List Reg → Vector Byte 16 → Vector Byte 16
  | [], v => v
  | x :: xs, v => regsAfter rd base xs (v.set x (rd (base + x.val)))

/-- Loads that fit write the listed registers and change nothing else. -/
theorem State.loadRegs_ok (base : Nat) : ∀ (xs : List Reg) (s : State), (∀ x ∈ xs, base + x.val < 4096) →
    State.loadRegs base xs s = .ok (s.setRegs (regsAfter s.byteAt base xs s.v))
  | [], _, _ => rfl
  | x :: xs, s, h => by
    simp only [State.loadRegs, State.memRead_ok (h x List.mem_cons_self)]
    exact State.loadRegs_ok base xs (s.setReg x (s.byteAt (base + x.val))) fun y hy => h y (List.mem_cons_of_mem x hy)

/-- A listed register holds its byte of memory, any other its old value. -/
theorem regsAfter_getElem (rd : Nat → Byte) (base : Nat) : ∀ (xs : List Reg) (v : Vector Byte 16) (z : Reg),
    (regsAfter rd base xs v)[z] = if z ∈ xs then rd (base + z.val) else v[z]
  | [], _, _ => by simp [regsAfter]
  | x :: xs, v, z => by
    have e : (v.set x (rd (base + x.val)))[z] = if z = x then rd (base + x.val) else v[z] := by
      simp only [Fin.getElem_fin, Vector.getElem_set, Fin.ext_iff, eq_comm]
    rw [regsAfter, regsAfter_getElem rd base xs, e]
    by_cases h1 : z ∈ xs <;> by_cases h2 : z = x <;> simp [h1, h2]

/-- Loads that run past the end of memory raise at the first address outside it. -/
theorem State.loadRegs_error (base : Nat) : ∀ (xs : List Reg) (k n : Nat) (s : State),
    xs.map Fin.val = List.range' k n → n ≠ 0 → 4096 < base + k + n →
    State.loadRegs base xs s = .error (outOfRange (max (base + k) 4096))
  | [], k, n, _, hm, hn, _ => by
    cases n with
    | zero => exact absurd rfl hn
    | succ n => simp [List.range'_succ] at hm
  | x :: xs, k, n, s, hm, hn, h => by
    cases n with
    | zero => exact absurd rfl hn
    | succ n =>
      rw [List.map_cons, List.range'_succ, List.cons.injEq] at hm
      by_cases hx : base + k < 4096
      · simp only [State.loadRegs, hm.1, State.memRead_ok hx]
        rw [State.loadRegs_error base xs (k + 1) n _ hm.2 (by omega) (by omega), max_eq_right (by omega : base + k ≤ 4096),
          max_eq_right (by omega : base + (k + 1) ≤ 4096)]
      · simp only [State.loadRegs, hm.1, State.memRead_error (Nat.not_lt.1 hx)]
        rw [max_eq_left (Nat.not_lt.1 hx)]

theorem mem_regsUpTo (x z : Reg) : z ∈ regsUpTo x ↔ z ≤ x := by revert x z; decide

theorem regsUpTo_vals (x : Reg) : (regsUpTo x).map Fin.val = List.range' 0 (x.val + 1) := by revert x; decide

@[simp] theorem length_regsUpTo (x : Reg) : (regsUpTo x).length = x.val + 1 := by revert x; decide

theorem regsUpTo_getElem (x : Reg) (k : Nat) (h : k < (regsUpTo x).length) :
    (regsUpTo x)[k] = ⟨k, by have := x.isLt; simp at h; omega⟩ := by
  apply Fin.ext
  have : ((regsUpTo x).map Fin.val)[k]'(by simpa using h) = k := by simp [regsUpTo_vals]
  simpa using this

@[simp] theorem State.length_regsValues (s : State) (x : Reg) : (s.regsValues x).length = x.val + 1 := by
  simp [State.regsValues]

theorem State.regsValues_getElem (s : State) (x : Reg) (k : Nat) (h : k < (s.regsValues x).length) :
    (s.regsValues x)[k] = s.reg ⟨k, by have := x.isLt; simp at h; omega⟩ := by
  simp [State.regsValues, regsUpTo_getElem]

/-! ### Framebuffer -/

theorem getLsbD_setColumn (row : BitVec 64) {c : Nat} (hc : c < 64) (b : Bool) (j : Nat) :
    (setColumn row c b).getLsbD j = if j = c then b else row.getLsbD j := by
  by_cases h : j = c
  · subst h
    cases b <;> simp [setColumn, hc]
  · by_cases hj : j < 64
    · cases b <;> by_cases h1 : j < c <;> simp [setColumn, h, h1, hj] <;> omega
    · have h64 : 64 ≤ j := Nat.not_lt.1 hj
      rw [BitVec.getLsbD_of_ge _ j h64, if_neg h, BitVec.getLsbD_of_ge _ j h64]

/-- Setting one pixel sets it and leaves every other pixel alone. -/
theorem pixel_setPixel (f : FrameBuffer) {i : Nat} (hi : i < 2048) (b : Bool) (j : Nat) :
    pixel (setPixel f i b) j = if j = i then b else pixel f j := by
  have h64 : i / 64 < 32 := by omega
  simp only [setPixel, h64, dif_pos, pixel]
  by_cases hj : j / 64 < 32
  · simp only [hj, dif_pos, Vector.getElem_set]
    by_cases hr : i / 64 = j / 64
    · simp only [hr, if_true]
      rw [getLsbD_setColumn _ (by omega)]
      by_cases hc : j % 64 = i % 64
      · have : j = i := by omega
        simp [this]
      · have : j ≠ i := by rintro rfl; exact hc rfl
        simp [this, hc]
    · have : j ≠ i := by rintro rfl; exact hr rfl
      simp [hr, this]
  · have : j ≠ i := by omega
    simp [hj, this]

@[simp] theorem pixel_blankScreen (i : Nat) : pixel blankScreen i = false := by
  simp only [pixel, blankScreen]
  split
  · simp
  · rfl

/-- Framebuffers with the same pixels are equal. -/
theorem frameBuffer_ext {f g : FrameBuffer} (h : ∀ i, i < 2048 → pixel f i = pixel g i) : f = g := by
  refine Vector.ext fun y hy => BitVec.eq_of_getLsbD_eq fun x hx => ?_
  have := h (y * 64 + x) (by omega)
  have e1 : (y * 64 + x) / 64 = y := by omega
  have e2 : (y * 64 + x) % 64 = x := by omega
  simpa [pixel, e1, e2, hy] using this

theorem State.fbRead_ok {s : State} {i : Nat} (h : i < 2048) : s.fbRead i = .ok (pixel s.fb i) := by
  simp [State.fbRead, fbSize, h]

theorem State.fbRead_error {s : State} {i : Nat} (h : 2048 ≤ i) : s.fbRead i = .error (outOfRange i) := by
  simp [State.fbRead, fbSize, Nat.not_lt.2 h]

theorem State.fbWrite_ok {s : State} {i : Nat} (h : i < 2048) (b : Bool) :
    s.fbWrite i b = .ok (s.setFb (setPixel s.fb i b)) := by
  simp [State.fbWrite, fbSize, h]

/-! ### Keys -/

theorem State.keyRead_ok {s : State} {k : Nat} (h : k < 16) : s.keyRead k = .ok (s.key.getLsbD k) := by
  simp [State.keyRead, numKeys, h]

theorem State.keyRead_error {s : State} {k : Nat} (h : 16 ≤ k) : s.keyRead k = .error (outOfRange k) := by
  simp [State.keyRead, numKeys, Nat.not_lt.2 h]

theorem mem_allRegs (z : Reg) : z ∈ allRegs := by revert z; decide

theorem sorted_allRegs : allRegs.Pairwise (· < ·) := by decide

/-- No key is pressed exactly when the scan finds none. -/
theorem lowestKey_none (keys : BitVec 16) : lowestKey keys = none ↔ ∀ k : Fin 16, keys.getLsbD k.val = false := by
  simp only [lowestKey, List.find?_eq_none, Bool.not_eq_true]
  exact ⟨fun h k => h k (mem_allRegs k), fun h k _ => h k⟩

theorem find?_first {l : List Reg} {p : Reg → Bool} (hs : l.Pairwise (· < ·)) {k : Reg} (h : l.find? p = some k) :
    p k = true ∧ ∀ j ∈ l, j < k → p j = false := by
  induction l with
  | nil => simp at h
  | cons a l ih =>
    rw [List.find?_cons] at h
    have hs' := List.pairwise_cons.1 hs
    split at h
    · cases h
      refine ⟨‹_›, fun j hj hlt => ?_⟩
      rcases List.mem_cons.1 hj with rfl | hj'
      · exact absurd hlt (lt_irrefl j)
      · exact absurd hlt (not_lt_of_gt (hs'.1 j hj'))
    · obtain ⟨h1, h2⟩ := ih hs'.2 h
      refine ⟨h1, fun j hj hlt => ?_⟩
      rcases List.mem_cons.1 hj with rfl | hj'
      · simpa using ‹p j = false›
      · exact h2 j hj' hlt

/-- The scan finds the least pressed key (R173). -/
theorem lowestKey_some {keys : BitVec 16} {k : Reg} (h : lowestKey keys = some k) :
    keys.getLsbD k.val = true ∧ ∀ j : Reg, j < k → keys.getLsbD j.val = false := by
  obtain ⟨h1, h2⟩ := find?_first sorted_allRegs h
  exact ⟨h1, fun j hj => h2 j (mem_allRegs j) hj⟩

theorem lowestKey_eq {keys : BitVec 16} {k : Reg} (h : keys.getLsbD k.val = true)
    (hmin : ∀ j : Reg, j < k → keys.getLsbD j.val = false) : lowestKey keys = some k := by
  cases hl : lowestKey keys with
  | none => rw [(lowestKey_none keys).1 hl k] at h; cases h
  | some j =>
    obtain ⟨h1, h2⟩ := lowestKey_some hl
    rcases lt_trichotomy j k with hlt | heq | hgt
    · rw [hmin j hlt] at h1; cases h1
    · rw [heq]
    · rw [h2 k hgt] at h; cases h

/-- Everything a poll can do (R173): a pressed key ends the wait, else nothing changes. -/
theorem State.pollKeys_cases (s : State) (x : Reg) :
    (∃ k, lowestKey s.key = some k ∧
      s.pollKeys x = ((s.setReg x (BitVec.ofNat 8 k.val)).advance 2).setMode .running) ∨
    (lowestKey s.key = none ∧ s.pollKeys x = s) := by
  simp only [State.pollKeys]
  cases h : lowestKey s.key with
  | none => exact .inr ⟨rfl, rfl⟩
  | some k => exact .inl ⟨k, rfl, rfl⟩

/-! ### Call stack -/

theorem State.push_ok {s : State} (h : s.sp.val < 16) (w : Word) :
    s.push w = .ok ((s.setStack ⟨s.sp.val, h⟩ w).setSp ⟨s.sp.val + 1, Nat.succ_lt_succ h⟩) := by
  simp [State.push, stackDepth, h]

theorem State.push_error {s : State} (h : s.sp.val = 16) (w : Word) :
    s.push w = .error { cause := .stackOverflow, info := s.pc.toNat } := by
  simp [State.push, stackDepth, h]

theorem State.pop_ok {s : State} (h : 0 < s.sp.val) :
    s.pop = .ok (s.stack[s.sp.val - 1]'(by have := s.sp.isLt; omega),
      s.setSp ⟨s.sp.val - 1, by have := s.sp.isLt; omega⟩) := by
  simp [State.pop, h]

theorem State.pop_error {s : State} (h : s.sp.val = 0) :
    s.pop = .error { cause := .stackUnderflow, info := s.pc.toNat } := by
  simp [State.pop, h]

/-! ### Host operations -/

/-- Placing bytes writes them to memory and changes nothing else. -/
theorem placeBytes_eq : ∀ (bs : List Byte) (a : Nat) (s : State),
    placeBytes bs a s = s.setMem (Memory.writeAll s.config bs a s.mem)
  | [], _, _ => rfl
  | b :: bs, a, s => placeBytes_eq bs (a + 1) (s.setByte a b)

theorem getLsbD_setKey (s : State) (k : Fin 16) (p : Bool) (j : Fin 16) :
    (setKey k p s).key.getLsbD j.val = if j = k then p else s.key.getLsbD j.val := by
  have hj := j.isLt
  by_cases h : j = k
  · subst h
    cases p <;> simp [setKey]
  · have hne : j.val ≠ k.val := fun e => h (Fin.ext e)
    cases p <;> by_cases h1 : j.val < k.val <;>
      simp [setKey, h, h1] <;> omega

end Sys2Proof.Machine
end

