-- ==== Sys2Proof/Laws/Draw.lean ====
section
/-! SUPPORT. What the loops of the sprite draw do (45_draw.md R160): a row draws the pixels of its set bits one after the other,
and drawing pixels that are all different toggles each of them. -/

namespace Sys2Proof.Machine

/-- The pixel indices of the set bits of a row, in the order of the columns listed. -/
def rowPixels (row : Byte) (x0 y0 r : Nat) (cs : List Nat) : List Nat :=
  (cs.filter (spriteBit row)).map (pixelIndex x0 y0 r)

/-- Draw pixels one after the other. -/
def drawAll : List Nat → State → Except Raise State
  | [], s => .ok s
  | p :: ps, s =>
    match drawPixel p s with
    | .ok t => drawAll ps t
    | .error e => .error e

theorem drawRow_eq (row : Byte) (x0 y0 r : Nat) : ∀ (cs : List Nat) (s : State),
    drawRow row x0 y0 r cs s = drawAll (rowPixels row x0 y0 r cs) s
  | [], _ => rfl
  | c :: cs, s => by
    cases h : spriteBit row c with
    | false =>
      simp only [drawRow, h, Bool.false_eq_true, if_false, rowPixels]
      rw [List.filter_cons_of_neg (by simp [h]), drawRow_eq row x0 y0 r cs s]
      rfl
    | true =>
      simp only [drawRow, h, if_true, rowPixels]
      rw [List.filter_cons_of_pos h, List.map_cons]
      simp only [drawAll]
      cases drawPixel (pixelIndex x0 y0 r c) s with
      | ok t => exact drawRow_eq row x0 y0 r cs t
      | error e => rfl

theorem drawAll_append : ∀ (ps qs : List Nat) (s : State),
    drawAll (ps ++ qs) s = match drawAll ps s with
      | .ok t => drawAll qs t
      | .error e => .error e
  | [], _, _ => rfl
  | p :: ps, qs, s => by
    simp only [List.cons_append, drawAll]
    cases drawPixel p s with
    | ok t => exact drawAll_append ps qs t
    | error e => rfl

/-- One set sprite bit inside the framebuffer (R160). -/
theorem drawPixel_ok (s : State) {p : Nat} (h : p < 2048) :
    drawPixel p s =
      .ok ((if pixel s.fb p then s.setReg vf 1 else s).setFb (setPixel s.fb p (!pixel s.fb p))) := by
  simp only [drawPixel, State.fbRead_ok h]
  cases pixel s.fb p <;> simp [State.fbWrite_ok h]

theorem drawPixel_error (s : State) {p : Nat} (h : 2048 ≤ p) : drawPixel p s = .error (outOfRange p) := by
  simp only [drawPixel, State.fbRead_error h]

/-- The framebuffer after pixels are toggled one after the other. -/
def toggleAll : List Nat → FrameBuffer → FrameBuffer
  | [], f => f
  | p :: ps, f => toggleAll ps (setPixel f p (!pixel f p))

/-- Toggling different pixels, all inside the framebuffer, toggles each and leaves every other pixel alone. -/
theorem pixel_toggleAll : ∀ (ps : List Nat) (f : FrameBuffer), ps.Nodup → (∀ p ∈ ps, p < 2048) → ∀ j,
    pixel (toggleAll ps f) j = (pixel f j != decide (j ∈ ps))
  | [], f, _, _, j => by simp [toggleAll]
  | p :: ps, f, hn, h, j => by
    have hps := List.nodup_cons.1 hn
    rw [toggleAll, pixel_toggleAll ps _ hps.2 (fun q hq => h q (List.mem_cons_of_mem p hq)),
      pixel_setPixel _ (h p List.mem_cons_self)]
    by_cases hj : j = p
    · subst hj; simp [hps.1]
    · simp [hj]

/-- Drawing different pixels, all inside the framebuffer: each is toggled, VF is raised exactly when one of them was 1, and
nothing else changes. -/
theorem drawAll_ok : ∀ (ps : List Nat) (s : State), ps.Nodup → (∀ p ∈ ps, p < 2048) →
    drawAll ps s = .ok ((if ps.any (pixel s.fb) then s.setReg vf 1 else s).setFb (toggleAll ps s.fb))
  | [], _, _, _ => rfl
  | p :: ps, s, hn, h => by
    have hp := h p List.mem_cons_self
    have hps := List.nodup_cons.1 hn
    have hother : ∀ q ∈ ps, pixel (setPixel s.fb p (!pixel s.fb p)) q = pixel s.fb q := fun q hq => by
      rw [pixel_setPixel _ hp, if_neg (by rintro rfl; exact hps.1 hq)]
    have hany : ps.any (pixel (setPixel s.fb p (!pixel s.fb p))) = ps.any (pixel s.fb) := by
      apply Bool.eq_iff_iff.2
      simp only [List.any_eq_true]
      exact ⟨fun ⟨q, hq, e⟩ => ⟨q, hq, by rwa [hother q hq] at e⟩, fun ⟨q, hq, e⟩ => ⟨q, hq, by rwa [hother q hq]⟩⟩
    simp only [drawAll, drawPixel_ok s hp]
    rw [drawAll_ok ps _ hps.2 fun q hq => h q (List.mem_cons_of_mem p hq)]
    simp only [State.setFb_fb, hany, List.any_cons]
    rw [toggleAll]
    by_cases h1 : pixel s.fb p = true <;> by_cases h2 : ps.any (pixel s.fb) = true <;>
      simp [h1, h2, State.setReg, State.setFb]

/-- Drawing pixels of which one lies outside the framebuffer raises AddressOutOfRange (R53). -/
theorem drawAll_error : ∀ (ps : List Nat) (s : State) (p : Nat), p ∈ ps → 2048 ≤ p →
    ∃ q ∈ ps, 2048 ≤ q ∧ drawAll ps s = .error (outOfRange q)
  | q :: ps, s, p, hp, hge => by
    by_cases hq : q < 2048
    · have hp' : p ∈ ps := by
        rcases List.mem_cons.1 hp with rfl | h
        · omega
        · exact h
      obtain ⟨q', hq', hge', he⟩ := drawAll_error ps
        ((if pixel s.fb q then s.setReg vf 1 else s).setFb (setPixel s.fb q (!pixel s.fb q))) p hp' hge
      exact ⟨q', List.mem_cons_of_mem q hq', hge', by simp only [drawAll, drawPixel_ok s hq, he]⟩
    · exact ⟨q, List.mem_cons_self, Nat.not_lt.1 hq, by simp only [drawAll, drawPixel_error s (Nat.not_lt.1 hq)]⟩

/-- A row draws different pixels, whatever its bits (R160, corner case 3). -/
theorem nodup_rowPixels (row : Byte) (x0 y0 r : Nat) : (rowPixels row x0 y0 r spriteColumns).Nodup := by
  refine List.Nodup.map (fun c d h => ?_) ((by decide : spriteColumns.Nodup).filter _)
  simp only [pixelIndex] at h
  omega

theorem mem_rowPixels (row : Byte) (x0 y0 r p : Nat) : p ∈ rowPixels row x0 y0 r spriteColumns ↔
    ∃ c, c < 8 ∧ row.getLsbD (7 - c) = true ∧ p = (y0 + r) * 64 + (x0 + c) := by
  have hc : ∀ c, c ∈ spriteColumns ↔ c < 8 := by intro c; simp [spriteColumns]; omega
  simp only [rowPixels, List.mem_map, List.mem_filter, hc, spriteBit, pixelIndex]
  constructor
  · rintro ⟨c, ⟨h1, h2⟩, rfl⟩; exact ⟨c, h1, h2, rfl⟩
  · rintro ⟨c, h1, h2, rfl⟩; exact ⟨c, ⟨h1, h2⟩, rfl⟩

/-- The pixel indices of the rows listed, each row's bits read at `I + r`, in the order R160 draws them. -/
def State.rowsPixels (s : State) (x0 y0 : Nat) (rs : List Nat) : List Nat :=
  rs.flatMap fun r => rowPixels (s.byteAt (s.effAddr r)) x0 y0 r spriteColumns

/-- The rows of a sprite are drawn over different pixels (R160, corner case 3). -/
theorem State.nodup_rowsPixels (s : State) (x0 y0 n : Nat) : (s.rowsPixels x0 y0 (List.range n)).Nodup := by
  rw [State.rowsPixels, List.nodup_flatMap]
  refine ⟨fun r _ => nodup_rowPixels _ _ _ _, List.Pairwise.imp (R := (· < ·)) (fun hab => ?_) List.pairwise_lt_range⟩
  intro p hp hq
  rw [mem_rowPixels] at hp hq
  obtain ⟨c, h1, _, rfl⟩ := hp
  obtain ⟨d, h3, _, h⟩ := hq
  omega

/-- The loop over the rows draws their pixels one after the other: no row is read from anything drawing writes. -/
theorem drawRows_ok (s₀ : State) (x0 y0 : Nat) : ∀ (rs : List Nat) (s : State), s.mem = s₀.mem → s.config = s₀.config →
    (∀ r ∈ rs, s₀.effAddr r < 4096) →
    drawRows (s₀.effAddr 0) x0 y0 rs s = drawAll (s₀.rowsPixels x0 y0 rs) s
  | [], _, _, _, _ => rfl
  | r :: rs, s, hm, hc, h => by
    have hb : s.byteAt (s₀.effAddr 0 + r) = s₀.byteAt (s₀.effAddr r) := by simp [State.byteAt, hm, hc, State.effAddr]
    have hr : s₀.effAddr 0 + r < 4096 := by simpa [State.effAddr] using h r List.mem_cons_self
    simp only [drawRows, State.memRead_ok hr, hb, drawRow_eq, State.rowsPixels, List.flatMap_cons, drawAll_append]
    by_cases hall : ∀ p ∈ rowPixels (s₀.byteAt (s₀.effAddr r)) x0 y0 r spriteColumns, p < 2048
    · rw [drawAll_ok _ s (nodup_rowPixels _ _ _ _) hall]
      exact drawRows_ok s₀ x0 y0 rs _ (by split <;> exact hm) (by split <;> exact hc)
        fun r hr => h r (List.mem_cons_of_mem _ hr)
    · obtain ⟨p, hp⟩ := not_forall.1 hall
      obtain ⟨hp, hge⟩ := Classical.not_imp.1 hp
      obtain ⟨q, _, _, he⟩ := drawAll_error _ s p hp (Nat.not_lt.1 hge)
      rw [he]

/-- When a row address or a pixel index is out of range, the loop raises AddressOutOfRange of such a one (R160). -/
theorem drawRows_error (s₀ : State) (x0 y0 : Nat) : ∀ (rs : List Nat) (s : State), s.mem = s₀.mem → s.config = s₀.config →
    (∃ r ∈ rs, 4096 ≤ s₀.effAddr r ∨
      ∃ p ∈ rowPixels (s₀.byteAt (s₀.effAddr r)) x0 y0 r spriteColumns, 2048 ≤ p) →
    ∃ r ∈ rs, ∃ a, drawRows (s₀.effAddr 0) x0 y0 rs s = .error (outOfRange a) ∧
      ((a = s₀.effAddr r ∧ 4096 ≤ a) ∨ (a ∈ rowPixels (s₀.byteAt (s₀.effAddr r)) x0 y0 r spriteColumns ∧ 2048 ≤ a))
  | [], _, _, _, h => by simp at h
  | r :: rs, s, hm, hc, h => by
    have hb : s.byteAt (s₀.effAddr r) = s₀.byteAt (s₀.effAddr r) := by simp [State.byteAt, hm, hc]
    have he : s₀.effAddr 0 + r = s₀.effAddr r := by simp [State.effAddr]
    by_cases hr : s₀.effAddr r < 4096
    · simp only [drawRows, he, State.memRead_ok hr, drawRow_eq, hb]
      by_cases hall : ∀ p ∈ rowPixels (s₀.byteAt (s₀.effAddr r)) x0 y0 r spriteColumns, p < 2048
      · rw [drawAll_ok _ s (nodup_rowPixels _ _ _ _) hall]
        obtain ⟨r', h1, a, h2, h3⟩ := drawRows_error s₀ x0 y0 rs
          ((if (rowPixels (s₀.byteAt (s₀.effAddr r)) x0 y0 r spriteColumns).any (pixel s.fb) then s.setReg vf 1 else s).setFb
            (toggleAll (rowPixels (s₀.byteAt (s₀.effAddr r)) x0 y0 r spriteColumns) s.fb))
          (by split <;> exact hm) (by split <;> exact hc) (by
            obtain ⟨r', hr', hh⟩ := h
            rcases List.mem_cons.1 hr' with rfl | hr'
            · rcases hh with hh | ⟨p, hp, hge⟩
              · omega
              · exact absurd (hall p hp) (Nat.not_lt.2 hge)
            · exact ⟨r', hr', hh⟩)
        exact ⟨r', List.mem_cons_of_mem _ h1, a, h2, h3⟩
      · obtain ⟨p, hp⟩ := not_forall.1 hall
        obtain ⟨hp, hge⟩ := Classical.not_imp.1 hp
        obtain ⟨q, hq, hge, he⟩ := drawAll_error _ s p hp (Nat.not_lt.1 hge)
        rw [he]
        exact ⟨r, List.mem_cons_self, q, rfl, .inr ⟨hq, hge⟩⟩
    · refine ⟨r, List.mem_cons_self, s₀.effAddr r, ?_, .inl ⟨rfl, Nat.not_lt.1 hr⟩⟩
      simp only [drawRows, he, State.memRead_error (Nat.not_lt.1 hr)]

end Sys2Proof.Machine
end

