-- ==== Sys2Proof/Laws/Effects.lean ====
section
/-! SUPPORT. For each instruction that can fault, what its effect is when it does not and what it raises when it does: the two
rows of R223 for it. -/

namespace Sys2Proof.Machine

/-! ### Return and call -/

theorem effectRet_ok {s : State} (h : 0 < s.sp.val) :
    effectRet s = .ok ((s.setSp ⟨s.sp.val - 1, by have := s.sp.isLt; omega⟩).setPc
      (s.stack[s.sp.val - 1]'(by have := s.sp.isLt; omega) + 2)) := by
  simp only [effectRet, State.pop_ok h]

theorem effectRet_error {s : State} (h : s.sp.val = 0) :
    effectRet s = .error { cause := .stackUnderflow, info := s.pc.toNat } := by
  simp only [effectRet, State.pop_error h]

theorem effectCallNnn_ok (nnn : Addr12) {s : State} (h : s.sp.val < 16) :
    effectCallNnn nnn s =
      .ok (((s.setStack ⟨s.sp.val, h⟩ s.pc).setSp ⟨s.sp.val + 1, Nat.succ_lt_succ h⟩).setPc (addrOf nnn)) := by
  simp only [effectCallNnn, State.push_ok h]

theorem effectCallNnn_error (nnn : Addr12) {s : State} (h : s.sp.val = 16) :
    effectCallNnn nnn s = .error { cause := .stackOverflow, info := s.pc.toNat } := by
  simp only [effectCallNnn, State.push_error h]

/-! ### Key skips and font address -/

theorem effectSkpVx_ok {x : Reg} {s : State} (h : (s.reg x).toNat < 16) :
    effectSkpVx x s = .ok (s.skipIf (s.key.getLsbD (s.reg x).toNat)) := by
  simp only [effectSkpVx, State.keyRead_ok h]

theorem effectSkpVx_error {x : Reg} {s : State} (h : 16 ≤ (s.reg x).toNat) :
    effectSkpVx x s = .error (outOfRange (s.reg x).toNat) := by
  simp only [effectSkpVx, State.keyRead_error h]

theorem effectSknpVx_ok {x : Reg} {s : State} (h : (s.reg x).toNat < 16) :
    effectSknpVx x s = .ok (s.skipIf (!s.key.getLsbD (s.reg x).toNat)) := by
  simp only [effectSknpVx, State.keyRead_ok h]

theorem effectSknpVx_error {x : Reg} {s : State} (h : 16 ≤ (s.reg x).toNat) :
    effectSknpVx x s = .error (outOfRange (s.reg x).toNat) := by
  simp only [effectSknpVx, State.keyRead_error h]

theorem effectLdFVx_ok {x : Reg} {s : State} (h : (s.reg x).toNat < 16) :
    effectLdFVx x s = .ok ((s.setI (BitVec.ofNat 16 ((s.reg x).toNat * 5))).advance 2) := by
  simp only [effectLdFVx, h, if_true]

theorem effectLdFVx_error {x : Reg} {s : State} (h : 16 ≤ (s.reg x).toNat) :
    effectLdFVx x s = .error (outOfRange (s.reg x).toNat) := by
  simp only [effectLdFVx, Nat.not_lt.2 h, if_false]

/-! ### Stores and loads at I -/

theorem effectLdBVx_ok {x : Reg} {s : State} (h : s.effAddr 2 < 4096) :
    effectLdBVx x s =
      .ok ((s.setMem (Memory.writeAll s.config (decimalDigits (s.reg x)) (s.effAddr 0) s.mem)).advance 2) := by
  simp only [effectLdBVx]
  rw [State.storeBytes_ok _ _ s (by simp only [State.effAddr, decimalDigits, List.length_cons, List.length_nil] at h ⊢; omega)]

theorem effectLdBVx_error {x : Reg} {s : State} (h : 4096 ≤ s.effAddr 2) :
    effectLdBVx x s = .error (outOfRange (max (s.effAddr 0) 4096)) := by
  simp only [effectLdBVx]
  rw [State.storeBytes_error _ _ s (by simp [decimalDigits])
    (by simp only [State.effAddr, decimalDigits, List.length_cons, List.length_nil] at h ⊢; omega)]

theorem effectLdMemVx_ok {x : Reg} {s : State} (h : s.effAddr x.val < 4096) :
    effectLdMemVx x s =
      .ok (((s.setMem (Memory.writeAll s.config (s.regsValues x) (s.effAddr 0) s.mem)).setI
        (BitVec.ofNat 16 (s.effAddr (x.val + 1)))).advance 2) := by
  simp only [effectLdMemVx]
  rw [State.storeBytes_ok _ _ s (by rw [State.length_regsValues]; simp only [State.effAddr] at h ⊢; omega)]

theorem effectLdMemVx_error {x : Reg} {s : State} (h : 4096 ≤ s.effAddr x.val) :
    effectLdMemVx x s = .error (outOfRange (max (s.effAddr 0) 4096)) := by
  simp only [effectLdMemVx]
  rw [State.storeBytes_error _ _ s (List.ne_nil_of_length_pos (by rw [State.length_regsValues]; omega))
    (by rw [State.length_regsValues]; simp only [State.effAddr] at h ⊢; omega)]

theorem effectLdVxMem_ok {x : Reg} {s : State} (h : s.effAddr x.val < 4096) :
    effectLdVxMem x s =
      .ok (((s.setRegs (regsAfter s.byteAt (s.effAddr 0) (regsUpTo x) s.v)).setI
        (BitVec.ofNat 16 (s.effAddr (x.val + 1)))).advance 2) := by
  simp only [effectLdVxMem]
  rw [State.loadRegs_ok _ _ s fun z hz => by
    have := Fin.le_def.1 ((mem_regsUpTo x z).1 hz)
    simp only [State.effAddr] at h ⊢; omega]

theorem effectLdVxMem_error {x : Reg} {s : State} (h : 4096 ≤ s.effAddr x.val) :
    effectLdVxMem x s = .error (outOfRange (max (s.effAddr 0) 4096)) := by
  simp only [effectLdVxMem]
  rw [State.loadRegs_error (s.effAddr 0) (regsUpTo x) 0 (x.val + 1) s (regsUpTo_vals x) (Nat.succ_ne_zero _)
    (by simp only [State.effAddr] at h ⊢; omega)]
  rfl

/-! ### Draw -/

/-- The pixel indices of a sprite, in the order R160 draws them. -/
def State.spritePixels (s : State) (x y : Reg) (n : Nibble) : List Nat :=
  s.rowsPixels (s.reg x).toNat (s.reg y).toNat (List.range n.toNat)

theorem State.nodup_spritePixels (s : State) (x y : Reg) (n : Nibble) : (s.spritePixels x y n).Nodup :=
  s.nodup_rowsPixels _ _ _

/-- They are the set `S` of R162. -/
theorem State.mem_spritePixels (s : State) (x y : Reg) (n : Nibble) (p : Nat) :
    p ∈ s.spritePixels x y n ↔ SpritePixel s x y n p := by
  simp only [State.spritePixels, State.rowsPixels, List.mem_flatMap, List.mem_range, mem_rowPixels, SpritePixel]
  exact ⟨fun ⟨r, hr, c, h⟩ => ⟨r, c, hr, h⟩, fun ⟨r, c, hr, h⟩ => ⟨r, hr, c, h⟩⟩

/-- Each pixel of the sprite is toggled and no other. -/
theorem State.pixel_toggleSprite {s : State} {x y : Reg} {n : Nibble} (h : SpriteFits s x y n) (p : Nat) :
    (SpritePixel s x y n p → pixel (toggleAll (s.spritePixels x y n) s.fb) p = !pixel s.fb p) ∧
      (¬ SpritePixel s x y n p → pixel (toggleAll (s.spritePixels x y n) s.fb) p = pixel s.fb p) := by
  rw [pixel_toggleAll _ _ (s.nodup_spritePixels x y n) (fun q hq => h.2 q ((s.mem_spritePixels x y n q).1 hq)),
    ← State.mem_spritePixels]
  exact ⟨fun hp => by simp [hp], fun hp => by simp [hp]⟩

theorem effectDrwVxVyN_ok {s : State} {x y : Reg} {n : Nibble} (h : SpriteFits s x y n) :
    effectDrwVxVyN x y n s =
      .ok ((((s.setReg vf (flagByte ((s.spritePixels x y n).any (pixel s.fb)))).setFb
        (toggleAll (s.spritePixels x y n) s.fb)).setRedraw true).advance 2) := by
  simp only [effectDrwVxVyN]
  rw [drawRows_ok s _ _ _ (s.setReg vf 0) rfl rfl fun r hr => h.1 r (List.mem_range.1 hr),
    drawAll_ok _ _ (s.nodup_rowsPixels _ _ _) fun p hp => h.2 p ((s.mem_spritePixels x y n p).1 hp)]
  cases hc : (s.spritePixels x y n).any (pixel s.fb) <;>
    simp only [State.spritePixels] at hc <;>
    simp [hc, State.spritePixels, flagByte, State.setReg, State.setFb]

theorem effectDrwVxVyN_error {s : State} {x y : Reg} {n : Nibble} (h : ¬ SpriteFits s x y n) :
    ∃ a, effectDrwVxVyN x y n s = .error (outOfRange a) ∧
      ((∃ r, r < n.toNat ∧ a = s.effAddr r ∧ 4096 ≤ a) ∨ (SpritePixel s x y n a ∧ 2048 ≤ a)) := by
  obtain ⟨r, hr, a, he, hh⟩ := drawRows_error s (s.reg x).toNat (s.reg y).toNat (List.range n.toNat) (s.setReg vf 0) rfl rfl (by
    by_contra hn
    refine h ⟨fun r hr => Nat.lt_of_not_le fun hge => hn ⟨r, List.mem_range.2 hr, .inl hge⟩, fun p hp => ?_⟩
    obtain ⟨r, hr, hmem⟩ := List.mem_flatMap.1 ((s.mem_spritePixels x y n p).2 hp)
    exact Nat.lt_of_not_le fun hge => hn ⟨r, hr, .inr ⟨p, hmem, hge⟩⟩)
  refine ⟨a, by simp only [effectDrwVxVyN]; rw [he], ?_⟩
  rcases hh with ⟨h1, h2⟩ | ⟨h1, h2⟩
  · exact .inl ⟨r, List.mem_range.1 hr, h1, h2⟩
  · exact .inr ⟨(s.mem_spritePixels x y n a).1 (List.mem_flatMap.2 ⟨r, hr, h1⟩), h2⟩

end Sys2Proof.Machine
end

