-- ==== Sys2Proof/Laws/PerInstr.lean ====
section
/-! SUPPORT. The per-instruction family `Row`: an instruction's word is a word of its own row of the opcode map, and the row is
one of the 34 (30_encoding.md R63, R64). -/

namespace Sys2Proof.Laws

/-- Masking keeps exactly the fixed bits of `F NNN`, `F X NN` and `F X Y N` words. -/
theorem mask_FNNN (f : Nibble) (nnn : Addr12) : wordFNNN f nnn &&& 0xF000#16 = wordFNNN f 0 := by
  rw [wordFNNN_eq_wordFXYN, show (0xF000#16 : Word) = wordFXYN 0xF#4 0 0 0#4 from rfl, wordFXYN_and]
  have hf : f &&& 0xF#4 = f := BitVec.and_allOnes
  have h0 : ∀ z : Nibble, z &&& 0#4 = 0#4 := fun z => BitVec.and_zero
  rw [hf, show regNibble 0 = 0#4 from rfl, h0, h0, h0]
  revert f; decide

theorem mask_FXNN (f : Nibble) (x : Reg) (nn : Byte) : wordFXNN f x nn &&& 0xF000#16 = wordFXNN f 0 0 := by
  rw [wordFXNN_eq_wordFXYN, show (0xF000#16 : Word) = wordFXYN 0xF#4 0 0 0#4 from rfl, wordFXYN_and]
  have hf : f &&& 0xF#4 = f := BitVec.and_allOnes
  have h0 : ∀ z : Nibble, z &&& 0#4 = 0#4 := fun z => BitVec.and_zero
  rw [hf, show regNibble 0 = 0#4 from rfl, h0, h0, h0]
  revert f; decide

theorem mask_FXNN_sub (f : Nibble) (x : Reg) (nn : Byte) : wordFXNN f x nn &&& 0xF0FF#16 = wordFXNN f 0 nn := by
  rw [wordFXNN_eq_wordFXYN, wordFXNN_eq_wordFXYN f 0, show (0xF0FF#16 : Word) = wordFXYN 0xF#4 0 0xF 0xF#4 from rfl,
    wordFXYN_and, wordFXYN_inj]
  have h1 : ∀ z : Nibble, z &&& 0xF#4 = z := fun z => BitVec.and_allOnes
  have h0 : ∀ z : Nibble, z &&& 0#4 = 0#4 := fun z => BitVec.and_zero
  have hy : fieldY (wordFXNN f x nn) = fieldY (wordFXNN f 0 nn) := by
    apply Fin.ext; rw [val_fieldY, val_fieldY, toNat_wordFXNN, toNat_wordFXNN]; simp; omega
  have hn : fieldN (wordFXNN f x nn) = fieldN (wordFXNN f 0 nn) := by
    apply BitVec.eq_of_toNat_eq; rw [toNat_fieldN, toNat_fieldN, toNat_wordFXNN, toNat_wordFXNN]; simp; omega
  refine ⟨h1 _, ?_, ?_, ?_⟩
  · rw [show regNibble 0 = 0#4 from rfl, h0]; rfl
  · rw [show regNibble 0xF = 0xF#4 from rfl, h1, hy]; rfl
  · rw [h1, hn]

theorem mask_FXYN (f : Nibble) (x y : Reg) (n : Nibble) : wordFXYN f x y n &&& 0xF00F#16 = wordFXYN f 0 0 n := by
  rw [show (0xF00F#16 : Word) = wordFXYN 0xF#4 0 0 0xF#4 from rfl, wordFXYN_and]
  have h1 : ∀ z : Nibble, z &&& 0xF#4 = z := fun z => BitVec.and_allOnes
  have h0 : ∀ z : Nibble, z &&& 0#4 = 0#4 := fun z => BitVec.and_zero
  rw [h1, h1, show regNibble 0 = 0#4 from rfl, h0, h0]
  rfl

theorem mask_FXYN_family (f : Nibble) (x y : Reg) (n : Nibble) : wordFXYN f x y n &&& 0xF000#16 = wordFXYN f 0 0 0#4 := by
  rw [show (0xF000#16 : Word) = wordFXYN 0xF#4 0 0 0#4 from rfl, wordFXYN_and]
  have h1 : ∀ z : Nibble, z &&& 0xF#4 = z := fun z => BitVec.and_allOnes
  have h0 : ∀ z : Nibble, z &&& 0#4 = 0#4 := fun z => BitVec.and_zero
  rw [h1, show regNibble 0 = 0#4 from rfl, h0, h0, h0]
  rfl

end Sys2Proof.Laws

/-- The instruction's word matches its row, and the row is one of the opcode map. -/
def Sys2Proof.Laws.Row.Statement (i : Sys2Proof.Instr) : Prop :=
  Sys2Proof.matchesRow (Sys2Proof.encode i) i.row = true ∧ i.row ∈ Sys2Proof.opcodeRows

namespace Sys2Proof.Laws

/-- Membership in the opcode map is decided on the row alone. -/
theorem row_mem_of {i : Instr} {r : Word × Word} (e : i.row = r) (h : r ∈ opcodeRows) : i.row ∈ opcodeRows := e ▸ h

theorem Row.of_eq {i : Instr} (h : encode i &&& i.row.1 = i.row.2) (hm : i.row ∈ opcodeRows) : Row.Statement i :=
  ⟨by simp [matchesRow, h], hm⟩

theorem Row.cls : Row.Statement (.cls) :=
  Row.of_eq (rfl) (row_mem_of (r := (0xFFFF, 0x00E0)) rfl (by decide))

theorem Row.ret : Row.Statement (.ret) :=
  Row.of_eq (rfl) (row_mem_of (r := (0xFFFF, 0x00EE)) rfl (by decide))

theorem Row.jpNnn (nnn : Addr12) : Row.Statement (.jpNnn nnn) :=
  Row.of_eq (mask_FNNN 0x1#4 nnn) (row_mem_of (r := (0xF000, 0x1000)) rfl (by decide))

theorem Row.callNnn (nnn : Addr12) : Row.Statement (.callNnn nnn) :=
  Row.of_eq (mask_FNNN 0x2#4 nnn) (row_mem_of (r := (0xF000, 0x2000)) rfl (by decide))

theorem Row.seVxNn (x : Reg) (nn : Byte) : Row.Statement (.seVxNn x nn) :=
  Row.of_eq (mask_FXNN 0x3#4 x nn) (row_mem_of (r := (0xF000, 0x3000)) rfl (by decide))

theorem Row.sneVxNn (x : Reg) (nn : Byte) : Row.Statement (.sneVxNn x nn) :=
  Row.of_eq (mask_FXNN 0x4#4 x nn) (row_mem_of (r := (0xF000, 0x4000)) rfl (by decide))

theorem Row.seVxVy (x : Reg) (y : Reg) : Row.Statement (.seVxVy x y) :=
  Row.of_eq (mask_FXYN 0x5#4 x y 0x0#4) (row_mem_of (r := (0xF00F, 0x5000)) rfl (by decide))

theorem Row.ldVxNn (x : Reg) (nn : Byte) : Row.Statement (.ldVxNn x nn) :=
  Row.of_eq (mask_FXNN 0x6#4 x nn) (row_mem_of (r := (0xF000, 0x6000)) rfl (by decide))

theorem Row.addVxNn (x : Reg) (nn : Byte) : Row.Statement (.addVxNn x nn) :=
  Row.of_eq (mask_FXNN 0x7#4 x nn) (row_mem_of (r := (0xF000, 0x7000)) rfl (by decide))

theorem Row.ldVxVy (x : Reg) (y : Reg) : Row.Statement (.ldVxVy x y) :=
  Row.of_eq (mask_FXYN 0x8#4 x y 0x0#4) (row_mem_of (r := (0xF00F, 0x8000)) rfl (by decide))

theorem Row.orVxVy (x : Reg) (y : Reg) : Row.Statement (.orVxVy x y) :=
  Row.of_eq (mask_FXYN 0x8#4 x y 0x1#4) (row_mem_of (r := (0xF00F, 0x8001)) rfl (by decide))

theorem Row.andVxVy (x : Reg) (y : Reg) : Row.Statement (.andVxVy x y) :=
  Row.of_eq (mask_FXYN 0x8#4 x y 0x2#4) (row_mem_of (r := (0xF00F, 0x8002)) rfl (by decide))

theorem Row.xorVxVy (x : Reg) (y : Reg) : Row.Statement (.xorVxVy x y) :=
  Row.of_eq (mask_FXYN 0x8#4 x y 0x3#4) (row_mem_of (r := (0xF00F, 0x8003)) rfl (by decide))

theorem Row.addVxVy (x : Reg) (y : Reg) : Row.Statement (.addVxVy x y) :=
  Row.of_eq (mask_FXYN 0x8#4 x y 0x4#4) (row_mem_of (r := (0xF00F, 0x8004)) rfl (by decide))

theorem Row.subVxVy (x : Reg) (y : Reg) : Row.Statement (.subVxVy x y) :=
  Row.of_eq (mask_FXYN 0x8#4 x y 0x5#4) (row_mem_of (r := (0xF00F, 0x8005)) rfl (by decide))

theorem Row.shrVx (x : Reg) (y : Reg) : Row.Statement (.shrVx x y) :=
  Row.of_eq (mask_FXYN 0x8#4 x y 0x6#4) (row_mem_of (r := (0xF00F, 0x8006)) rfl (by decide))

theorem Row.subnVxVy (x : Reg) (y : Reg) : Row.Statement (.subnVxVy x y) :=
  Row.of_eq (mask_FXYN 0x8#4 x y 0x7#4) (row_mem_of (r := (0xF00F, 0x8007)) rfl (by decide))

theorem Row.shlVx (x : Reg) (y : Reg) : Row.Statement (.shlVx x y) :=
  Row.of_eq (mask_FXYN 0x8#4 x y 0xE#4) (row_mem_of (r := (0xF00F, 0x800E)) rfl (by decide))

theorem Row.sneVxVy (x : Reg) (y : Reg) : Row.Statement (.sneVxVy x y) :=
  Row.of_eq (mask_FXYN 0x9#4 x y 0x0#4) (row_mem_of (r := (0xF00F, 0x9000)) rfl (by decide))

theorem Row.ldINnn (nnn : Addr12) : Row.Statement (.ldINnn nnn) :=
  Row.of_eq (mask_FNNN 0xA#4 nnn) (row_mem_of (r := (0xF000, 0xA000)) rfl (by decide))

theorem Row.jpV0Nnn (nnn : Addr12) : Row.Statement (.jpV0Nnn nnn) :=
  Row.of_eq (mask_FNNN 0xB#4 nnn) (row_mem_of (r := (0xF000, 0xB000)) rfl (by decide))

theorem Row.rndVxNn (x : Reg) (nn : Byte) : Row.Statement (.rndVxNn x nn) :=
  Row.of_eq (mask_FXNN 0xC#4 x nn) (row_mem_of (r := (0xF000, 0xC000)) rfl (by decide))

theorem Row.drwVxVyN (x : Reg) (y : Reg) (n : Nibble) : Row.Statement (.drwVxVyN x y n) :=
  Row.of_eq (mask_FXYN_family 0xD#4 x y n) (row_mem_of (r := (0xF000, 0xD000)) rfl (by decide))

theorem Row.skpVx (x : Reg) : Row.Statement (.skpVx x) :=
  Row.of_eq (mask_FXNN_sub 0xE#4 x 0x9E#8) (row_mem_of (r := (0xF0FF, 0xE09E)) rfl (by decide))

theorem Row.sknpVx (x : Reg) : Row.Statement (.sknpVx x) :=
  Row.of_eq (mask_FXNN_sub 0xE#4 x 0xA1#8) (row_mem_of (r := (0xF0FF, 0xE0A1)) rfl (by decide))

theorem Row.ldVxDt (x : Reg) : Row.Statement (.ldVxDt x) :=
  Row.of_eq (mask_FXNN_sub 0xF#4 x 0x07#8) (row_mem_of (r := (0xF0FF, 0xF007)) rfl (by decide))

theorem Row.ldVxK (x : Reg) : Row.Statement (.ldVxK x) :=
  Row.of_eq (mask_FXNN_sub 0xF#4 x 0x0A#8) (row_mem_of (r := (0xF0FF, 0xF00A)) rfl (by decide))

theorem Row.ldDtVx (x : Reg) : Row.Statement (.ldDtVx x) :=
  Row.of_eq (mask_FXNN_sub 0xF#4 x 0x15#8) (row_mem_of (r := (0xF0FF, 0xF015)) rfl (by decide))

theorem Row.ldStVx (x : Reg) : Row.Statement (.ldStVx x) :=
  Row.of_eq (mask_FXNN_sub 0xF#4 x 0x18#8) (row_mem_of (r := (0xF0FF, 0xF018)) rfl (by decide))

theorem Row.addIVx (x : Reg) : Row.Statement (.addIVx x) :=
  Row.of_eq (mask_FXNN_sub 0xF#4 x 0x1E#8) (row_mem_of (r := (0xF0FF, 0xF01E)) rfl (by decide))

theorem Row.ldFVx (x : Reg) : Row.Statement (.ldFVx x) :=
  Row.of_eq (mask_FXNN_sub 0xF#4 x 0x29#8) (row_mem_of (r := (0xF0FF, 0xF029)) rfl (by decide))

theorem Row.ldBVx (x : Reg) : Row.Statement (.ldBVx x) :=
  Row.of_eq (mask_FXNN_sub 0xF#4 x 0x33#8) (row_mem_of (r := (0xF0FF, 0xF033)) rfl (by decide))

theorem Row.ldMemVx (x : Reg) : Row.Statement (.ldMemVx x) :=
  Row.of_eq (mask_FXNN_sub 0xF#4 x 0x55#8) (row_mem_of (r := (0xF0FF, 0xF055)) rfl (by decide))

theorem Row.ldVxMem (x : Reg) : Row.Statement (.ldVxMem x) :=
  Row.of_eq (mask_FXNN_sub 0xF#4 x 0x65#8) (row_mem_of (r := (0xF0FF, 0xF065)) rfl (by decide))

end Sys2Proof.Laws
end

