-- ==== Sys2Proof/Laws/Step.lean ====
section
/-! SUPPORT. What a `STEP` can do, said once (60_exceptions.md R220). -/

namespace Sys2Proof.Machine

/-- `runInstruction` by what the fetch and the decoder answer. -/
theorem runInstruction_cases (s : State) :
    (∃ op i, s.fetch = .ok op ∧ decodeWord op = .ok i ∧ runInstruction s = exec i s) ∨
    (∃ op w, s.fetch = .ok op ∧ decodeWord op = .error w ∧ runInstruction s = .next (s.advance 2)) ∨
    (∃ r, s.fetch = .error r ∧ runInstruction s = .next (s.halt r.cause)) := by
  cases hf : s.fetch with
  | error r => exact .inr (.inr ⟨r, rfl, by simp only [runInstruction, hf]⟩)
  | ok op =>
    cases hd : decodeWord op with
    | ok i => exact .inl ⟨op, i, rfl, hd, by simp only [runInstruction, hf, executeWord, hd]⟩
    | error w => exact .inr (.inl ⟨op, w, rfl, hd, by simp only [runInstruction, hf, executeWord, hd]; rfl⟩)

/-- Everything a step can do. -/
theorem step_cases {s : State} {o : Host.Outcome State Fault Refusal} (h : step s = o) :
    (∃ c, s.mode = .halted c ∧ o = .next s) ∨
    (∃ x, s.mode = .waitingForKey x ∧ o = .next (s.pollKeys x)) ∨
    (∃ op i, s.mode = .running ∧ s.fetch = .ok op ∧ decodeWord op = .ok i ∧ o = exec i s) ∨
    (∃ op w, s.mode = .running ∧ s.fetch = .ok op ∧ decodeWord op = .error w ∧ o = .next (s.advance 2)) ∨
    (∃ r, s.mode = .running ∧ s.fetch = .error r ∧ o = .next (s.halt r.cause)) := by
  subst h
  cases hm : s.mode with
  | halted c => exact .inl ⟨c, rfl, by simp only [step, hm]⟩
  | waitingForKey x => exact .inr (.inl ⟨x, rfl, by simp only [step, hm]⟩)
  | running =>
    have hs : step s = runInstruction s := by simp only [step, hm]
    rcases runInstruction_cases s with ⟨op, i, h1, h2, h3⟩ | ⟨op, w, h1, h2, h3⟩ | ⟨r, h1, h2⟩
    · exact .inr (.inr (.inl ⟨op, i, rfl, h1, h2, hs.trans h3⟩))
    · exact .inr (.inr (.inr (.inl ⟨op, w, rfl, h1, h2, hs.trans h3⟩)))
    · exact .inr (.inr (.inr (.inr ⟨r, rfl, h1, hs.trans h2⟩)))

/-- The fetch after a word has been placed at an address it fits gives that word back (R41, R51). -/
theorem State.fetch_placeWord {s : State} (op : Word) (h : s.pc.toNat ≤ 4094) : (s.placeWord op).fetch = .ok op := by
  have hpc : (s.placeWord op).pc = s.pc := rfl
  rw [State.fetch_ok (by rw [hpc]; exact h), hpc]
  simp only [State.placeWord]
  rw [State.byteAt_setByte_other _ (by omega), State.byteAt_setByte_same, State.byteAt_setByte_same,
    Laws.wordOfBytes_bytes]

/-- The loaded word is what the next step fetches, in mode Running (log entry 5). -/
theorem State.loadedWith_fetch (s : State) (op : Word) :
    (s.loadedWith op).mode = .running ∧ (s.loadedWith op).fetch = .ok op := by
  refine ⟨rfl, State.fetch_placeWord op ?_⟩
  simp only [State.readyToFetch]
  by_cases h : s.pc.toNat + 1 < memSize
  · simp only [h, if_true, State.setMode_pc]
    exact Nat.le_of_lt_succ (Nat.lt_of_succ_lt_succ h)
  · simp only [h, if_false, State.setMode_pc, State.setPc_pc]; decide

end Sys2Proof.Machine
end

