-- ==== Sys2Proof/Laws/Pins.lean ====
section
/-! SUPPORT. The draw of a CXNN by a byte presented at the edge (50_host_interface.md R209), and what one edge does, said once. -/

namespace Sys2Proof.Machine

/-- Everything randomize does with the drawn byte (R152). -/
theorem randomizeWith_frame (r : Byte) (x : Reg) (nn : Byte) (s : State) :
    (randomizeWith r x nn s).reg x = r &&& nn ∧ (randomizeWith r x nn s).pc = s.pc + 2 ∧
      (randomizeWith r x nn s).draws = s.draws + 1 ∧ OnlyReg x s (randomizeWith r x nn s) ∧
      OnlyChanges [.v, .pc, .draws] s (randomizeWith r x nn s) := by
  refine ⟨by simp [randomizeWith], by simp [randomizeWith], by simp [randomizeWith], fun z hz => ?_, fun p hp => ?_⟩
  · simp [randomizeWith, State.reg_setReg, hz]
  · cases p <;> simp_all [Same, randomizeWith]

/-- Only the word of a CXNN decodes to it. -/
theorem decodeWord_rndVxNn {op : Word} {x : Reg} {nn : Byte} :
    decodeWord op = .ok (.rndVxNn x nn) ↔ op = encode (.rndVxNn x nn) := by
  refine ⟨fun h => ?_, fun h => h ▸ by simp [encode, decodeWord]⟩
  simp only [decodeWord, decodeFamily0, decodeFamily5, decodeFamily8, decodeFamily9, decodeFamilyE, decodeFamilyF] at h
  split at h
  case h_13 hf =>
    cases h
    have hF : fieldF op = 0xC#4 := BitVec.eq_of_toNat_eq hf
    exact (Laws.wordFXNN_fields op).symm.trans (by rw [hF, encode])
  all_goals (repeat' split at h) <;> cases h

/-- `nextRandomize` names the CXNN that the next `STEP` executes. -/
theorem State.nextRandomize_eq_some {s : State} {x : Reg} {nn : Byte} :
    s.nextRandomize = some (x, nn) ↔ RandomizesNext s x nn := by
  unfold State.nextRandomize RandomizesNext
  cases hm : s.mode with
  | halted c => simp
  | waitingForKey z => simp
  | running =>
    cases hf : s.fetch with
    | error r => simp
    | ok op =>
      rw [Except.ok.injEq, ← decodeWord_rndVxNn]
      cases hd : decodeWord op with
      | error w => simp [hd]
      | ok i => cases i <;> simp [hd]

/-- A `STEP` that executes CXNN draws the presented byte. -/
theorem stepWith_randomizes {r : Byte} {s : State} {x : Reg} {nn : Byte} (h : RandomizesNext s x nn) :
    stepWith r s = .next (randomizeWith r x nn s) := by
  simp only [stepWith, State.nextRandomize_eq_some.2 h]

/-- Every other `STEP` looks at no byte. -/
theorem stepWith_other {r : Byte} {s : State} (h : ∀ x nn, ¬ RandomizesNext s x nn) : stepWith r s = step s := by
  cases hr : s.nextRandomize with
  | none => simp only [stepWith, hr]
  | some q => exact absurd (State.nextRandomize_eq_some.1 hr) (h q.1 q.2)

/-- `step` is `stepWith` at the free value of log entry 1. -/
theorem step_eq_stepWith (s : State) : step s = stepWith (Config.drawByte s.draws) s := by
  by_cases h : ∃ x nn, RandomizesNext s x nn
  · obtain ⟨x, nn, h⟩ := h
    rw [stepWith_randomizes h]
    simp only [step, h.1, runInstruction, h.2, executeWord, decodeWord_rndVxNn.2 rfl]
    rfl
  · exact (stepWith_other fun x nn hr => h ⟨x, nn, hr⟩).symm

end Sys2Proof.Machine
end

