-- ==== Sys2Proof/Tests/Slice0.lean ====
section
/-! SUPPORT. Tests. Expected results are the spec's own vectors (95_test_vectors.md, the id in each docstring) or are worked by
hand from the rule named. At the end, one witness per obligation with hypotheses: a concrete state and operands that meet
them. -/

namespace Sys2Proof.Tests

open Sys2Proof.Machine

/-! ### WellFormed: each check refuses a raw operand one past its range (R62) -/

theorem test_wf_reg : fitsReg 15 = true ∧ fitsReg 16 = false := by decide
theorem test_wf_nn : fitsNN 255 = true ∧ fitsNN 256 = false := by decide
theorem test_wf_n : fitsN 15 = true ∧ fitsN 16 = false := by decide
theorem test_wf_nnn : fitsNNN 4095 = true ∧ fitsNNN 4096 = false := by decide

/-! ### Decoding: the words of 95_test_vectors.md 2.1 -/

/-- What the host's entry point reads from a 16-bit row. -/
def reads (w : Nat) : Option Instr := decodeTableWord 16 w

theorem test_dec_cls : reads 0x00E0 = some .cls := by decide
theorem test_dec_ret : reads 0x00EE = some .ret := by decide
theorem test_dec_jp : reads 0x1234 = some (.jpNnn 0x234) := by decide
theorem test_dec_call : reads 0x2208 = some (.callNnn 0x208) := by decide
theorem test_dec_se_nn : reads 0x332A = some (.seVxNn 3 0x2A) := by decide
theorem test_dec_sne_nn : reads 0x4A00 = some (.sneVxNn 10 0x00) := by decide
theorem test_dec_se_vy : reads 0x5120 = some (.seVxVy 1 2) := by decide
theorem test_dec_ld_nn : reads 0x600A = some (.ldVxNn 0 0x0A) := by decide
theorem test_dec_add_nn : reads 0x7EFF = some (.addVxNn 14 0xFF) := by decide
theorem test_dec_ld_vy : reads 0x8010 = some (.ldVxVy 0 1) := by decide
theorem test_dec_or : reads 0x8AB1 = some (.orVxVy 10 11) := by decide
theorem test_dec_and : reads 0x8232 = some (.andVxVy 2 3) := by decide
theorem test_dec_xor : reads 0x8FF3 = some (.xorVxVy 15 15) := by decide
theorem test_dec_add : reads 0x8014 = some (.addVxVy 0 1) := by decide
theorem test_dec_sub : reads 0x8125 = some (.subVxVy 1 2) := by decide
theorem test_dec_shr : reads 0x8276 = some (.shrVx 2 7) := by decide
theorem test_dec_subn : reads 0x8017 = some (.subnVxVy 0 1) := by decide
theorem test_dec_shl : reads 0x82FE = some (.shlVx 2 15) := by decide
theorem test_dec_sne_vy : reads 0x9EF0 = some (.sneVxVy 14 15) := by decide
theorem test_dec_ld_i : reads 0xA2F0 = some (.ldINnn 0x2F0) := by decide
theorem test_dec_jp_v0 : reads 0xB300 = some (.jpV0Nnn 0x300) := by decide
theorem test_dec_rnd : reads 0xC00F = some (.rndVxNn 0 0x0F) := by decide
theorem test_dec_drw : reads 0xD12A = some (.drwVxVyN 1 2 0xA) := by decide
theorem test_dec_skp : reads 0xE29E = some (.skpVx 2) := by decide
theorem test_dec_sknp : reads 0xEBA1 = some (.sknpVx 11) := by decide
theorem test_dec_ld_vx_dt : reads 0xF407 = some (.ldVxDt 4) := by decide
theorem test_dec_ld_k : reads 0xF30A = some (.ldVxK 3) := by decide
theorem test_dec_ld_dt : reads 0xF415 = some (.ldDtVx 4) := by decide
theorem test_dec_ld_st : reads 0xF418 = some (.ldStVx 4) := by decide
theorem test_dec_add_i : reads 0xF11E = some (.addIVx 1) := by decide
theorem test_dec_ld_f : reads 0xF029 = some (.ldFVx 0) := by decide
theorem test_dec_ld_b : reads 0xF033 = some (.ldBVx 0) := by decide
theorem test_dec_dump : reads 0xF255 = some (.ldMemVx 2) := by decide
theorem test_dec_load : reads 0xFF65 = some (.ldVxMem 15) := by decide

/-- The unknown words of 95_test_vectors.md 2.1. -/
theorem test_dec_unknown :
    [0x0000, 0x00E1, 0x00FE, 0x0123, 0x5001, 0x8008, 0x800F, 0x9AB4, 0xE000, 0xE19F, 0xF000, 0xF1FF, 0xFF0B].all
      (fun w => (reads w).isNone) = true := by decide

/-- The bytes `D1 2A`, in the order memory holds them (R41, R61). -/
theorem test_dec_bytes : decodeBytes 0xD1 0x2A = .ok (.drwVxVyN 1 2 0xA) := by decide

/-- The encoder writes the same two bytes. -/
theorem test_enc_bytes : encodeBytes (.drwVxVyN 1 2 0xA) = [0xD1, 0x2A] := by decide

/-! ### One step -/

/-- The start of a vector: the reset state with the differences `f`, and the word `w` at PC. -/
def start (f : State → State) (w : Nat) : State := (f State.reset).withFetchWord 16 w

/-- The state after one `STEP` (the reset state if there were none). -/
def next (s : State) : State :=
  match step s with
  | .next t => t
  | .fault _ | .refused _ => State.reset

/-- The state after one `STEP` from the start of a vector. -/
def after (f : State → State) (w : Nat) : State := next (start f w)

/-- V0 and V1. -/
def v01 (a b : Byte) (s : State) : State := (s.setReg 0 a).setReg 1 b

/-- T40-01. -/
theorem test_cls : let t := after (fun s => (s.setFb (setPixel s.fb 100 true)).setRedraw false) 0x00E0
    pixel t.fb 100 = false ∧ t.redraw = true ∧ t.pc = 0x202 := by decide
/-- T40-05: the popped entry 0xFFE plus 2 leaves the memory and the return does not fault. -/
theorem test_ret : let t := after (fun s => ((s.setPc 0x300).setSp 16).setStack 15 0xFFE) 0x00EE
    t.pc = 0x1000 ∧ t.sp = 15 ∧ t.mode = .running := by decide
/-- T40-04. -/
theorem test_ret_underflow : let s := start id 0x00EE
    (next s).mode = .halted .stackUnderflow ∧ (next s).pc = 0x200 ∧
      (stepOutcome s).fault = some { cause := .stackUnderflow, info := some 512 } := by decide
/-- T40-06. -/
theorem test_jp : (after id 0x1234).pc = 0x234 := by decide
/-- T40-11. -/
theorem test_call : let t := after (fun s => (s.setPc 0x4F2).setSp 15) 0x2ABC
    t.pc = 0xABC ∧ t.sp = 16 ∧ t.stack[15] = 0x4F2 := by decide
/-- T40-12: the full stack is left untouched. -/
theorem test_call_overflow : let s := start (fun s => s.setSp 16) 0x2ABC
    (next s).mode = .halted .stackOverflow ∧ (next s).sp = 16 ∧
      (stepOutcome s).fault = some { cause := .stackOverflow, info := some 512 } := by decide
/-- T41-01, T41-02. -/
theorem test_se_nn : (after (fun s => s.setReg 3 42) 0x332A).pc = 0x204 ∧
    (after (fun s => s.setReg 3 42) 0x332B).pc = 0x202 := by decide
/-- T41-03, T41-04. -/
theorem test_sne_nn : (after (fun s => s.setReg 3 42) 0x432A).pc = 0x202 ∧
    (after (fun s => s.setReg 3 42) 0x4300).pc = 0x204 := by decide
/-- T41-05, T41-06. -/
theorem test_se_vy : (after (fun s => (s.setReg 1 7).setReg 2 7) 0x5120).pc = 0x204 ∧
    (after (fun s => (s.setReg 1 7).setReg 2 8) 0x5120).pc = 0x202 := by decide
/-- T41-08, T41-09. -/
theorem test_sne_vy : (after (fun s => (s.setReg 1 7).setReg 2 8) 0x9120).pc = 0x204 ∧
    (after (fun s => (s.setReg 1 7).setReg 2 7) 0x9120).pc = 0x202 := by decide
/-- T42-01. -/
theorem test_ld_nn : let t := after id 0x632A; t.reg 3 = 42 ∧ t.pc = 0x202 := by decide
/-- T42-05: the sum wraps and VF keeps its value. -/
theorem test_add_nn : let t := after (fun s => (s.setReg 0 255).setReg vf 1) 0x70FF
    t.reg 0 = 254 ∧ t.reg vf = 1 := by decide
/-- T43-01. -/
theorem test_ld_vy : (after (v01 0 0x5A) 0x8010).reg 0 = 0x5A := by decide
/-- T43-03. -/
theorem test_or : (after (v01 0xF0 0x0F) 0x8011).reg 0 = 0xFF := by decide
/-- T43-04. -/
theorem test_and : let t := after (fun s => (v01 0xF3 0x3F s).setReg vf 1) 0x8012; t.reg 0 = 0x33 ∧ t.reg vf = 1 := by decide
/-- T43-05. -/
theorem test_xor : (after (v01 0xFF 0x0F) 0x8013).reg 0 = 0xF0 := by decide
/-- T43-07. -/
theorem test_add : let t := after (v01 250 10) 0x8014; t.reg 0 = 4 ∧ t.reg vf = 1 := by decide
/-- T43-13: X = 15, the flag is lost and VF holds the sum. -/
theorem test_add_vf : (after (fun s => (s.setReg vf 200).setReg 1 100) 0x8F14).reg vf = 44 := by decide
/-- T43-16. -/
theorem test_sub : let t := after (fun s => (v01 5 10 s).setReg vf 1) 0x8015; t.reg 0 = 251 ∧ t.reg vf = 0 := by decide
/-- T43-18: equal operands give no borrow. -/
theorem test_sub_equal : let t := after (v01 7 7) 0x8015; t.reg 0 = 0 ∧ t.reg vf = 1 := by decide
/-- T43-24: the Y field is ignored. -/
theorem test_shr : let t := after (fun s => (s.setReg 2 5).setReg 7 0xEE) 0x8276
    t.reg 2 = 2 ∧ t.reg vf = 1 ∧ t.reg 7 = 0xEE := by decide
/-- T43-29: X = 15. -/
theorem test_shr_vf : (after (fun s => s.setReg vf 0x81) 0x8F06).reg vf = 0x40 := by decide
/-- T43-30. -/
theorem test_subn : let t := after (fun s => (v01 10 5 s).setReg vf 1) 0x8017; t.reg 0 = 251 ∧ t.reg vf = 0 := by decide
/-- T43-35: the Y field is ignored. -/
theorem test_shl : let t := after (fun s => (s.setReg 2 0x81).setReg 7 0xEE) 0x827E
    t.reg 2 = 2 ∧ t.reg vf = 1 ∧ t.reg 7 = 0xEE := by decide
/-- T43-37. -/
theorem test_shl_clear : let t := after (fun s => (s.setReg 2 0x7F).setReg vf 1) 0x820E
    t.reg 2 = 0xFE ∧ t.reg vf = 0 := by decide
/-- T44-02. -/
theorem test_ld_i : (after (fun s => s.setI 0x123) 0xAFFF).i = 0xFFF := by decide
/-- T44-05, T44-06: V0 is added, whatever the X nibble. -/
theorem test_jp_v0 : (after (fun s => s.setReg 0 255) 0xBFFF).pc = 0x10FE ∧
    (after (fun s => s.setReg 3 9) 0xB300).pc = 0x300 := by decide
/-- R152: a draw moves the position on by one and PC by 2; the value is free. -/
theorem test_rnd : let t := after id 0xC00F; t.draws = 1 ∧ t.pc = 0x202 := by decide
/-- T45-13: both coordinates are the old VF. -/
theorem test_drw : let t := after (fun s => ((s.setReg vf 3).setI 0x300).setByte 0x300 0x80) 0xDFF1
    pixel t.fb 195 = true ∧ pixel t.fb 194 = false ∧ t.reg vf = 0 := by decide
/-- T45-07: the fifth pixel is out of range; nothing is drawn and VF keeps 1. -/
theorem test_drw_fault :
    let s := start (fun s => (((v01 60 31 s).setReg vf 1).setI 0x300).setByte 0x300 0xFF) 0xD011
    (next s).mode = .halted .addressOutOfRange ∧ pixel (next s).fb 2044 = false ∧ (next s).reg vf = 1 ∧
      (stepOutcome s).fault = some { cause := .addressOutOfRange, info := some 2048 } := by decide
/-- T46-01, T46-02. -/
theorem test_skp : (after (fun s => setKey 5 true (s.setReg 2 5)) 0xE29E).pc = 0x204 ∧
    (after (fun s => s.setReg 2 5) 0xE29E).pc = 0x202 := by decide
/-- T46-06. -/
theorem test_skp_fault : let s := start (fun s => s.setReg 2 16) 0xE29E
    (next s).mode = .halted .addressOutOfRange ∧
      (stepOutcome s).fault = some { cause := .addressOutOfRange, info := some 16 } := by decide
/-- T46-03, T46-04. -/
theorem test_sknp : (after (fun s => s.setReg 2 5) 0xE2A1).pc = 0x204 ∧
    (after (fun s => setKey 5 true (s.setReg 2 5)) 0xE2A1).pc = 0x202 := by decide
/-- T46-07: the key number is not masked. -/
theorem test_sknp_fault :
    (after (fun s => setKey 5 true (s.setReg 2 0xF5)) 0xE2A1).mode = .halted .addressOutOfRange := by decide
/-- T47-01. -/
theorem test_ld_vx_dt : (after (fun s => s.setDt 44) 0xF407).reg 4 = 44 := by decide
/-- T46-09: the step that starts the wait reads no key. -/
theorem test_ld_k : let t := after (setKey 4 true) 0xF30A; t.mode = .waitingForKey 3 ∧ t.pc = 0x200 := by decide
/-- T47-03. -/
theorem test_ld_dt : (after (fun s => s.setReg 4 3) 0xF415).dt = 3 := by decide
/-- T47-06. -/
theorem test_ld_st : (after (fun s => s.setReg 4 1) 0xF418).st = 1 := by decide
/-- T48-04: the comparison uses the unwrapped sum. -/
theorem test_add_i : let t := after (fun s => (s.setI 0xFFFF).setReg 1 1) 0xF11E; t.i = 0 ∧ t.reg vf = 1 := by decide
/-- T48-06: FX1E_SETS_VF = false. -/
theorem test_add_i_no_vf :
    let t := after (fun s => (((State.resetWith { s.config with fx1eSetsVF := false }).setI 0xFFE).setReg 1 3).setReg vf 7) 0xF11E
    t.i = 0x1001 ∧ t.reg vf = 7 := by decide
/-- T48-11. -/
theorem test_ld_f : (after (fun s => s.setReg 0 15) 0xF029).i = 0x04B := by decide
/-- T48-12. -/
theorem test_ld_f_fault : let t := after (fun s => (s.setReg 0 16).setI 0x300) 0xF029
    t.mode = .halted .addressOutOfRange ∧ t.i = 0x300 := by decide
/-- T48-13: hundreds first. -/
theorem test_ld_b : let t := after (fun s => (s.setReg 0 254).setI 0x300) 0xF033
    t.byteAt 0x300 = 2 ∧ t.byteAt 0x301 = 5 ∧ t.byteAt 0x302 = 4 ∧ t.i = 0x300 := by decide
/-- T48-18: nothing is written, though the first two bytes fit. -/
theorem test_ld_b_fault : let s := start (fun s => (s.setReg 0 123).setI 0xFFE) 0xF033
    (next s).mode = .halted .addressOutOfRange ∧ (next s).byteAt 0xFFE = 0 ∧
      (stepOutcome s).fault = some { cause := .addressOutOfRange, info := some 4096 } := by decide
/-- T48-22: a dump that ends at 4095 succeeds. -/
theorem test_dump : let t := after (fun s => (v01 1 2 s).setI 0xFFE) 0xF155
    t.byteAt 0xFFE = 1 ∧ t.byteAt 0xFFF = 2 ∧ t.i = 0x1000 := by decide
/-- T48-23. -/
theorem test_dump_fault : let t := after (fun s => (v01 1 2 s).setI 0xFFE) 0xF255
    t.mode = .halted .addressOutOfRange ∧ t.byteAt 0xFFE = 0 ∧ t.i = 0xFFE := by decide
/-- T48-26: V1 is above X. -/
theorem test_load : let t := after (fun s => ((s.setByte 0x300 2).setI 0x300).setReg 1 0x77) 0xF065
    t.reg 0 = 2 ∧ t.reg 1 = 0x77 ∧ t.i = 0x301 := by decide
/-- T48-28. -/
theorem test_load_fault : let t := after (fun s => ((s.setByte 0xFFE 0xAA).setI 0xFFE).setReg 0 5) 0xF265
    t.mode = .halted .addressOutOfRange ∧ t.reg 0 = 5 := by decide

/-! ### Steps that execute no instruction -/

/-- T40-13. -/
theorem test_unknown : let s := start id 0x00E1
    (next s).pc = 0x202 ∧ (stepOutcome s).warning = some 0x00E1 ∧ (stepOutcome s).fault = none := by decide
/-- T40-09. -/
theorem test_fetch_fault : let s := State.reset.setPc 0xFFF
    (next s).mode = .halted .addressOutOfRange ∧ (next s).pc = 0xFFF ∧
      (stepOutcome s).fault = some { cause := .addressOutOfRange, info := some 4095 } := by decide
/-- T46-11: the least pressed key. -/
theorem test_poll : let t := next (setKey 9 true (setKey 7 true (State.reset.setMode (.waitingForKey 3))))
    t.reg 3 = 7 ∧ t.pc = 0x202 ∧ t.mode = .running := by decide
/-- P8c, row 2: a halted step changes nothing and repeats the cause. -/
theorem test_halted : let s := State.reset.halt .stackUnderflow
    (next s).pc = 0x200 ∧ (stepOutcome s).fault = some { cause := .stackUnderflow, info := none } := by decide

/-! ### Host operations -/

/-- R28, R47: the font's first and last byte, and the byte above it. -/
theorem test_reset_mem : State.reset.byteAt 0 = 0xF0 ∧ State.reset.byteAt 79 = 0x80 ∧ State.reset.byteAt 80 = 0 ∧
    Memory.wf State.reset.config State.reset.mem = true := by decide
/-- T47-10, T47-11. -/
theorem test_tick : let s := State.reset.setSt 1; let t := (State.reset.setDt 1).setSt 2
    (tick s).st = 0 ∧ tickBeep s = true ∧ (tick t).dt = 0 ∧ (tick t).st = 1 ∧ tickBeep t = false := by decide
/-- T47-15. -/
theorem test_tick_halted : let s := ((State.reset.setDt 5).setSt 1).halt .stackOverflow
    (tick s).dt = 5 ∧ (tick s).st = 1 ∧ tickBeep s = false := by decide
/-- H-03. -/
theorem test_load_rom : let t := load [0x60, 0x0A, 0x61] (State.reset.setReg 3 9)
    t.byteAt 0x200 = 0x60 ∧ t.byteAt 0x202 = 0x61 ∧ t.byteAt 0x203 = 0 ∧ t.reg 3 = 0 ∧ t.pc = 0x200 := by decide
/-- H-09. -/
theorem test_set_key : let t := clearRedraw (setKey 2 true (State.reset.halt .stackUnderflow))
    t.key = 4 ∧ t.redraw = false ∧ t.mode = .halted .stackUnderflow := by decide
/-- R209: the beep lasts one cycle; P8c: the pins of a halted block. -/
theorem test_pins : let p : PinInput := { cmd := 3, keyIdx := 0, keyVal := false, rnd := 0, rom := [] }
    let c : Clocked := { block := State.reset.setSt 1, beep := false, warn := none }
    (c.edge p).beep = true ∧ ((c.edge p).edge p).beep = false ∧
      (let h : Clocked := { c with block := State.reset.halt .stackUnderflow }; h.modePin = 2 ∧ h.faultPin = 2) := by decide
/-- The example of R152 through the pins of R209: word C0 0F, draw 0xB7 on `rnd`. -/
theorem test_pin_rnd : let p : PinInput := { cmd := 2, keyIdx := 0, keyVal := false, rnd := 0xB7, rom := [] }
    let c : Clocked := { block := start id 0xC00F, beep := false, warn := none }
    (c.edge p).block.reg 0 = 0x07 ∧ (c.edge p).block.pc = 0x202 := by decide
/-- R209: `warn_op` is that of the last `STEP`; a `TICK` leaves it, the next `STEP` clears it. -/
theorem test_pin_warn : let p : PinInput := { cmd := 2, keyIdx := 0, keyVal := false, rnd := 0, rom := [] }
    let c : Clocked := { block := start id 0x00E1, beep := false, warn := none }
    let d := c.edge p
    d.warn = some 0x00E1 ∧ (d.edge { p with cmd := 3 }).warn = some 0x00E1 ∧
      ({ d with block := State.reset.halt .stackOverflow }.edge p).warn = none := by decide
/-- H-12: before the first reset the model refuses, by name. -/
theorem test_unreset : (Block.unreset defaultConfig 0).apply .step = .refused .beforeFirstReset := rfl

/-! ### Witnesses: a state and operands that meet the hypotheses of each obligation -/

/-- A state in a key wait, one live stack entry at its largest value. -/
def waiting : State :=
  ((((State.reset.setByte 0x200 0xF3).setByte 0x201 0x0A).setSp 1).setStack 0 4094).setMode (.waitingForKey 3)

/-- ResetAndLoadLeaveTheResetValues, LoadCopiesTheRomOrRefusesIt: the largest program that fits, and one byte more. -/
theorem witness_load : (List.replicate 3584 (0xAA : Byte)).length ≤ 3584 ∧ 3584 < (List.replicate 3585 (0xAA : Byte)).length := by
  rw [List.length_replicate, List.length_replicate]; decide

theorem engineInv_waiting : EngineInv waiting := by
  refine ⟨by unfold MemInv; decide, by unfold PcInv; decide, fun k hk => ?_, fun x h => ?_⟩
  · have : k = 0 := Fin.ext (Nat.lt_one_iff.1 hk)
    subst this; decide
  · injection h with h; subst h; decide

/-- StepKeepsInvariant: a state of the invariant, in a key wait, whose step (a poll that finds no key) answers a next state. -/
theorem witness_step_keeps : EngineInv waiting ∧ step waiting = .next waiting := ⟨engineInv_waiting, rfl⟩

/-- EveryOperationKeepsListedInvariants: a reset block, and an operation on a state of the invariant. -/
theorem witness_every_operation : (∃ t r, (Block.up waiting).apply .reset = .next (t, r)) ∧
    (ListedInvariants waiting ∧ MemInv waiting) ∧ ∃ t r, applyUp .tick waiting = .next (t, r) := by
  obtain ⟨h1, h2, h3, h4⟩ := engineInv_waiting
  exact ⟨⟨_, _, rfl⟩, ⟨⟨by decide, by decide, by decide, by decide, fun a => Nat.le_of_lt_succ (waiting.byteAt a).isLt,
    by decide, by decide, by decide, h3, h2, h4⟩, h1⟩, _, _, rfl⟩

/-- DecodeOfEncodeIsTheInstruction. -/
theorem witness_wellFormed : (Instr.drwVxVyN 15 15 15).wellFormed = true := by decide

/-- EncodeOfDecodeIsTheWord, DecodeFollowsTheOpcodeMap: a word that is an instruction; DecodeFollowsTheOpcodeMap,
UnknownOpcodeWarnsAndAdvances: a word that matches no row. -/
theorem witness_decodes : decodeWord 0xFF65 = .ok (.ldVxMem 15) ∧ ∀ row ∈ opcodeRows, matchesRow 0x8018 row = false := by
  refine ⟨by decide, fun row h => ?_⟩
  have : (opcodeRows.all fun row => !matchesRow 0x8018 row) = true := by decide
  exact Bool.not_eq_true' _ ▸ List.all_eq_true.1 this row h

/-- A word of its own value is its own refusal: what the last clause of StrictDecodeBySubCode is about. -/
theorem unknown_of_error {op : Word} (h : decodeWord op = .error (.unknownOpcode op)) : ∀ i, decodeWord op ≠ .ok i := by
  intro i hi; rw [h] at hi; cases hi

/-- StrictDecodeBySubCode: an unknown word of each family that has one. -/
theorem witness_unknown_words : ∀ op ∈ [0x00E1#16, 0x5121#16, 0x8018#16, 0x912F#16, 0xE29F#16, 0xF075#16],
    ∀ i, decodeWord op ≠ .ok i := by
  intro op h
  apply unknown_of_error
  simp only [List.mem_cons, List.not_mem_nil, or_false] at h
  rcases h with rfl | rfl | rfl | rfl | rfl | rfl <;> decide

/-- StepRunsTheDecodedInstruction: the last instruction slot. -/
theorem witness_step_runs : let s := start (fun s => s.setPc 4094) 0x00E0
    s.mode = .running ∧ s.pc.toNat ≤ 4094 ∧
      decodeBytes (s.byteAt s.pc.toNat) (s.byteAt (s.pc.toNat + 1)) = .ok .cls ∧ Instr.wellFormed .cls = true := by decide

/-- FetchIsBigEndianOrFaults: both sides of the bound. -/
theorem witness_fetch : (State.reset.setPc 4094).pc.toNat ≤ 4094 ∧ 4095 ≤ (State.reset.setPc 4095).pc.toNat ∧
    (State.reset.setPc 4095).mode = .running := by decide

/-- UnknownOpcodeWarnsAndAdvances: with `witness_decodes`. -/
theorem witness_unknown_step : (start id 0x8018).mode = .running ∧ (start id 0x8018).fetch = .ok 0x8018 := by decide

/-- HaltedIsLeftByResetOnly, FaultsExactlyWhenTabled: each cause is the mode of some state. -/
theorem witness_halted (c : Cause) : (State.reset.halt c).mode = .halted c := rfl

/-- HaltedIsLeftByResetOnly: an operation that is neither RESET nor LOAD. -/
theorem witness_halted_step : applyUp .step (State.reset.halt .stackOverflow) =
      .next (State.reset.halt .stackOverflow, .step (stepOutcome (State.reset.halt .stackOverflow))) ∧
    HostOp.step ≠ .reset ∧ ∀ bytes, HostOp.step ≠ .load bytes := ⟨rfl, by decide, fun _ h => by cases h⟩

/-- KeyWaitPollTakesTheLeastKey: key 0 and key 15 as the least pressed, and no key pressed. -/
theorem witness_poll : waiting.mode = .waitingForKey 3 ∧ (setKey 15 true (setKey 0 true waiting)).mode = .waitingForKey 3 ∧
    (setKey 0 true waiting).key.getLsbD (0 : Fin 16).val = true ∧
    ((setKey 15 true waiting).key.getLsbD (15 : Fin 16).val = true ∧
      ∀ j : Fin 16, j < 15 → (setKey 15 true waiting).key.getLsbD j.val = false) ∧
    ∀ k : Fin 16, waiting.key.getLsbD k.val = false := by decide

/-- StepOutcomeReportsTheStep, StepLeavesTheHostsStateAlone, StepNeverCountsTimersDown: a step that answers a next state; with
the redraw flag set, as the second asks. -/
theorem witness_step_answers : (∃ t, step (start id 0xF315) = .next t) ∧ (start id 0xF315).redraw = true :=
  ⟨⟨_, rfl⟩, by decide⟩

/-- FaultsArePrecise: a return with no call. -/
theorem witness_precise : (∃ t, step (start id 0x00EE) = .next t ∧ t.mode = .halted .stackUnderflow) ∧
    (start id 0x00EE).mode = .running := ⟨⟨_, rfl, by decide⟩, by decide⟩

/-- FaultsExactlyWhenTabled: each condition of the table holds in some running state and fails in some running state. -/
theorem witness_tabled : let s := State.reset; s.mode = .running ∧
    FaultsWhen .ret s ∧ ¬ FaultsWhen .ret (s.setSp 1) ∧ FaultsWhen (.callNnn 0) (s.setSp 16) ∧ ¬ FaultsWhen (.callNnn 0) (s.setSp 15) ∧
    FaultsWhen (.skpVx 0) (s.setReg 0 16) ∧ ¬ FaultsWhen (.skpVx 0) (s.setReg 0 15) ∧
    FaultsWhen (.sknpVx 0) (s.setReg 0 16) ∧ ¬ FaultsWhen (.sknpVx 0) (s.setReg 0 15) ∧
    FaultsWhen (.ldFVx 0) (s.setReg 0 16) ∧ ¬ FaultsWhen (.ldFVx 0) (s.setReg 0 15) ∧
    FaultsWhen (.ldBVx 0) (s.setI 4094) ∧ ¬ FaultsWhen (.ldBVx 0) (s.setI 4093) ∧
    FaultsWhen (.ldMemVx 15) (s.setI 4081) ∧ ¬ FaultsWhen (.ldMemVx 15) (s.setI 4080) ∧
    FaultsWhen (.ldVxMem 15) (s.setI 4081) ∧ ¬ FaultsWhen (.ldVxMem 15) (s.setI 4080) ∧ ¬ FaultsWhen .cls s := by
  simp only [FaultsWhen]; decide

/-- FaultsExactlyWhenTabled: a fetch past the end, an instruction that faults, one that does not, an unknown opcode and a poll. -/
theorem witness_tabled_steps :
    (∃ t, step (State.reset.setPc 4095) = .next t) ∧ 4095 ≤ (State.reset.setPc 4095).pc.toNat ∧
    (start id 0x00EE).fetch = .ok 0x00EE ∧ decodeWord 0x00EE = .ok .ret ∧ FaultsWhen .ret (start id 0x00EE) ∧
    ¬ FaultsWhen .ret ((start id 0x00EE).setSp 1) ∧ decodeWord 0x8018 = .error (.unknownOpcode 0x8018) ∧
    waiting.mode = .waitingForKey 3 := by
  refine ⟨⟨_, rfl⟩, ?_⟩
  simp only [FaultsWhen]; decide

/-- EachInstructionChangesOnlyItsParts, RegistersAreWrittenAsTabled: an instruction that answers a next state, and a register it
may not write. -/
theorem witness_exec_answers : (∃ t, exec (.addVxVy 0 1) State.reset = .next t) ∧ ¬ MayWriteReg (.addVxVy 0 1) State.reset 2 :=
  ⟨⟨_, rfl⟩, by simp only [MayWriteReg]; decide⟩

/-- StaleStackEntriesAreUnobservable: a stack that differs at SP and agrees below it. -/
theorem witness_stale : (waiting.stack.set 1 0xABC) ≠ waiting.stack ∧
    ∀ j : Fin 16, j.val < waiting.sp.val → (waiting.stack.set 1 0xABC)[j] = waiting.stack[j] := by decide

/-- DumpedBytesAreFetchedNext: program P10, row 4. -/
theorem witness_dumped : let s := ((v01 0x63 0x2A State.reset).setI 0x208).setPc 0x206
    s.effAddr (1 : Reg).val < 4096 ∧ (1 : Reg).val = (0 : Reg).val + 1 ∧ (1 : Reg) ≤ 1 ∧ (s.pc + 2).toNat = s.effAddr (0 : Reg).val := by
  decide

/-- TickCountsDownAndBeepsOnce: both modes. -/
theorem witness_tick : State.reset.mode = .running ∧ waiting.mode = .waitingForKey 3 := by decide

/-- SetKeyWritesOneKey: the last key, and a step that answers a next state. -/
theorem witness_set_key : (15 : Nat) < 16 ∧ ∃ t, step waiting = .next t := ⟨by decide, _, rfl⟩

/-- RedrawIsClearedByTheHostOnly: a clear, a draw that fits, a reset, and an operation on a state with the flag set. -/
theorem witness_redraw : (∃ t, exec .cls State.reset = .next t) ∧
    (SpriteFits State.reset 0 0 0 ∧ ∃ t, exec (.drwVxVyN 0 0 0) State.reset = .next t) ∧
    (∃ t r, (Block.up State.reset).apply .reset = .next (t, r)) ∧
    (∃ t r, applyUp .tick State.reset = .next (t, r)) ∧ HostOp.tick ≠ .clearRedraw ∧ State.reset.redraw = true :=
  ⟨⟨_, rfl⟩, ⟨⟨fun r hr => absurd hr (Nat.not_lt_zero r), fun _ ⟨r, _, hr, _⟩ => absurd hr (Nat.not_lt_zero r)⟩, _, rfl⟩,
    ⟨_, _, rfl⟩, ⟨_, _, rfl⟩, by decide, by decide⟩

/-- ClockEdgeIsOneOperation: the first and the last code, none and unused; a `STEP` that draws and one that does not; a `TICK` of
a block not halted that finds ST at 1. The other clauses ask for a code alone, and each of the eight is one. -/
theorem witness_edge : let p (n : BitVec 3) : PinInput := { cmd := n, keyIdx := 15, keyVal := true, rnd := 0xFF, rom := [0x60] }
    ((p 0).cmd = 0 ∨ (p 0).cmd = 7) ∧ ((p 7).cmd = 0 ∨ (p 7).cmd = 7) ∧
    ((p 2).cmd = 2 ∧ RandomizesNext (start id 0xCFFF) 15 0xFF) ∧
    (∀ x nn, ¬ RandomizesNext (State.reset.halt .stackOverflow) x nn) ∧
    ((p 3).cmd = 3 ∧ (∀ e, (State.reset.setSt 1).mode ≠ .halted e) ∧ (State.reset.setSt 1).st.toNat = 1) := by
  refine ⟨.inl rfl, .inr rfl, ⟨rfl, rfl, by decide⟩, fun _ _ h => ?_, rfl, fun _ h => ?_, rfl⟩
  · cases h.1
  · cases h

/-- OnlyResetAndLoadBeforeTheFirstReset. -/
theorem witness_unreset : ¬ (HostOp.tick = .reset ∨ ∃ bytes, HostOp.tick = .load bytes) := by
  rintro (h | ⟨_, h⟩) <;> cases h

/-- ReturnPopsOrUnderflows: one entry, all sixteen, none. -/
theorem witness_return : (State.reset.setSp 1).sp.val = (0 : Fin 16).val + 1 ∧ (State.reset.setSp 16).sp.val = (15 : Fin 16).val + 1 ∧
    State.reset.sp.val = 0 := by decide

/-- CallPushesItsAddressOrOverflows, CallReturnRoundTrip: the last free entry, no free entry, the last instruction slot. -/
theorem witness_call : let s := (State.reset.setSp 15).setPc 4094
    s.pc.toNat ≤ 4094 ∧ s.sp.val < 16 ∧ (State.reset.setSp 16).sp.val = 16 ∧
    (let t := s.setSp 16; t.sp = t.sp ∧ ∀ d : Fin 16, d.val = s.sp.val → t.stack[d] = t.stack[d]) := by decide

/-- AddWithCarryOut, SubtractBothWays, ShiftsByOne: a destination other than VF, next to VF. -/
theorem witness_not_vf : (14 : Reg) ≠ vf := by decide

/-- A one-row sprite at (56, 31), over the last eight pixels, fits. -/
theorem fits_last : SpriteFits (v01 56 31 State.reset) 0 1 1 := by
  refine ⟨fun r hr => ?_, ?_⟩
  · have : r = 0 := Nat.lt_one_iff.1 hr
    subst this; decide
  · rintro p ⟨r, c, hr, hc, -, rfl⟩
    have : r = 0 := Nat.lt_one_iff.1 hr
    subst this
    show (31 + 0) * 64 + (56 + c) < 2048
    omega

/-- DrawIsTheCompositor: a sprite that fits with a pixel in it, one off by a row (T45-09), one whose second row is past memory
(T45-11), and pixels of both values under it. -/
theorem witness_draw : SpriteFits (v01 56 31 State.reset) 0 1 1 ∧ SpritePixel (v01 56 31 State.reset) 0 1 1 2040 ∧
    ¬ SpriteFits (v01 0 32 State.reset) 0 1 1 ∧ ¬ SpriteFits (State.reset.setI 4095) 0 1 2 ∧
    pixel (State.reset.setFb (setPixel State.reset.fb 2040 true)).fb 2040 = true := by
  refine ⟨fits_last, ⟨0, 0, by decide, by decide, by decide, by decide⟩, fun h => ?_, fun h => ?_, by decide⟩
  · exact absurd (h.2 2048 ⟨0, 0, by decide, by decide, by decide, by decide⟩) (by decide)
  · exact absurd (h.1 1 (by decide)) (by decide)

/-- DrawTwiceRestores: the coordinates are not VF; and with both in VF, a draw that leaves VF as it was: no row at all. -/
theorem witness_draw_twice : ((0 : Reg) ≠ vf ∧ (1 : Reg) ≠ vf) ∧ SpriteFits (v01 56 31 State.reset) 0 1 1 ∧
    SpriteFits State.reset vf vf 0 ∧ (next (start id 0xDFF0)).reg vf = (start id 0xDFF0).reg vf := by
  refine ⟨by decide, fits_last, ⟨fun r hr => absurd hr (Nat.not_lt_zero r), ?_⟩, by decide⟩
  rintro p ⟨r, c, hr, -⟩
  exact absurd hr (Nat.not_lt_zero r)

/-- KeySkips, FontAddress: both sides of the bound. -/
theorem witness_sixteen : ((State.reset.setReg 0 15).reg 0).toNat < 16 ∧ 16 ≤ ((State.reset.setReg 0 16).reg 0).toNat := by decide

/-- AddToIndex: both values of the parameter. -/
theorem witness_parameter : State.reset.config.fx1eSetsVF = true ∧
    (State.resetWith { defaultConfig with fx1eSetsVF := false }).config.fx1eSetsVF = false := by decide

/-- BcdStore: the last address at which it fits, and the next (T48-17, T48-18). -/
theorem witness_bcd : (State.reset.setI 0xFFD).effAddr 2 < 4096 ∧ 4096 ≤ (State.reset.setI 0xFFE).effAddr 2 := by decide

/-- RegisterDump, RegisterLoad: one register at the last byte, sixteen ending there, and one byte too far. -/
theorem witness_dump_load : (State.reset.setI 4095).effAddr (0 : Reg).val < 4096 ∧ (State.reset.setI 4080).effAddr (15 : Reg).val < 4096 ∧
    4096 ≤ (State.reset.setI 4096).effAddr (0 : Reg).val ∧ 4096 ≤ (State.reset.setI 4081).effAddr (15 : Reg).val := by decide

/-- EndedWellIsAFixedPoint: `12 00` at 0x200 (T40-07). -/
theorem witness_ended_well : EndedWell (start id 0x1200) := ⟨by decide, 0x200, by decide, by decide⟩

end Sys2Proof.Tests
end

/-! PROOFS. The redraw flag (10_state.md R22): what each operation does to it, from the effects of the instructions up to the
host's operations, and the statement that only the host clears it. -/

namespace Sys2Proof.Machine

/-! ### Instructions -/

/-- The flag at the end of an instruction that raises a fault exactly where `P` fails: a fault discards the step (R224), so only
the effect where `P` holds could move it. -/
theorem commit_redraw {P : Prop} {s t : State} {e : Except Raise State} (hok : P → ∃ u, e = .ok u ∧ u.redraw = s.redraw)
    (herr : ¬ P → ∃ r, e = .error r) (h : commit s e = .next t) : t.redraw = s.redraw := by
  by_cases hP : P
  · obtain ⟨u, rfl, hu⟩ := hok hP
    cases h; exact hu
  · obtain ⟨r, rfl⟩ := herr hP
    cases h; rfl

theorem exec_cls_redraw {s t : State} (h : exec .cls s = .next t) : t.redraw = true := by
  cases h; rfl

theorem exec_drwVxVyN_redraw_of_fits {x y : Reg} {n : Nibble} {s t : State} (hf : SpriteFits s x y n)
    (h : exec (.drwVxVyN x y n) s = .next t) : t.redraw = true := by
  have hc : commit s (effectDrwVxVyN x y n s) = .next t := h
  rw [effectDrwVxVyN_ok hf, commit_ok] at hc
  cases hc; rfl

/-- A draw that is out of range is discarded whole (R162). -/
theorem exec_drwVxVyN_redraw_of_not_fits {x y : Reg} {n : Nibble} {s t : State} (hf : ¬ SpriteFits s x y n)
    (h : exec (.drwVxVyN x y n) s = .next t) : t.redraw = s.redraw := by
  obtain ⟨a, he, -⟩ := effectDrwVxVyN_error hf
  have hc : commit s (effectDrwVxVyN x y n s) = .next t := h
  rw [he, commit_error] at hc
  cases hc; rfl

/-- Only 00E0 and DXYN have the flag in their footprint; every other instruction leaves it as it is. -/
theorem exec_redraw_unchanged {i : Instr} {s t : State} (hi : .redraw ∉ footprint i) (h : exec i s = .next t) :
    t.redraw = s.redraw := by
  cases i with
  | cls | drwVxVyN => simp [footprint] at hi
  | ret =>
    exact commit_redraw (fun hsp : 0 < s.sp.val => ⟨_, effectRet_ok hsp, rfl⟩)
      (fun hsp => ⟨_, effectRet_error (Nat.eq_zero_of_not_pos hsp)⟩) h
  | callNnn nnn =>
    exact commit_redraw (fun hsp : s.sp.val < 16 => ⟨_, effectCallNnn_ok nnn hsp, rfl⟩)
      (fun hsp => ⟨_, effectCallNnn_error nnn (Nat.eq_of_lt_succ_of_not_lt s.sp.isLt hsp)⟩) h
  | skpVx x =>
    exact commit_redraw (fun hx : (s.reg x).toNat < 16 => ⟨_, effectSkpVx_ok hx, State.skipIf_redraw s _⟩)
      (fun hx => ⟨_, effectSkpVx_error (Nat.not_lt.1 hx)⟩) h
  | sknpVx x =>
    exact commit_redraw (fun hx : (s.reg x).toNat < 16 => ⟨_, effectSknpVx_ok hx, State.skipIf_redraw s _⟩)
      (fun hx => ⟨_, effectSknpVx_error (Nat.not_lt.1 hx)⟩) h
  | ldFVx x =>
    exact commit_redraw (fun hx : (s.reg x).toNat < 16 => ⟨_, effectLdFVx_ok hx, rfl⟩)
      (fun hx => ⟨_, effectLdFVx_error (Nat.not_lt.1 hx)⟩) h
  | ldBVx x =>
    exact commit_redraw (fun ha : s.effAddr 2 < 4096 => ⟨_, effectLdBVx_ok ha, rfl⟩)
      (fun ha => ⟨_, effectLdBVx_error (Nat.not_lt.1 ha)⟩) h
  | ldMemVx x =>
    exact commit_redraw (fun ha : s.effAddr x.val < 4096 => ⟨_, effectLdMemVx_ok ha, rfl⟩)
      (fun ha => ⟨_, effectLdMemVx_error (Nat.not_lt.1 ha)⟩) h
  | ldVxMem x =>
    exact commit_redraw (fun ha : s.effAddr x.val < 4096 => ⟨_, effectLdVxMem_ok ha, rfl⟩)
      (fun ha => ⟨_, effectLdVxMem_error (Nat.not_lt.1 ha)⟩) h
  | seVxNn | sneVxNn | seVxVy | sneVxVy => cases h; exact State.skipIf_redraw s _
  | addIVx x =>
    cases h
    by_cases hc : s.config.fx1eSetsVF = true <;> simp [hc]
  | _ => cases h; rfl

theorem exec_keeps_redraw {i : Instr} {s t : State} (h : exec i s = .next t) (hr : s.redraw = true) : t.redraw = true := by
  cases i with
  | cls => exact exec_cls_redraw h
  | drwVxVyN x y n =>
    by_cases hf : SpriteFits s x y n
    · exact exec_drwVxVyN_redraw_of_fits hf h
    · exact (exec_drwVxVyN_redraw_of_not_fits hf h).trans hr
  | _ => exact (exec_redraw_unchanged (by simp [footprint]) h).trans hr

/-! ### The step and the host's operations -/

@[simp] theorem State.pollKeys_redraw (s : State) (x : Reg) : (s.pollKeys x).redraw = s.redraw := by
  rcases s.pollKeys_cases x with ⟨k, -, h⟩ | ⟨-, h⟩
  · rw [h]; rfl
  · rw [h]

theorem step_keeps_redraw {s t : State} (h : step s = .next t) (hr : s.redraw = true) : t.redraw = true := by
  rcases step_cases h with ⟨c, -, ho⟩ | ⟨x, -, ho⟩ | ⟨op, i, -, -, -, ho⟩ | ⟨op, w, -, -, -, ho⟩ | ⟨r, -, -, ho⟩
  · cases ho; exact hr
  · cases ho; exact (s.pollKeys_redraw x).trans hr
  · exact exec_keeps_redraw ho.symm hr
  · cases ho; exact hr
  · cases ho; exact hr

/-- What a `STEP` the host asks for leaves is what `step` leaves. -/
theorem step_of_applyUp_step {s t : State} {r : Reply} (h : applyUp .step s = .next (t, r)) : step s = .next t := by
  simp only [applyUp] at h
  cases hs : step s with
  | next u => rw [hs] at h; cases h; rfl
  | fault f => rw [hs] at h; cases h
  | refused q => rw [hs] at h; cases h

@[simp] theorem tick_redraw (s : State) : (tick s).redraw = s.redraw := by
  cases hm : s.mode <;> simp [tick, hm]

@[simp] theorem load_redraw (bytes : List Byte) (s : State) : (load bytes s).redraw = true := by
  unfold load
  split
  · rfl
  · rw [placeBytes_eq]; rfl

@[simp] theorem setKey_redraw (k : Fin 16) (p : Bool) (s : State) : (setKey k p s).redraw = s.redraw := rfl

@[simp] theorem Block.freshState_redraw (b : Block) : b.freshState.redraw = true := by
  cases b <;> rfl

/-- `RESET` is accepted whether or not the block has been reset before (R250). -/
theorem Block.apply_reset (b : Block) : b.apply .reset = .next (b.freshState, .none) := by
  cases b <;> rfl

theorem applyUp_keeps_redraw {op : HostOp} {s t : State} {r : Reply} (h : applyUp op s = .next (t, r))
    (hop : op ≠ .clearRedraw) (hr : s.redraw = true) : t.redraw = true := by
  cases op with
  | clearRedraw => exact absurd rfl hop
  | reset => cases h; rfl
  | load bytes => cases h; exact load_redraw bytes s
  | step => exact step_keeps_redraw (step_of_applyUp_step h) hr
  | tick => cases h; exact (tick_redraw s).trans hr
  | setKey k p =>
    simp only [applyUp] at h
    split at h <;> cases h
    exact hr
  | frameBuffer => cases h; exact hr

/-- Settles O30, by what each instruction and each host operation does to the flag. -/
theorem redrawIsClearedByTheHostOnly : Obligations.RedrawIsClearedByTheHostOnly := by
  refine ⟨fun _ _ => exec_cls_redraw, fun _ _ _ _ _ => exec_drwVxVyN_redraw_of_fits, fun b t r h => ?_,
    fun _ _ _ _ => applyUp_keeps_redraw, fun _ => rfl⟩
  cases b.apply_reset.symm.trans h
  exact b.freshState_redraw

end Sys2Proof.Machine

/-! PROOFS. The opcode map (30_encoding.md R63, R64): a word the decoder reads as an instruction is that instruction's word, and a
word that matches a row is read as an instruction of that row. -/

namespace Sys2Proof.Laws

/-! ### What a word's instruction says of the word -/

/-- Every instruction's word is a word of its own row, and its row is one of the 34. -/
theorem row_statement : ∀ i : Instr, Row.Statement i
  | .cls => Row.cls | .ret => Row.ret | .jpNnn _ => Row.jpNnn _ | .callNnn _ => Row.callNnn _
  | .seVxNn _ _ => Row.seVxNn _ _ | .sneVxNn _ _ => Row.sneVxNn _ _ | .seVxVy _ _ => Row.seVxVy _ _
  | .ldVxNn _ _ => Row.ldVxNn _ _ | .addVxNn _ _ => Row.addVxNn _ _ | .ldVxVy _ _ => Row.ldVxVy _ _
  | .orVxVy _ _ => Row.orVxVy _ _ | .andVxVy _ _ => Row.andVxVy _ _ | .xorVxVy _ _ => Row.xorVxVy _ _
  | .addVxVy _ _ => Row.addVxVy _ _ | .subVxVy _ _ => Row.subVxVy _ _ | .shrVx _ _ => Row.shrVx _ _
  | .subnVxVy _ _ => Row.subnVxVy _ _ | .shlVx _ _ => Row.shlVx _ _ | .sneVxVy _ _ => Row.sneVxVy _ _
  | .ldINnn _ => Row.ldINnn _ | .jpV0Nnn _ => Row.jpV0Nnn _ | .rndVxNn _ _ => Row.rndVxNn _ _
  | .drwVxVyN _ _ _ => Row.drwVxVyN _ _ _ | .skpVx _ => Row.skpVx _ | .sknpVx _ => Row.sknpVx _
  | .ldVxDt _ => Row.ldVxDt _ | .ldVxK _ => Row.ldVxK _ | .ldDtVx _ => Row.ldDtVx _ | .ldStVx _ => Row.ldStVx _
  | .addIVx _ => Row.addIVx _ | .ldFVx _ => Row.ldFVx _ | .ldBVx _ => Row.ldBVx _ | .ldMemVx _ => Row.ldMemVx _
  | .ldVxMem _ => Row.ldVxMem _

theorem row_mem_opcodeRows (i : Instr) : i.row ∈ opcodeRows := (row_statement i).2

theorem wordFNNN_of_fields {op : Word} {f : Nibble} (hF : fieldF op = f) : wordFNNN f (fieldNNN op) = op :=
  hF ▸ wordFNNN_fields op

theorem wordFXNN_of_fields {op : Word} {f : Nibble} {nn : Byte} (hF : fieldF op = f) (hNN : fieldNN op = nn) :
    wordFXNN f (fieldX op) nn = op := by
  rw [← hF, ← hNN, wordFXNN_fields]

theorem wordFXYN_of_fields {op : Word} {f n : Nibble} (hF : fieldF op = f) (hN : fieldN op = n) :
    wordFXYN f (fieldX op) (fieldY op) n = op := by
  rw [← hF, ← hN, wordFXYN_fields]

theorem encode_of_decodeFamily0 {op : Word} {i : Instr} (h : decodeFamily0 op = .ok i) : encode i = op := by
  unfold decodeFamily0 at h
  repeat' split at h
  all_goals cases h
  all_goals next hop => exact hop.symm

theorem encode_of_decodeFamily5 {op : Word} {i : Instr} (hF : fieldF op = 5) (h : decodeFamily5 op = .ok i) :
    encode i = op := by
  unfold decodeFamily5 at h
  split at h <;> cases h
  next hN => exact wordFXYN_of_fields hF hN

theorem encode_of_decodeFamily8 {op : Word} {i : Instr} (hF : fieldF op = 8) (h : decodeFamily8 op = .ok i) :
    encode i = op := by
  unfold decodeFamily8 at h
  split at h <;> cases h
  all_goals next hN => exact wordFXYN_of_fields hF (BitVec.eq_of_toNat_eq hN)

theorem encode_of_decodeFamily9 {op : Word} {i : Instr} (hF : fieldF op = 9) (h : decodeFamily9 op = .ok i) :
    encode i = op := by
  unfold decodeFamily9 at h
  split at h <;> cases h
  next hN => exact wordFXYN_of_fields hF hN

theorem encode_of_decodeFamilyE {op : Word} {i : Instr} (hF : fieldF op = 0xE) (h : decodeFamilyE op = .ok i) :
    encode i = op := by
  unfold decodeFamilyE at h
  repeat' split at h
  all_goals cases h
  all_goals next hNN => exact wordFXNN_of_fields hF hNN

theorem encode_of_decodeFamilyF {op : Word} {i : Instr} (hF : fieldF op = 0xF) (h : decodeFamilyF op = .ok i) :
    encode i = op := by
  unfold decodeFamilyF at h
  repeat' split at h
  all_goals cases h
  all_goals next hNN => exact wordFXNN_of_fields hF hNN

/-- The last branch of the decoder is family F: no other number is left. -/
theorem encode_of_decodeWord {op : Word} {i : Instr} (h : decodeWord op = .ok i) : encode i = op := by
  unfold decodeWord at h
  split at h
  case h_1 => exact encode_of_decodeFamily0 h
  case h_6 hF => exact encode_of_decodeFamily5 (BitVec.eq_of_toNat_eq hF) h
  case h_9 hF => exact encode_of_decodeFamily8 (BitVec.eq_of_toNat_eq hF) h
  case h_10 hF => exact encode_of_decodeFamily9 (BitVec.eq_of_toNat_eq hF) h
  case h_15 hF => exact encode_of_decodeFamilyE (BitVec.eq_of_toNat_eq hF) h
  case h_16 =>
    have hF : (fieldF op).toNat = 15 := by
      have := (fieldF op).isLt
      simp only [imp_false] at *
      omega
    exact encode_of_decodeFamilyF (BitVec.eq_of_toNat_eq hF) h
  case h_14 hF => cases h; exact wordFXYN_of_fields (BitVec.eq_of_toNat_eq hF) rfl
  case h_2 hF | h_3 hF | h_11 hF | h_12 hF => cases h; exact wordFNNN_of_fields (BitVec.eq_of_toNat_eq hF)
  all_goals next hF => cases h; exact wordFXNN_of_fields (BitVec.eq_of_toNat_eq hF) rfl

theorem matchesRow_of_decodeWord {op : Word} {i : Instr} (h : decodeWord op = .ok i) : matchesRow op i.row = true :=
  encode_of_decodeWord h ▸ (row_statement i).1

/-- A refusal carries the word itself (R66). -/
theorem decodeWord_error_eq {op : Word} {w : DecodeWarning} (h : decodeWord op = .error w) : w = .unknownOpcode op := by
  simp only [decodeWord, decodeFamily0, decodeFamily5, decodeFamily8, decodeFamily9, decodeFamilyE, decodeFamilyF] at h
  repeat' split at h
  all_goals cases h
  all_goals rfl

/-! ### What a row says of the words that match it -/

theorem and_mask_F (op : Word) : op &&& 0xF000 = wordFNNN (fieldF op) 0 := by
  conv_lhs => rw [← wordFNNN_fields op]
  exact mask_FNNN _ _

theorem and_mask_FN (op : Word) : op &&& 0xF00F = wordFXYN (fieldF op) 0 0 (fieldN op) := by
  conv_lhs => rw [← wordFXYN_fields op]
  exact mask_FXYN _ _ _ _

theorem and_mask_FNN (op : Word) : op &&& 0xF0FF = wordFXNN (fieldF op) 0 (fieldNN op) := by
  conv_lhs => rw [← wordFXNN_fields op]
  exact mask_FXNN_sub _ _ _

theorem eq_of_matchesRow {op m : Word} (h : matchesRow op (0xFFFF, m) = true) : op = m := by
  have hm : op &&& BitVec.allOnes 16 = m := eq_of_beq h
  rwa [BitVec.and_allOnes] at hm

theorem fieldF_of_matchesRow {op m : Word} (h : matchesRow op (0xF000, m) = true) : fieldF op = fieldF m := by
  have hm : op &&& 0xF000 = m := eq_of_beq h
  rw [← hm, and_mask_F, fieldF_wordFNNN]

theorem fieldF_fieldN_of_matchesRow {op m : Word} (h : matchesRow op (0xF00F, m) = true) :
    fieldF op = fieldF m ∧ fieldN op = fieldN m := by
  have hm : op &&& 0xF00F = m := eq_of_beq h
  rw [← hm, and_mask_FN, fieldF_wordFXYN, fieldN_wordFXYN]
  exact ⟨rfl, rfl⟩

theorem fieldF_fieldNN_of_matchesRow {op m : Word} (h : matchesRow op (0xF0FF, m) = true) :
    fieldF op = fieldF m ∧ fieldNN op = fieldNN m := by
  have hm : op &&& 0xF0FF = m := eq_of_beq h
  rw [← hm, and_mask_FNN, fieldF_wordFXNN, fieldNN_wordFXNN]
  exact ⟨rfl, rfl⟩

/-- The decoder reads a word that matches an instruction's row as an instruction of that row: the row fixes the family and the
sub-code, which select the branch (R63). -/
theorem exists_decodeWord_of_matchesRow {op : Word} {i : Instr} (h : matchesRow op i.row = true) :
    ∃ j, decodeWord op = .ok j ∧ j.row = i.row := by
  cases i with
  | cls | ret => rw [eq_of_matchesRow h]; exact ⟨_, rfl, rfl⟩
  | seVxVy | sneVxVy | ldVxVy | orVxVy | andVxVy | xorVxVy | addVxVy | subVxVy | shrVx | subnVxVy | shlVx =>
    obtain ⟨hF, hN⟩ := fieldF_fieldN_of_matchesRow h
    simp only [decodeWord, decodeFamily5, decodeFamily8, decodeFamily9, hF, hN]
    exact ⟨_, rfl, rfl⟩
  | skpVx | sknpVx | ldVxDt | ldVxK | ldDtVx | ldStVx | addIVx | ldFVx | ldBVx | ldMemVx | ldVxMem =>
    obtain ⟨hF, hNN⟩ := fieldF_fieldNN_of_matchesRow h
    simp only [decodeWord, decodeFamilyE, decodeFamilyF, hF, hNN]
    exact ⟨_, rfl, rfl⟩
  | _ =>
    have hF := fieldF_of_matchesRow h
    simp only [decodeWord, hF]
    exact ⟨_, rfl, rfl⟩

theorem exists_decodeWord_iff_matchesRow {op : Word} {row : Word × Word} (hrow : row ∈ opcodeRows) :
    (∃ i, decodeWord op = .ok i ∧ i.row = row) ↔ matchesRow op row = true := by
  obtain ⟨i, -, rfl⟩ := List.mem_map.1 hrow
  exact ⟨fun ⟨_, hj, hr⟩ => hr ▸ matchesRow_of_decodeWord hj, exists_decodeWord_of_matchesRow⟩

/-! ### The opcode map -/

/-- Two rows a word matches are both the row of the instruction the word is read as. -/
theorem row_eq_of_matchesRow {op : Word} {p q : Word × Word} (hp : p ∈ opcodeRows) (hq : q ∈ opcodeRows)
    (hmp : matchesRow op p = true) (hmq : matchesRow op q = true) : p = q := by
  obtain ⟨i, hi, rfl⟩ := (exists_decodeWord_iff_matchesRow hp).2 hmp
  obtain ⟨j, hj, rfl⟩ := (exists_decodeWord_iff_matchesRow hq).2 hmq
  cases hi.symm.trans hj
  rfl

theorem nodup_opcodeRows : opcodeRows.Nodup := by decide

theorem opcodeRows_pairwise_disjoint :
    opcodeRows.Pairwise fun p q => ∀ op : Word, ¬ (matchesRow op p = true ∧ matchesRow op q = true) :=
  nodup_opcodeRows.imp_of_mem fun hp hq hne _ ⟨hmp, hmq⟩ => hne (row_eq_of_matchesRow hp hq hmp hmq)

theorem isInstruction_iff_matchesRow (op : Word) :
    (∃ i, decodeWord op = .ok i) ↔ ∃ row ∈ opcodeRows, matchesRow op row = true := by
  constructor
  · rintro ⟨i, h⟩
    exact ⟨i.row, row_mem_opcodeRows i, matchesRow_of_decodeWord h⟩
  · rintro ⟨row, hrow, hm⟩
    obtain ⟨i, hi, -⟩ := (exists_decodeWord_iff_matchesRow hrow).2 hm
    exact ⟨i, hi⟩

theorem decodeWord_of_matches_no_row {op : Word} (h : ∀ row ∈ opcodeRows, matchesRow op row = false) :
    decodeWord op = .error (.unknownOpcode op) := by
  cases hd : decodeWord op with
  | error w => rw [decodeWord_error_eq hd]
  | ok i =>
    have hm := matchesRow_of_decodeWord hd
    rw [h i.row (row_mem_opcodeRows i)] at hm
    cases hm

/-- Settles O8: a row fixes exactly the family and the sub-code that select its branch of the decoder, so the row of a word is
that of the instruction it is read as, and a word has at most one. -/
theorem decodeFollowsTheOpcodeMap : Obligations.DecodeFollowsTheOpcodeMap :=
  ⟨isInstruction_iff_matchesRow, fun _ _ => matchesRow_of_decodeWord, fun _ => decodeWord_of_matches_no_row, rfl,
    opcodeRows_pairwise_disjoint⟩

end Sys2Proof.Laws

/-! PROOFS. Frames compose: one update changes its own piece of the state, and updates one after the other change the pieces of
each. -/

namespace Sys2Proof.Machine

variable {s t u : State} {ps qs : List Part}

theorem OnlyChanges.mono (h : OnlyChanges ps s t) (hsub : ps ⊆ qs) : OnlyChanges qs s t :=
  fun p hp => h p fun hm => hp (hsub hm)

theorem Same.trans {p : Part} (hst : Same s t p) (htu : Same t u p) : Same s u p := by
  cases p with
  | v | mem => exact fun z => (htu z).trans (hst z)
  | _ => exact Eq.trans htu hst

theorem OnlyChanges.trans (hst : OnlyChanges ps s t) (htu : OnlyChanges qs t u) : OnlyChanges (ps ++ qs) s u :=
  fun p hp => (hst p fun h => hp (List.mem_append_left qs h)).trans (htu p fun h => hp (List.mem_append_right ps h))

theorem onlyChanges_setPc (s : State) (w : Word) : OnlyChanges [.pc] s (s.setPc w) := fun p hp => by
  cases p <;> simp_all [Same]

theorem onlyChanges_setSp (s : State) (n : Fin 17) : OnlyChanges [.sp] s (s.setSp n) := fun p hp => by
  cases p <;> simp_all [Same]

theorem onlyChanges_setStack (s : State) (k : Fin 16) (w : Word) : OnlyChanges [.stack] s (s.setStack k w) := fun p hp => by
  cases p <;> simp_all [Same]

theorem onlyChanges_setFb (s : State) (f : FrameBuffer) : OnlyChanges [.fb] s (s.setFb f) := fun p hp => by
  cases p <;> simp_all [Same]

theorem onlyChanges_setRedraw (s : State) (b : Bool) : OnlyChanges [.redraw] s (s.setRedraw b) := fun p hp => by
  cases p <;> simp_all [Same]

theorem onlyChanges_advance (s : State) (n : Nat) : OnlyChanges [.pc] s (s.advance n) := onlyChanges_setPc s _

end Sys2Proof.Machine

/-! PROOFS. Clear screen, return, jump, call (40_screen_and_subroutines.md R100 to R104). -/

namespace Sys2Proof.Laws

/-! ### The words of a jump and of a call (R61, R64) -/

theorem ofNat_eq_wordFNNN (f : Nibble) (nnn : Addr12) : BitVec.ofNat 16 (f.toNat * 0x1000 + nnn.toNat) = wordFNNN f nnn := by
  rw [← toNat_wordFNNN, BitVec.ofNat_toNat, BitVec.setWidth_eq]

theorem decodeWord_wordFNNN_1 (nnn : Addr12) : decodeWord (wordFNNN 1 nnn) = .ok (.jpNnn nnn) := by
  simp [decodeWord]

theorem decodeWord_wordFNNN_2 (nnn : Addr12) : decodeWord (wordFNNN 2 nnn) = .ok (.callNnn nnn) := by
  simp [decodeWord]

end Sys2Proof.Laws

namespace Sys2Proof.Machine

variable {s : State} {k : Fin 16}

theorem spells_jpNnn (nnn : Addr12) : Spells (0x1000 + nnn.toNat) (.jpNnn nnn) :=
  (congrArg decodeWord (Laws.ofNat_eq_wordFNNN 1 nnn)).trans (Laws.decodeWord_wordFNNN_1 nnn)

theorem spells_callNnn (nnn : Addr12) : Spells (0x2000 + nnn.toNat) (.callNnn nnn) :=
  (congrArg decodeWord (Laws.ofNat_eq_wordFNNN 2 nnn)).trans (Laws.decodeWord_wordFNNN_2 nnn)

/-! ### What the four instructions answer -/

@[simp] theorem toNat_addrOf (nnn : Addr12) : (addrOf nnn).toNat = nnn.toNat :=
  BitVec.toNat_setWidth_of_le (by decide)

theorem State.getElem_stack_setStack (s : State) (k j : Fin 16) (w : Word) :
    (s.setStack k w).stack[j] = if j.val = k.val then w else s.stack[j] := by
  simp only [State.setStack_stack, Fin.getElem_fin, Vector.getElem_set, eq_comm]

theorem exec_cls (s : State) : exec .cls s = .next (((s.setFb blankScreen).setRedraw true).advance 2) := rfl

theorem exec_jpNnn (nnn : Addr12) (s : State) : exec (.jpNnn nnn) s = .next (s.setPc (addrOf nnn)) := rfl

/-- With `k + 1` entries on the stack a return takes entry `k`. -/
theorem exec_ret_of_sp_eq_succ (h : s.sp = k.succ) :
    exec .ret s = .next ((s.setSp k.castSucc).setPc (s.stack[k] + 2)) := by
  have hval : s.sp.val = k.val + 1 := congrArg Fin.val h
  have he := effectRet_ok (s := s) (by omega)
  simp only [hval, Nat.add_sub_cancel] at he
  exact congrArg (commit s) he

theorem exec_ret_of_sp_eq_zero (h : s.sp.val = 0) : exec .ret s = .next (s.halt .stackUnderflow) :=
  congrArg (commit s) (effectRet_error h)

/-- With `k` entries on the stack a call writes entry `k`. -/
theorem exec_callNnn_of_sp_eq_castSucc (nnn : Addr12) (h : s.sp = k.castSucc) :
    exec (.callNnn nnn) s = .next (((s.setStack k s.pc).setSp k.succ).setPc (addrOf nnn)) := by
  have hval : s.sp.val = k.val := congrArg Fin.val h
  have he := effectCallNnn_ok nnn (s := s) (by omega)
  simp only [hval] at he
  exact congrArg (commit s) he

theorem exec_callNnn_of_sp_eq_sixteen (nnn : Addr12) (h : s.sp.val = 16) :
    exec (.callNnn nnn) s = .next (s.halt .stackOverflow) :=
  congrArg (commit s) (effectCallNnn_error nnn h)

/-! ### The statements -/

/-- Settles O38: the call pushes `P` as entry `d`, which the return takes at depth `d + 1`; with `P` an instruction's address
`P + 2` does not wrap. -/
theorem callReturnRoundTrip : Obligations.CallReturnRoundTrip := by
  intro nnn s hpc hsp
  let d : Fin 16 := ⟨s.sp.val, hsp⟩
  refine ⟨_, exec_callNnn_of_sp_eq_castSucc (k := d) nnn rfl, fun u hu hstack =>
    ⟨_, exec_ret_of_sp_eq_succ (k := d) hu, ?_, rfl⟩⟩
  have hentry : u.stack[d] = s.pc :=
    (hstack d rfl).trans ((s.getElem_stack_setStack d d s.pc).trans (if_pos rfl))
  rw [State.setPc_pc, hentry]
  bv_omega

/-- Settles O34: the screen is blanked whole, and the frame is that of the three writes. -/
theorem clearScreen : Obligations.ClearScreen :=
  ⟨rfl, fun s => ⟨_, exec_cls s, fun p _ => pixel_blankScreen p, rfl, rfl,
    ((onlyChanges_setFb s _).trans (onlyChanges_setRedraw _ true)).trans (onlyChanges_advance _ 2)⟩⟩

/-- Settles O35: the depth is `k + 1` for an entry `k`, or 0. -/
theorem returnPopsOrUnderflows : Obligations.ReturnPopsOrUnderflows := by
  refine ⟨rfl, fun s k hsp => ?_, fun s hsp => ?_⟩
  · exact ⟨_, exec_ret_of_sp_eq_succ (Fin.ext hsp), rfl, BitVec.toNat_add _ _,
      (onlyChanges_setSp s _).trans (onlyChanges_setPc _ _)⟩
  · exact ⟨exec_ret_of_sp_eq_zero hsp, congrArg raiseOf (effectRet_error hsp)⟩

/-- Settles O36: an address field is below 4096, so it is the new PC as it stands. -/
theorem jumpSetsPc : Obligations.JumpSetsPc := fun nnn =>
  ⟨spells_jpNnn nnn, fun s => ⟨_, exec_jpNnn nnn s, toNat_addrOf nnn, onlyChanges_setPc s _⟩⟩

/-- Settles O37: the depth is the number of the entry a call writes, or 16. -/
theorem callPushesItsAddressOrOverflows : Obligations.CallPushesItsAddressOrOverflows := by
  refine fun nnn => ⟨spells_callNnn nnn, fun s hsp => ?_, fun s hsp => ?_⟩
  · let d : Fin 16 := ⟨s.sp.val, hsp⟩
    have hframe := ((onlyChanges_setStack s d s.pc).trans (onlyChanges_setSp _ d.succ)).trans (onlyChanges_setPc _ (addrOf nnn))
    exact ⟨_, exec_callNnn_of_sp_eq_castSucc (k := d) nnn rfl, rfl, fun k => s.getElem_stack_setStack d k s.pc,
      toNat_addrOf nnn, hframe.mono (by decide)⟩
  · exact ⟨exec_callNnn_of_sp_eq_sixteen nnn hsp, congrArg raiseOf (effectCallNnn_error nnn hsp)⟩

end Sys2Proof.Machine

/-! PROOFS. The conditional skips on registers (41_skips.md R110 to R113). -/

namespace Sys2Proof.Laws

/-! ### The words of the four skips (R61, R64) -/

theorem ofNat_eq_wordFXNN (f : Nibble) (x : Reg) (nn : Byte) :
    BitVec.ofNat 16 (f.toNat * 0x1000 + x.val * 0x100 + nn.toNat) = wordFXNN f x nn := by
  rw [← toNat_wordFXNN, BitVec.ofNat_toNat, BitVec.setWidth_eq]

/-- The family and the sub-code `N` first, as one number, then the registers. -/
theorem ofNat_eq_wordFXYN (f : Nibble) (x y : Reg) (n : Nibble) :
    BitVec.ofNat 16 (f.toNat * 0x1000 + n.toNat + x.val * 0x100 + y.val * 0x10) = wordFXYN f x y n := by
  have hw : f.toNat * 0x1000 + n.toNat + x.val * 0x100 + y.val * 0x10 = (wordFXYN f x y n).toNat := by
    rw [toNat_wordFXYN]; omega
  rw [hw, BitVec.ofNat_toNat, BitVec.setWidth_eq]

theorem decodeWord_wordFXNN_3 (x : Reg) (nn : Byte) : decodeWord (wordFXNN 3 x nn) = .ok (.seVxNn x nn) := by
  simp [decodeWord]

theorem decodeWord_wordFXNN_4 (x : Reg) (nn : Byte) : decodeWord (wordFXNN 4 x nn) = .ok (.sneVxNn x nn) := by
  simp [decodeWord]

theorem decodeWord_wordFXYN_5 (x y : Reg) : decodeWord (wordFXYN 5 x y 0) = .ok (.seVxVy x y) := by
  simp [decodeWord, decodeFamily5]

theorem decodeWord_wordFXYN_9 (x y : Reg) : decodeWord (wordFXYN 9 x y 0) = .ok (.sneVxVy x y) := by
  simp [decodeWord, decodeFamily9]

end Sys2Proof.Laws

namespace Sys2Proof.Machine

theorem spells_seVxNn (x : Reg) (nn : Byte) : Spells (0x3000 + x.val * 0x100 + nn.toNat) (.seVxNn x nn) :=
  (congrArg decodeWord (Laws.ofNat_eq_wordFXNN 3 x nn)).trans (Laws.decodeWord_wordFXNN_3 x nn)

theorem spells_sneVxNn (x : Reg) (nn : Byte) : Spells (0x4000 + x.val * 0x100 + nn.toNat) (.sneVxNn x nn) :=
  (congrArg decodeWord (Laws.ofNat_eq_wordFXNN 4 x nn)).trans (Laws.decodeWord_wordFXNN_4 x nn)

theorem spells_seVxVy (x y : Reg) : Spells (0x5000 + x.val * 0x100 + y.val * 0x10) (.seVxVy x y) :=
  (congrArg decodeWord (Laws.ofNat_eq_wordFXYN 5 x y 0)).trans (Laws.decodeWord_wordFXYN_5 x y)

theorem spells_sneVxVy (x y : Reg) : Spells (0x9000 + x.val * 0x100 + y.val * 0x10) (.sneVxVy x y) :=
  (congrArg decodeWord (Laws.ofNat_eq_wordFXYN 9 x y 0)).trans (Laws.decodeWord_wordFXYN_9 x y)

/-! ### What a skip answers -/

theorem exec_seVxNn (x : Reg) (nn : Byte) (s : State) : exec (.seVxNn x nn) s = .next (s.skipIf (s.reg x == nn)) := rfl

theorem exec_sneVxNn (x : Reg) (nn : Byte) (s : State) : exec (.sneVxNn x nn) s = .next (s.skipIf (s.reg x != nn)) := rfl

theorem exec_seVxVy (x y : Reg) (s : State) : exec (.seVxVy x y) s = .next (s.skipIf (s.reg x == s.reg y)) := rfl

theorem exec_sneVxVy (x y : Reg) (s : State) : exec (.sneVxVy x y) s = .next (s.skipIf (s.reg x != s.reg y)) := rfl

theorem onlyChanges_skipIf (s : State) (c : Bool) : OnlyChanges [.pc] s (s.skipIf c) := by
  cases c
  · exact onlyChanges_advance s 2
  · exact onlyChanges_advance s 4

theorem State.skipIf_pc_of_iff {c : Bool} {P : Prop} [Decidable P] (s : State) (hc : c = true ↔ P) :
    (s.skipIf c).pc = s.pc + (if P then 4 else 2) := by
  simp only [State.skipIf_pc, hc]

/-- An instruction that ends in a skip on `c` moves PC by 4 or 2 as the condition `c` tests holds or not, and nothing else. -/
theorem exists_next_of_exec_eq_skipIf {i : Instr} {s : State} {c : Bool} {P : Prop} [Decidable P]
    (hi : exec i s = .next (s.skipIf c)) (hc : c = true ↔ P) :
    ∃ t, exec i s = .next t ∧ t.pc = s.pc + (if P then 4 else 2) ∧ OnlyChanges [.pc] s t :=
  ⟨_, hi, s.skipIf_pc_of_iff hc, onlyChanges_skipIf s c⟩

/-- Settles O39: each of the four is a skip on the equality of two bytes, or on its negation. -/
theorem registerSkips : Obligations.RegisterSkips := fun x y nn =>
  ⟨spells_seVxNn x nn, spells_sneVxNn x nn, spells_seVxVy x y, spells_sneVxVy x y, fun s =>
    ⟨exists_next_of_exec_eq_skipIf (exec_seVxNn x nn s) beq_iff_eq,
      exists_next_of_exec_eq_skipIf (exec_sneVxNn x nn s) bne_iff_ne,
      exists_next_of_exec_eq_skipIf (exec_seVxVy x y s) beq_iff_eq,
      exists_next_of_exec_eq_skipIf (exec_sneVxVy x y s) bne_iff_ne⟩⟩

end Sys2Proof.Machine

/-! PROOFS. Load immediate and add immediate (42_immediate.md R120, R121). -/

namespace Sys2Proof.Laws

/-! ### The words of the two (R61, R64) -/

theorem decodeWord_wordFXNN_6 (x : Reg) (nn : Byte) : decodeWord (wordFXNN 6 x nn) = .ok (.ldVxNn x nn) := by
  simp [decodeWord]

theorem decodeWord_wordFXNN_7 (x : Reg) (nn : Byte) : decodeWord (wordFXNN 7 x nn) = .ok (.addVxNn x nn) := by
  simp [decodeWord]

end Sys2Proof.Laws

namespace Sys2Proof.Machine

theorem spells_ldVxNn (x : Reg) (nn : Byte) : Spells (0x6000 + x.val * 0x100 + nn.toNat) (.ldVxNn x nn) :=
  (congrArg decodeWord (Laws.ofNat_eq_wordFXNN 6 x nn)).trans (Laws.decodeWord_wordFXNN_6 x nn)

theorem spells_addVxNn (x : Reg) (nn : Byte) : Spells (0x7000 + x.val * 0x100 + nn.toNat) (.addVxNn x nn) :=
  (congrArg decodeWord (Laws.ofNat_eq_wordFXNN 7 x nn)).trans (Laws.decodeWord_wordFXNN_7 x nn)

/-! ### What an instruction that writes one register answers -/

theorem onlyReg_setReg (s : State) (x : Reg) (b : Byte) : OnlyReg x s (s.setReg x b) :=
  fun _ hz => s.reg_setReg_other hz b

theorem onlyChanges_setReg (s : State) (x : Reg) (b : Byte) : OnlyChanges [.v] s (s.setReg x b) := fun p hp => by
  cases p <;> simp_all [Same]

/-- An instruction that writes `b` to VX and then advances PC by 2 changes nothing else. -/
theorem exists_next_of_exec_eq_setReg {i : Instr} {s : State} {x : Reg} {b : Byte}
    (hi : exec i s = .next ((s.setReg x b).advance 2)) :
    ∃ t, exec i s = .next t ∧ t.reg x = b ∧ t.pc = s.pc + 2 ∧ OnlyReg x s t ∧ OnlyChanges [.v, .pc] s t :=
  ⟨_, hi, s.reg_setReg_same x b, rfl, onlyReg_setReg s x b,
    (onlyChanges_setReg s x b).trans (onlyChanges_advance _ 2)⟩

theorem exec_ldVxNn (x : Reg) (nn : Byte) (s : State) : exec (.ldVxNn x nn) s = .next ((s.setReg x nn).advance 2) := rfl

theorem exec_addVxNn (x : Reg) (nn : Byte) (s : State) :
    exec (.addVxNn x nn) s = .next ((s.setReg x (addResult (s.reg x) nn)).advance 2) := rfl

theorem toNat_addResult (a b : Byte) : (addResult a b).toNat = (a.toNat + b.toNat) % 256 := BitVec.toNat_ofNat _ 8

/-! ### The statements -/

/-- Settles O40: the one register write is that of the immediate. -/
theorem loadImmediate : Obligations.LoadImmediate := fun x nn =>
  ⟨spells_ldVxNn x nn, fun s => exists_next_of_exec_eq_setReg (exec_ldVxNn x nn s)⟩

/-- Settles O41: the one register write is that of the sum, which wraps; no flag is written. -/
theorem addImmediateWraps : Obligations.AddImmediateWraps := by
  refine fun x nn => ⟨spells_addVxNn x nn, fun s => ?_⟩
  obtain ⟨t, hexec, hx, hpc, hreg, hframe⟩ := exists_next_of_exec_eq_setReg (exec_addVxNn x nn s)
  have hsum : (t.reg x).toNat = ((s.reg x).toNat + nn.toNat) % 256 :=
    (congrArg BitVec.toNat hx).trans (toNat_addResult (s.reg x) nn)
  exact ⟨t, hexec, hsum, hpc, hreg, hframe⟩

end Sys2Proof.Machine

/-! PROOFS. The register-to-register ALU operations (43_alu.md R130 to R140). -/

namespace Sys2Proof.Laws

/-! ### The words of family 8 (R61, R64) -/

theorem decodeWord_wordFXYN_8 (x y : Reg) (n : Nibble) :
    decodeWord (wordFXYN 8 x y n) = decodeFamily8 (wordFXYN 8 x y n) := by
  simp [decodeWord]

end Sys2Proof.Laws

namespace Sys2Proof.Machine

/-- A word of family 8 reads as what its sub-code `n` makes of the two register fields. -/
theorem spells_of_decodeFamily8 {x y : Reg} {n : Nibble} {i : Instr} (h : decodeFamily8 (wordFXYN 8 x y n) = .ok i) :
    Spells (0x8 * 0x1000 + n.toNat + x.val * 0x100 + y.val * 0x10) i :=
  (congrArg decodeWord (Laws.ofNat_eq_wordFXYN 8 x y n)).trans ((Laws.decodeWord_wordFXYN_8 x y n).trans h)

theorem spells_ldVxVy (x y : Reg) : Spells (0x8000 + x.val * 0x100 + y.val * 0x10) (.ldVxVy x y) :=
  spells_of_decodeFamily8 (n := 0) (by simp [decodeFamily8])

theorem spells_orVxVy (x y : Reg) : Spells (0x8001 + x.val * 0x100 + y.val * 0x10) (.orVxVy x y) :=
  spells_of_decodeFamily8 (n := 1) (by simp [decodeFamily8])

theorem spells_andVxVy (x y : Reg) : Spells (0x8002 + x.val * 0x100 + y.val * 0x10) (.andVxVy x y) :=
  spells_of_decodeFamily8 (n := 2) (by simp [decodeFamily8])

theorem spells_xorVxVy (x y : Reg) : Spells (0x8003 + x.val * 0x100 + y.val * 0x10) (.xorVxVy x y) :=
  spells_of_decodeFamily8 (n := 3) (by simp [decodeFamily8])

theorem spells_addVxVy (x y : Reg) : Spells (0x8004 + x.val * 0x100 + y.val * 0x10) (.addVxVy x y) :=
  spells_of_decodeFamily8 (n := 4) (by simp [decodeFamily8])

theorem spells_subVxVy (x y : Reg) : Spells (0x8005 + x.val * 0x100 + y.val * 0x10) (.subVxVy x y) :=
  spells_of_decodeFamily8 (n := 5) (by simp [decodeFamily8])

theorem spells_shrVx (x y : Reg) : Spells (0x8006 + x.val * 0x100 + y.val * 0x10) (.shrVx x y) :=
  spells_of_decodeFamily8 (n := 6) (by simp [decodeFamily8])

theorem spells_subnVxVy (x y : Reg) : Spells (0x8007 + x.val * 0x100 + y.val * 0x10) (.subnVxVy x y) :=
  spells_of_decodeFamily8 (n := 7) (by simp [decodeFamily8])

theorem spells_shlVx (x y : Reg) : Spells (0x800E + x.val * 0x100 + y.val * 0x10) (.shlVx x y) :=
  spells_of_decodeFamily8 (n := 0xE) (by simp [decodeFamily8])

/-! ### Results and flags as numbers (R134 to R138) -/

theorem toNat_flagByte (b : Bool) : (flagByte b).toNat = b.toNat := by
  cases b <;> rfl

theorem toNat_flagByte_decide (P : Prop) [Decidable P] : (flagByte (decide P)).toNat = if P then 1 else 0 := by
  by_cases h : P <;> simp [h, flagByte]

theorem toNat_carryFlag (a b : Byte) : (carryFlag a b).toNat = if a.toNat + b.toNat > 255 then 1 else 0 :=
  toNat_flagByte_decide _

theorem toNat_noBorrowFlag (a b : Byte) : (noBorrowFlag a b).toNat = if b.toNat > a.toNat then 0 else 1 := by
  rw [noBorrowFlag, ← decide_not, toNat_flagByte_decide, ite_not]

/-- The bias 256 keeps the natural subtraction exact and drops out of the residue. -/
theorem toNat_subResult (a b : Byte) : ((subResult a b).toNat : Int) = ((a.toNat : Int) - (b.toNat : Int)) % 256 := by
  have hb : b.toNat < 256 := b.isLt
  rw [subResult, BitVec.toNat_ofNat]
  omega

theorem toNat_shrResult (a : Byte) : (shrResult a).toNat = a.toNat / 2 := by
  have ha : a.toNat < 256 := a.isLt
  rw [shrResult, BitVec.toNat_ofNat]
  omega

theorem toNat_shrFlag (a : Byte) : (shrFlag a).toNat = a.toNat % 2 := by
  rw [shrFlag, toNat_flagByte, BitVec.getLsbD, Nat.toNat_testBit, pow_zero, Nat.div_one]

theorem toNat_shlResult (a : Byte) : (shlResult a).toNat = a.toNat * 2 % 256 := BitVec.toNat_ofNat _ 8

theorem toNat_shlFlag (a : Byte) : (shlFlag a).toNat = a.toNat / 128 := by
  have ha : a.toNat < 256 := a.isLt
  rw [shlFlag, toNat_flagByte, BitVec.getLsbD, Nat.toNat_testBit]
  omega

/-! ### What an instruction that writes a flag and a result answers -/

theorem onlyRegAndVf_writeFlagged (s : State) (x : Reg) (f b : Byte) : OnlyRegAndVf x s (s.writeFlagged x f b) :=
  fun _ hx hf => s.reg_writeFlagged_other hx hf f b

theorem onlyChanges_writeFlagged (s : State) (x : Reg) (f b : Byte) : OnlyChanges [.v] s (s.writeFlagged x f b) :=
  ((onlyChanges_setReg s vf f).trans (onlyChanges_setReg _ x b)).mono (by decide)

/-- An instruction that writes the flag `f` to VF, then the result `b` to VX, and advances PC by 2 changes nothing else. -/
theorem exists_next_of_exec_eq_writeFlagged {i : Instr} {s : State} {x : Reg} {f b : Byte}
    (hi : exec i s = .next ((s.writeFlagged x f b).advance 2)) :
    ∃ t, exec i s = .next t ∧ t.reg x = b ∧ (x ≠ vf → t.reg vf = f) ∧ t.pc = s.pc + 2 ∧ OnlyRegAndVf x s t ∧
      OnlyChanges [.v, .pc] s t :=
  ⟨_, hi, s.reg_writeFlagged_dest x f b, fun hx => s.reg_writeFlagged_vf hx f b, rfl, onlyRegAndVf_writeFlagged s x f b,
    (onlyChanges_writeFlagged s x f b).trans (onlyChanges_advance _ 2)⟩

/-- The same with the result and the flag given by their values. -/
theorem exists_next_toNat_of_exec_eq_writeFlagged {i : Instr} {s : State} {x : Reg} {f b : Byte} {n m : Nat}
    (hi : exec i s = .next ((s.writeFlagged x f b).advance 2)) (hb : b.toNat = n) (hf : f.toNat = m) :
    ∃ t, exec i s = .next t ∧ (t.reg x).toNat = n ∧ (x ≠ vf → (t.reg vf).toNat = m) ∧ t.pc = s.pc + 2 ∧
      OnlyRegAndVf x s t ∧ OnlyChanges [.v, .pc] s t := by
  obtain ⟨t, hexec, hx, hvf, hframe⟩ := exists_next_of_exec_eq_writeFlagged hi
  exact ⟨t, hexec, by rw [hx, hb], fun hne => by rw [hvf hne, hf], hframe⟩

/-- The subtraction `a - b` into VX, for either order of the operands: R135 and R137 are its two uses. -/
theorem exists_next_of_exec_eq_subResult {i : Instr} {s : State} {x : Reg} {a b : Byte}
    (hi : exec i s = .next ((s.writeFlagged x (noBorrowFlag a b) (subResult a b)).advance 2)) :
    ∃ t, exec i s = .next t ∧ ((t.reg x).toNat : Int) = ((a.toNat : Int) - (b.toNat : Int)) % 256 ∧
      (x ≠ vf → (t.reg vf).toNat = if b.toNat > a.toNat then 0 else 1) ∧ t.pc = s.pc + 2 ∧
      OnlyRegAndVf x s t ∧ OnlyChanges [.v, .pc] s t := by
  obtain ⟨t, hexec, hx, hvf, hframe⟩ := exists_next_of_exec_eq_writeFlagged hi
  exact ⟨t, hexec, by rw [hx, toNat_subResult], fun hne => by rw [hvf hne, toNat_noBorrowFlag], hframe⟩

theorem exec_ldVxVy (x y : Reg) (s : State) : exec (.ldVxVy x y) s = .next ((s.setReg x (s.reg y)).advance 2) := rfl

theorem exec_orVxVy (x y : Reg) (s : State) :
    exec (.orVxVy x y) s = .next ((s.setReg x (s.reg x ||| s.reg y)).advance 2) := rfl

theorem exec_andVxVy (x y : Reg) (s : State) :
    exec (.andVxVy x y) s = .next ((s.setReg x (s.reg x &&& s.reg y)).advance 2) := rfl

theorem exec_xorVxVy (x y : Reg) (s : State) :
    exec (.xorVxVy x y) s = .next ((s.setReg x (s.reg x ^^^ s.reg y)).advance 2) := rfl

theorem exec_addVxVy (x y : Reg) (s : State) : exec (.addVxVy x y) s =
    .next ((s.writeFlagged x (carryFlag (s.reg x) (s.reg y)) (addResult (s.reg x) (s.reg y))).advance 2) := rfl

theorem exec_subVxVy (x y : Reg) (s : State) : exec (.subVxVy x y) s =
    .next ((s.writeFlagged x (noBorrowFlag (s.reg x) (s.reg y)) (subResult (s.reg x) (s.reg y))).advance 2) := rfl

theorem exec_subnVxVy (x y : Reg) (s : State) : exec (.subnVxVy x y) s =
    .next ((s.writeFlagged x (noBorrowFlag (s.reg y) (s.reg x)) (subResult (s.reg y) (s.reg x))).advance 2) := rfl

theorem exec_shrVx (x y : Reg) (s : State) :
    exec (.shrVx x y) s = .next ((s.writeFlagged x (shrFlag (s.reg x)) (shrResult (s.reg x))).advance 2) := rfl

theorem exec_shlVx (x y : Reg) (s : State) :
    exec (.shlVx x y) s = .next ((s.writeFlagged x (shlFlag (s.reg x)) (shlResult (s.reg x))).advance 2) := rfl

/-! ### The statements -/

/-- Settles O42: each writes one register, VX, and no flag; the written byte read bit by bit. -/
theorem assignAndBitwise : Obligations.AssignAndBitwise := by
  refine fun x y => ⟨spells_ldVxVy x y, spells_orVxVy x y, spells_andVxVy x y, spells_xorVxVy x y, fun s =>
    ⟨exists_next_of_exec_eq_setReg (exec_ldVxVy x y s), ?or, ?and, ?xor⟩⟩
  case or =>
    obtain ⟨t, hexec, hx, hframe⟩ := exists_next_of_exec_eq_setReg (exec_orVxVy x y s)
    exact ⟨t, hexec, fun k => by rw [hx, BitVec.getLsbD_or], hframe⟩
  case and =>
    obtain ⟨t, hexec, hx, hframe⟩ := exists_next_of_exec_eq_setReg (exec_andVxVy x y s)
    exact ⟨t, hexec, fun k => by rw [hx, BitVec.getLsbD_and], hframe⟩
  case xor =>
    obtain ⟨t, hexec, hx, hframe⟩ := exists_next_of_exec_eq_setReg (exec_xorVxVy x y s)
    exact ⟨t, hexec, fun k => by rw [hx, BitVec.getLsbD_xor], hframe⟩

/-- Settles O43: the carry goes to VF first and the sum to VX second. -/
theorem addWithCarryOut : Obligations.AddWithCarryOut := fun x y => ⟨spells_addVxVy x y, fun s =>
  exists_next_toNat_of_exec_eq_writeFlagged (exec_addVxVy x y s) (toNat_addResult _ _) (toNat_carryFlag _ _)⟩

/-- Settles O44: the two are one subtraction, with the operands exchanged. -/
theorem subtractBothWays : Obligations.SubtractBothWays := fun x y =>
  ⟨spells_subVxVy x y, spells_subnVxVy x y, fun s =>
    ⟨exists_next_of_exec_eq_subResult (exec_subVxVy x y s), exists_next_of_exec_eq_subResult (exec_subnVxVy x y s)⟩⟩

/-- Settles O45: neither shift reads VY, and the flag is the bit of VX that the shift drops. -/
theorem shiftsByOne : Obligations.ShiftsByOne := fun x y =>
  ⟨spells_shrVx x y, spells_shlVx x y, fun s =>
    ⟨exists_next_toNat_of_exec_eq_writeFlagged (exec_shrVx x y s) (toNat_shrResult _) (toNat_shrFlag _),
      exists_next_toNat_of_exec_eq_writeFlagged (exec_shlVx x y s) (toNat_shlResult _) (toNat_shlFlag _)⟩⟩

end Sys2Proof.Machine

/-! PROOFS. Set index and jump with offset (44_index_jump_random.md R150, R151). -/

namespace Sys2Proof.Laws

/-! ### The words of the two (R61, R64) -/

theorem decodeWord_wordFNNN_A (nnn : Addr12) : decodeWord (wordFNNN 0xA nnn) = .ok (.ldINnn nnn) := by
  simp [decodeWord]

theorem decodeWord_wordFNNN_B (nnn : Addr12) : decodeWord (wordFNNN 0xB nnn) = .ok (.jpV0Nnn nnn) := by
  simp [decodeWord]

end Sys2Proof.Laws

namespace Sys2Proof.Machine

theorem spells_ldINnn (nnn : Addr12) : Spells (0xA000 + nnn.toNat) (.ldINnn nnn) :=
  (congrArg decodeWord (Laws.ofNat_eq_wordFNNN 0xA nnn)).trans (Laws.decodeWord_wordFNNN_A nnn)

theorem spells_jpV0Nnn (nnn : Addr12) : Spells (0xB000 + nnn.toNat) (.jpV0Nnn nnn) :=
  (congrArg decodeWord (Laws.ofNat_eq_wordFNNN 0xB nnn)).trans (Laws.decodeWord_wordFNNN_B nnn)

/-! ### What the two instructions answer -/

theorem onlyChanges_setI (s : State) (w : Word) : OnlyChanges [.i] s (s.setI w) := fun p hp => by
  cases p <;> simp_all [Same]

theorem exec_ldINnn (nnn : Addr12) (s : State) : exec (.ldINnn nnn) s = .next ((s.setI (addrOf nnn)).advance 2) := rfl

theorem exec_jpV0Nnn (nnn : Addr12) (s : State) :
    exec (.jpV0Nnn nnn) s = .next (s.setPc (BitVec.ofNat 16 (nnn.toNat + (s.reg 0).toNat))) := rfl

/-- The largest target is 4095 + 255, far below the 65536 where PC would wrap. -/
theorem toNat_ofNat_addr_add_byte (nnn : Addr12) (b : Byte) :
    (BitVec.ofNat 16 (nnn.toNat + b.toNat)).toNat = nnn.toNat + b.toNat := by
  have hn : nnn.toNat < 4096 := nnn.isLt
  have hb : b.toNat < 256 := b.isLt
  exact (BitVec.toNat_ofNat _ 16).trans (Nat.mod_eq_of_lt (by omega))

/-! ### The statement -/

/-- Settles O46: an address field is the new I as it stands, and its sum with a byte fits PC unreduced. -/
theorem setIndexAndJumpWithOffset : Obligations.SetIndexAndJumpWithOffset := fun nnn =>
  ⟨spells_ldINnn nnn, spells_jpV0Nnn nnn, fun s =>
    ⟨⟨_, exec_ldINnn nnn s, toNat_addrOf nnn, rfl, (onlyChanges_setI s _).trans (onlyChanges_advance _ 2)⟩,
      ⟨_, exec_jpV0Nnn nnn s, toNat_ofNat_addr_add_byte nnn (s.reg 0), onlyChanges_setPc s _⟩⟩⟩

end Sys2Proof.Machine

/-! PROOFS. Wait for key (46_keys.md R172). -/

namespace Sys2Proof.Laws

/-! ### The words of family F (R61, R64) -/

theorem decodeWord_wordFXNN_F (x : Reg) (nn : Byte) :
    decodeWord (wordFXNN 0xF x nn) = decodeFamilyF (wordFXNN 0xF x nn) := by
  simp [decodeWord]

theorem decodeFamilyF_wordFXNN_0A (x : Reg) : decodeFamilyF (wordFXNN 0xF x 0x0A) = .ok (.ldVxK x) := by
  simp [decodeFamilyF]

end Sys2Proof.Laws

namespace Sys2Proof.Machine

/-- A word of family F reads as what its low byte `nn` makes of the register field; the byte stands before the field, as the
obligations write the words. -/
theorem spells_of_decodeFamilyF {x : Reg} {nn : Byte} {i : Instr} (h : decodeFamilyF (wordFXNN 0xF x nn) = .ok i) :
    Spells (0xF * 0x1000 + nn.toNat + x.val * 0x100) i := by
  have hw : BitVec.ofNat 16 (0xF * 0x1000 + nn.toNat + x.val * 0x100) = wordFXNN 0xF x nn := by
    rw [Nat.add_right_comm]
    exact Laws.ofNat_eq_wordFXNN 0xF x nn
  exact (congrArg decodeWord hw).trans ((Laws.decodeWord_wordFXNN_F x nn).trans h)

theorem spells_ldVxK (x : Reg) : Spells (0xF00A + x.val * 0x100) (.ldVxK x) :=
  spells_of_decodeFamilyF (nn := 0x0A) (Laws.decodeFamilyF_wordFXNN_0A x)

/-! ### What it answers -/

theorem exec_ldVxK (x : Reg) (s : State) : exec (.ldVxK x) s = .next (s.setMode (.waitingForKey x)) := rfl

/-! ### The statement -/

/-- Settles O51: the step that starts the wait is one write of MODE. -/
theorem waitForKeyStartsTheWait : Obligations.WaitForKeyStartsTheWait := fun x =>
  ⟨spells_ldVxK x, exec_ldVxK x⟩

end Sys2Proof.Machine

/-! PROOFS. Timer access (47_timers.md R180 to R182). -/

namespace Sys2Proof.Laws

/-! ### The sub-codes of the three in family F (R61, R64) -/

theorem decodeFamilyF_wordFXNN_07 (x : Reg) : decodeFamilyF (wordFXNN 0xF x 0x07) = .ok (.ldVxDt x) := by
  simp [decodeFamilyF]

theorem decodeFamilyF_wordFXNN_15 (x : Reg) : decodeFamilyF (wordFXNN 0xF x 0x15) = .ok (.ldDtVx x) := by
  simp [decodeFamilyF]

theorem decodeFamilyF_wordFXNN_18 (x : Reg) : decodeFamilyF (wordFXNN 0xF x 0x18) = .ok (.ldStVx x) := by
  simp [decodeFamilyF]

end Sys2Proof.Laws

namespace Sys2Proof.Machine

theorem spells_ldVxDt (x : Reg) : Spells (0xF007 + x.val * 0x100) (.ldVxDt x) :=
  spells_of_decodeFamilyF (nn := 0x07) (Laws.decodeFamilyF_wordFXNN_07 x)

theorem spells_ldDtVx (x : Reg) : Spells (0xF015 + x.val * 0x100) (.ldDtVx x) :=
  spells_of_decodeFamilyF (nn := 0x15) (Laws.decodeFamilyF_wordFXNN_15 x)

theorem spells_ldStVx (x : Reg) : Spells (0xF018 + x.val * 0x100) (.ldStVx x) :=
  spells_of_decodeFamilyF (nn := 0x18) (Laws.decodeFamilyF_wordFXNN_18 x)

/-! ### What the three instructions answer -/

theorem onlyChanges_setDt (s : State) (b : Byte) : OnlyChanges [.dt] s (s.setDt b) := fun p hp => by
  cases p <;> simp_all [Same]

theorem onlyChanges_setSt (s : State) (b : Byte) : OnlyChanges [.st] s (s.setSt b) := fun p hp => by
  cases p <;> simp_all [Same]

theorem exec_ldVxDt (x : Reg) (s : State) : exec (.ldVxDt x) s = .next ((s.setReg x s.dt).advance 2) := rfl

theorem exec_ldDtVx (x : Reg) (s : State) : exec (.ldDtVx x) s = .next ((s.setDt (s.reg x)).advance 2) := rfl

theorem exec_ldStVx (x : Reg) (s : State) : exec (.ldStVx x) s = .next ((s.setSt (s.reg x)).advance 2) := rfl

/-! ### The statement -/

/-- Settles O52: each is one write, of VX or of a timer, before PC advances. -/
theorem timerMoves : Obligations.TimerMoves := fun x =>
  ⟨spells_ldVxDt x, spells_ldDtVx x, spells_ldStVx x, fun s =>
    ⟨exists_next_of_exec_eq_setReg (exec_ldVxDt x s),
      ⟨_, exec_ldDtVx x s, rfl, rfl, (onlyChanges_setDt s _).trans (onlyChanges_advance _ 2)⟩,
      ⟨_, exec_ldStVx x s, rfl, rfl, (onlyChanges_setSt s _).trans (onlyChanges_advance _ 2)⟩⟩⟩

end Sys2Proof.Machine

/-! PROOFS. The stores and loads at I: BCD, register dump, register load (48_index_memory.md R192 to R194). -/

namespace Sys2Proof.Laws

/-! ### The sub-codes of the three in family F (R61, R64) -/

theorem decodeFamilyF_wordFXNN_33 (x : Reg) : decodeFamilyF (wordFXNN 0xF x 0x33) = .ok (.ldBVx x) := by
  simp [decodeFamilyF]

theorem decodeFamilyF_wordFXNN_55 (x : Reg) : decodeFamilyF (wordFXNN 0xF x 0x55) = .ok (.ldMemVx x) := by
  simp [decodeFamilyF]

theorem decodeFamilyF_wordFXNN_65 (x : Reg) : decodeFamilyF (wordFXNN 0xF x 0x65) = .ok (.ldVxMem x) := by
  simp [decodeFamilyF]

end Sys2Proof.Laws

namespace Sys2Proof.Machine

variable {s : State} {x : Reg} {bs : List Byte}

theorem spells_ldBVx (x : Reg) : Spells (0xF033 + x.val * 0x100) (.ldBVx x) :=
  spells_of_decodeFamilyF (nn := 0x33) (Laws.decodeFamilyF_wordFXNN_33 x)

theorem spells_ldMemVx (x : Reg) : Spells (0xF055 + x.val * 0x100) (.ldMemVx x) :=
  spells_of_decodeFamilyF (nn := 0x55) (Laws.decodeFamilyF_wordFXNN_55 x)

theorem spells_ldVxMem (x : Reg) : Spells (0xF065 + x.val * 0x100) (.ldVxMem x) :=
  spells_of_decodeFamilyF (nn := 0x65) (Laws.decodeFamilyF_wordFXNN_65 x)

/-! ### Stores and loads at I, and I moved past them -/

theorem onlyChanges_setMem (s : State) (m : Memory) : OnlyChanges [.mem] s (s.setMem m) := fun p hp => by
  cases p <;> simp_all [Same]

theorem onlyChanges_setRegs (s : State) (v : Vector Byte 16) : OnlyChanges [.v] s (s.setRegs v) := fun p hp => by
  cases p <;> simp_all [Same]

theorem State.byteAt_effAddr_writeAll {k : Nat} (h : k < bs.length) :
    (s.setMem (Memory.writeAll s.config bs (s.effAddr 0) s.mem)).byteAt (s.effAddr k) = bs[k] :=
  (State.byteAt_writeAll bs (s.effAddr 0) s).1 k h

theorem State.byteAt_writeAll_outside {a : Nat} (h : a < s.effAddr 0 ∨ s.effAddr bs.length ≤ a) :
    (s.setMem (Memory.writeAll s.config bs (s.effAddr 0) s.mem)).byteAt a = s.byteAt a :=
  (State.byteAt_writeAll bs (s.effAddr 0) s).2 a h

/-- A digit is below 10, so it is stored as it stands. -/
theorem State.toNat_byteAt_writeAll_digit {k d : Nat} (h : bs[k]? = some (BitVec.ofNat 8 d)) (hd : d < 10) :
    ((s.setMem (Memory.writeAll s.config bs (s.effAddr 0) s.mem)).byteAt (s.effAddr k)).toNat = d := by
  obtain ⟨hk, hdigit⟩ := List.getElem?_eq_some_iff.1 h
  rw [State.byteAt_effAddr_writeAll hk, hdigit, BitVec.toNat_ofNat]
  exact Nat.mod_eq_of_lt (by omega)

theorem State.reg_setRegs_regsAfter (s : State) (x z : Reg) :
    (s.setRegs (regsAfter s.byteAt (s.effAddr 0) (regsUpTo x) s.v)).reg z =
      if z ≤ x then s.byteAt (s.effAddr z.val) else s.reg z := by
  simp only [← mem_regsUpTo]
  exact regsAfter_getElem s.byteAt (s.effAddr 0) (regsUpTo x) s.v z

/-- After an access inside MEM the new I is at most 4096, so it does not wrap. -/
theorem toNat_ofNat_effAddr_succ {k : Nat} (h : s.effAddr k < 4096) :
    (BitVec.ofNat 16 (s.effAddr (k + 1))).toNat = s.effAddr (k + 1) := by
  have hsucc : s.effAddr (k + 1) = s.effAddr k + 1 := rfl
  exact (BitVec.toNat_ofNat _ 16).trans (Nat.mod_eq_of_lt (by omega))

/-! ### What the three instructions answer -/

theorem exec_ldBVx_of_fits (h : s.effAddr 2 < 4096) : exec (.ldBVx x) s =
    .next ((s.setMem (Memory.writeAll s.config (decimalDigits (s.reg x)) (s.effAddr 0) s.mem)).advance 2) :=
  congrArg (commit s) (effectLdBVx_ok h)

theorem exec_ldMemVx_of_fits (h : s.effAddr x.val < 4096) : exec (.ldMemVx x) s =
    .next (((s.setMem (Memory.writeAll s.config (s.regsValues x) (s.effAddr 0) s.mem)).setI
      (BitVec.ofNat 16 (s.effAddr (x.val + 1)))).advance 2) :=
  congrArg (commit s) (effectLdMemVx_ok h)

theorem exec_ldVxMem_of_fits (h : s.effAddr x.val < 4096) : exec (.ldVxMem x) s =
    .next (((s.setRegs (regsAfter s.byteAt (s.effAddr 0) (regsUpTo x) s.v)).setI
      (BitVec.ofNat 16 (s.effAddr (x.val + 1)))).advance 2) :=
  congrArg (commit s) (effectLdVxMem_ok h)

/-- An instruction that ends in an effect out of range takes that fault in the state before it, and reports it. -/
theorem exec_and_raises_of_outOfRange {i : Instr} {e : Except Raise State} {a : Nat} (hexec : exec i s = commit s e)
    (hraises : Instr.raises i s = raiseOf e) (he : e = .error (outOfRange a)) :
    exec i s = .next { s with mode := .halted .addressOutOfRange } ∧
      Instr.raises i s = some { cause := .addressOutOfRange, info := a } := by
  subst he
  exact ⟨hexec, hraises⟩

/-! ### The statements -/

/-- Settles O55: the three digits are stored at I where they fit, and the store that does not fit is discarded whole. -/
theorem bcdStore : Obligations.BcdStore := by
  refine fun x => ⟨spells_ldBVx x, fun s => ⟨fun h => ?_, fun h =>
    exec_and_raises_of_outOfRange rfl rfl (effectLdBVx_error h)⟩⟩
  have hbyte : (s.reg x).toNat < 256 := (s.reg x).isLt
  have hundreds : (s.reg x).toNat / 100 < 10 := by omega
  have tens : (s.reg x).toNat / 10 % 10 < 10 := Nat.mod_lt _ (by decide)
  have ones : (s.reg x).toNat % 10 < 10 := Nat.mod_lt _ (by decide)
  exact ⟨_, exec_ldBVx_of_fits h, State.toNat_byteAt_writeAll_digit rfl hundreds, State.toNat_byteAt_writeAll_digit rfl tens,
    State.toNat_byteAt_writeAll_digit rfl ones,
    fun a ha => State.byteAt_writeAll_outside (bs := decimalDigits (s.reg x)) ha, rfl,
    (onlyChanges_setMem s _).trans (onlyChanges_advance _ 2)⟩

/-- Settles O56: the values of V0 to VX are stored at I where they fit, and the store that does not fit is discarded whole. -/
theorem registerDump : Obligations.RegisterDump := by
  refine fun x => ⟨spells_ldMemVx x, fun s => ⟨fun h => ?_, fun h =>
    exec_and_raises_of_outOfRange rfl rfl (effectLdMemVx_error h)⟩⟩
  have hlen : (s.regsValues x).length = x.val + 1 := s.length_regsValues x
  refine ⟨_, exec_ldMemVx_of_fits h, fun z hz => ?inside, fun a ha => ?outside, toNat_ofNat_effAddr_succ h, rfl,
    ((onlyChanges_setMem s _).trans (onlyChanges_setI _ _)).trans (onlyChanges_advance _ 2)⟩
  case inside =>
    have hk : z.val < (s.regsValues x).length := hlen ▸ Nat.lt_succ_of_le hz
    exact (State.byteAt_effAddr_writeAll hk).trans (s.regsValues_getElem x z.val hk)
  case outside =>
    exact State.byteAt_writeAll_outside (bs := s.regsValues x) (hlen.symm ▸ ha)

/-- Settles O57: V0 to VX are loaded from I where the bytes are inside MEM; a load that runs past it is discarded whole. -/
theorem registerLoad : Obligations.RegisterLoad := by
  refine fun x => ⟨spells_ldVxMem x, fun s => ⟨fun h => ?_, fun h =>
    exec_and_raises_of_outOfRange rfl rfl (effectLdVxMem_error h)⟩⟩
  exact ⟨_, exec_ldVxMem_of_fits h, fun z hz => (s.reg_setRegs_regsAfter x z).trans (if_pos hz),
    fun z hz => (s.reg_setRegs_regsAfter x z).trans (if_neg hz), toNat_ofNat_effAddr_succ h, rfl,
    ((onlyChanges_setRegs s _).trans (onlyChanges_setI _ _)).trans (onlyChanges_advance _ 2)⟩

end Sys2Proof.Machine

/-! PROOFS. The key matrix and the framebuffer as the host sees them (50_host_interface.md R204, R205): a key is written by
`SET_KEY` alone, so the first part says that no step writes one. -/

namespace Sys2Proof.Machine

/-! ### No step writes a key -/

/-- Where R223 tables a fault, that fault is all an instruction does (R224). -/
theorem exec_of_faultsWhen {i : Instr} {s : State} (h : FaultsWhen i s) : exec i s = .next (s.halt (causeOf i)) := by
  cases i with
  | ret => exact exec_ret_of_sp_eq_zero h
  | callNnn nnn => exact exec_callNnn_of_sp_eq_sixteen nnn h
  | drwVxVyN =>
    obtain ⟨a, he, -⟩ := effectDrwVxVyN_error h
    exact congrArg (commit s) he
  | skpVx => exact congrArg (commit s) (effectSkpVx_error h)
  | sknpVx => exact congrArg (commit s) (effectSknpVx_error h)
  | ldFVx => exact congrArg (commit s) (effectLdFVx_error h)
  | ldBVx => exact congrArg (commit s) (effectLdBVx_error h)
  | ldMemVx => exact congrArg (commit s) (effectLdMemVx_error h)
  | ldVxMem => exact congrArg (commit s) (effectLdVxMem_error h)
  | _ => exact h.elim

/-- An instruction that does not fault answers its effect, and no effect writes a key. -/
theorem exists_exec_key_of_not_faultsWhen {i : Instr} {s : State} (h : ¬ FaultsWhen i s) :
    ∃ t, exec i s = .next t ∧ t.key = s.key := by
  cases i with
  | ret => exact ⟨_, congrArg (commit s) (effectRet_ok (Nat.pos_of_ne_zero h)), rfl⟩
  | callNnn nnn =>
    have hsp : s.sp.val < 16 := Nat.lt_of_le_of_ne (Nat.le_of_lt_succ s.sp.isLt) h
    exact ⟨_, congrArg (commit s) (effectCallNnn_ok nnn hsp), rfl⟩
  | drwVxVyN => exact ⟨_, congrArg (commit s) (effectDrwVxVyN_ok (not_not.1 h)), rfl⟩
  | skpVx => exact ⟨_, congrArg (commit s) (effectSkpVx_ok (Nat.lt_of_not_le h)), s.skipIf_key _⟩
  | sknpVx => exact ⟨_, congrArg (commit s) (effectSknpVx_ok (Nat.lt_of_not_le h)), s.skipIf_key _⟩
  | ldFVx => exact ⟨_, congrArg (commit s) (effectLdFVx_ok (Nat.lt_of_not_le h)), rfl⟩
  | ldBVx => exact ⟨_, exec_ldBVx_of_fits (Nat.lt_of_not_le h), rfl⟩
  | ldMemVx => exact ⟨_, exec_ldMemVx_of_fits (Nat.lt_of_not_le h), rfl⟩
  | ldVxMem => exact ⟨_, exec_ldVxMem_of_fits (Nat.lt_of_not_le h), rfl⟩
  | seVxNn | sneVxNn | seVxVy | sneVxVy => exact ⟨_, rfl, s.skipIf_key _⟩
  | addIVx => exact ⟨_, rfl, by cases s.config.fx1eSetsVF <;> rfl⟩
  | _ => exact ⟨_, rfl, rfl⟩

theorem exec_key {i : Instr} {s t : State} (h : exec i s = .next t) : t.key = s.key := by
  by_cases hf : FaultsWhen i s
  · cases (exec_of_faultsWhen hf).symm.trans h
    exact s.halt_key _
  · obtain ⟨u, hu, hkey⟩ := exists_exec_key_of_not_faultsWhen hf
    cases hu.symm.trans h
    exact hkey

@[simp] theorem State.pollKeys_key (s : State) (x : Reg) : (s.pollKeys x).key = s.key := by
  rcases s.pollKeys_cases x with ⟨k, -, h⟩ | ⟨-, h⟩
  · rw [h]; rfl
  · rw [h]

theorem step_key {s t : State} (h : step s = .next t) : t.key = s.key := by
  rcases step_cases h with ⟨c, -, ho⟩ | ⟨x, -, ho⟩ | ⟨op, i, -, -, -, ho⟩ | ⟨op, w, -, -, -, ho⟩ | ⟨r, -, -, ho⟩
  · cases ho; rfl
  · cases ho; exact s.pollKeys_key x
  · exact exec_key ho.symm
  · cases ho; exact s.advance_key 2
  · cases ho; exact s.halt_key _

/-! ### What `SET_KEY` writes -/

theorem onlyChanges_setKeys (s : State) (k : BitVec 16) : OnlyChanges [.key] s (s.setKeys k) := fun p hp => by
  cases p <;> simp_all [Same]

theorem applyUp_setKey {k : Nat} (hk : k < 16) (p : Bool) (s : State) :
    applyUp (.setKey k p) s = .next (setKey ⟨k, hk⟩ p s, .none) := dif_pos hk

/-- Settles O28: the one bit written is that of the key, and neither an instruction nor the key poll writes KEY. -/
theorem setKeyWritesOneKey : Obligations.SetKeyWritesOneKey := by
  refine fun s => ⟨fun k p hk => ⟨_, applyUp_setKey hk p s, fun j hj => ?_, onlyChanges_setKeys s _⟩, fun _ => step_key⟩
  simpa only [Fin.mk.injEq] using getLsbD_setKey s ⟨k, hk⟩ p ⟨j, hj⟩

/-! ### What `FRAME_BUFFER` returns -/

@[simp] theorem length_frameBuffer (s : State) : (frameBuffer s).length = 2048 := by
  simp only [frameBuffer, List.length_map, List.length_range]

theorem getElem?_frameBuffer (s : State) {i : Nat} (hi : i < 2048) : (frameBuffer s)[i]? = some (pixel s.fb i) := by
  simp only [frameBuffer, List.getElem?_map, List.getElem?_range hi, Option.map_some]

/-- Settles O29: the list is that of the pixel indices in order, and `y * 64 + x` is the index of a pixel of the screen. -/
theorem frameBufferReturnsThePixels : Obligations.FrameBufferReturnsThePixels := fun s =>
  ⟨_, rfl, length_frameBuffer s, fun _ _ hx hy => getElem?_frameBuffer s (by omega)⟩

end Sys2Proof.Machine

/-! PROOFS. What an instruction leaves when it raises no fault, said once for all 34 (files 40 to 48), and what it does where
R223 tables a fault. -/

namespace Sys2Proof.Machine

/-- The state an instruction leaves when it raises no fault (`exec_of_not_faultsWhen`). Where it raises one, the value of a
return or a call is of no account. -/
def completed (i : Instr) (s : State) : State :=
  match i with
  | .cls => ((s.setFb blankScreen).setRedraw true).advance 2
  | .ret => (s.setSp ⟨s.sp.val - 1, by omega⟩).setPc (s.stack[s.sp.val - 1]'(by omega) + 2)
  | .jpNnn nnn => s.setPc (addrOf nnn)
  | .callNnn nnn => ((s.setStack (Fin.ofNat 16 s.sp.val) s.pc).setSp (Fin.ofNat 17 (s.sp.val + 1))).setPc (addrOf nnn)
  | .seVxNn x nn => s.advance (if s.reg x == nn then 4 else 2)
  | .sneVxNn x nn => s.advance (if s.reg x != nn then 4 else 2)
  | .seVxVy x y => s.advance (if s.reg x == s.reg y then 4 else 2)
  | .sneVxVy x y => s.advance (if s.reg x != s.reg y then 4 else 2)
  | .ldVxNn x nn => (s.setReg x nn).advance 2
  | .addVxNn x nn => (s.setReg x (addResult (s.reg x) nn)).advance 2
  | .ldVxVy x y => (s.setReg x (s.reg y)).advance 2
  | .orVxVy x y => (s.setReg x (s.reg x ||| s.reg y)).advance 2
  | .andVxVy x y => (s.setReg x (s.reg x &&& s.reg y)).advance 2
  | .xorVxVy x y => (s.setReg x (s.reg x ^^^ s.reg y)).advance 2
  | .addVxVy x y => (s.writeFlagged x (carryFlag (s.reg x) (s.reg y)) (addResult (s.reg x) (s.reg y))).advance 2
  | .subVxVy x y => (s.writeFlagged x (noBorrowFlag (s.reg x) (s.reg y)) (subResult (s.reg x) (s.reg y))).advance 2
  | .shrVx x _ => (s.writeFlagged x (shrFlag (s.reg x)) (shrResult (s.reg x))).advance 2
  | .subnVxVy x y => (s.writeFlagged x (noBorrowFlag (s.reg y) (s.reg x)) (subResult (s.reg y) (s.reg x))).advance 2
  | .shlVx x _ => (s.writeFlagged x (shlFlag (s.reg x)) (shlResult (s.reg x))).advance 2
  | .ldINnn nnn => (s.setI (addrOf nnn)).advance 2
  | .jpV0Nnn nnn => s.setPc (BitVec.ofNat 16 (nnn.toNat + (s.reg 0).toNat))
  | .rndVxNn x nn => randomizeWith (Config.drawByte s.draws) x nn s
  | .drwVxVyN x y n =>
    (((s.setReg vf (flagByte ((s.spritePixels x y n).any (pixel s.fb)))).setFb
      (toggleAll (s.spritePixels x y n) s.fb)).setRedraw true).advance 2
  | .skpVx x => s.advance (if s.key.getLsbD (s.reg x).toNat then 4 else 2)
  | .sknpVx x => s.advance (if !s.key.getLsbD (s.reg x).toNat then 4 else 2)
  | .ldVxDt x => (s.setReg x s.dt).advance 2
  | .ldVxK x => s.setMode (.waitingForKey x)
  | .ldDtVx x => (s.setDt (s.reg x)).advance 2
  | .ldStVx x => (s.setSt (s.reg x)).advance 2
  | .addIVx x =>
    ((s.setReg vf (if s.config.fx1eSetsVF then indexFlag s.i (s.reg x) else s.reg vf)).setI (indexSum s.i (s.reg x))).advance 2
  | .ldFVx x => (s.setI (BitVec.ofNat 16 ((s.reg x).toNat * 5))).advance 2
  | .ldBVx x => (s.setMem (Memory.writeAll s.config (decimalDigits (s.reg x)) (s.effAddr 0) s.mem)).advance 2
  | .ldMemVx x =>
    ((s.setMem (Memory.writeAll s.config (s.regsValues x) (s.effAddr 0) s.mem)).setI
      (BitVec.ofNat 16 (s.effAddr (x.val + 1)))).advance 2
  | .ldVxMem x =>
    ((s.setRegs (regsAfter s.byteAt (s.effAddr 0) (regsUpTo x) s.v)).setI
      (BitVec.ofNat 16 (s.effAddr (x.val + 1)))).advance 2

theorem State.skipIf_eq_advance (s : State) (c : Bool) : s.skipIf c = s.advance (if c then 4 else 2) := by
  cases c <;> rfl

@[simp] theorem State.setReg_reg_self (s : State) (x : Reg) : s.setReg x (s.reg x) = s := by
  simp [State.setReg, State.reg]

/-- `ADD I, Vx` as one write of VF: with the parameter false VF takes the value it has (R190). -/
theorem exec_addIVx (x : Reg) (s : State) : exec (.addIVx x) s = .next (completed (.addIVx x) s) := by
  cases h : s.config.fx1eSetsVF <;> simp [exec, execAddIVx, completed, h]

/-- The fault of an instruction that R223 tables as taking one. -/
theorem exists_raises_of_faultsWhen {i : Instr} {s : State} (h : FaultsWhen i s) :
    ∃ a, Instr.raises i s = some { cause := causeOf i, info := a } := by
  cases i with
  | ret => exact ⟨_, congrArg raiseOf (effectRet_error h)⟩
  | callNnn nnn => exact ⟨_, congrArg raiseOf (effectCallNnn_error nnn h)⟩
  | drwVxVyN =>
    obtain ⟨a, he, -⟩ := effectDrwVxVyN_error h
    exact ⟨a, congrArg raiseOf he⟩
  | skpVx => exact ⟨_, congrArg raiseOf (effectSkpVx_error h)⟩
  | sknpVx => exact ⟨_, congrArg raiseOf (effectSknpVx_error h)⟩
  | ldFVx => exact ⟨_, congrArg raiseOf (effectLdFVx_error h)⟩
  | ldBVx => exact ⟨_, congrArg raiseOf (effectLdBVx_error h)⟩
  | ldMemVx => exact ⟨_, congrArg raiseOf (effectLdMemVx_error h)⟩
  | ldVxMem => exact ⟨_, congrArg raiseOf (effectLdVxMem_error h)⟩
  | _ => exact h.elim

/-- An instruction that R223 tables as taking no fault completes and raises none. -/
theorem exec_and_raises_of_not_faultsWhen {i : Instr} {s : State} (h : ¬ FaultsWhen i s) :
    exec i s = .next (completed i s) ∧ Instr.raises i s = none := by
  have hok {e : Except Raise State} {t : State} (he : e = .ok t) : commit s e = .next t ∧ raiseOf e = none := by
    subst he; exact ⟨rfl, rfl⟩
  cases i with
  | ret => exact hok (effectRet_ok (Nat.pos_of_ne_zero h))
  | callNnn nnn =>
    have hsp : s.sp.val < 16 := Nat.lt_of_le_of_ne (Nat.le_of_lt_succ s.sp.isLt) h
    have hk : Fin.ofNat 16 s.sp.val = ⟨s.sp.val, hsp⟩ := Fin.ext (Nat.mod_eq_of_lt hsp)
    have hsucc : Fin.ofNat 17 (s.sp.val + 1) = ⟨s.sp.val + 1, Nat.succ_lt_succ hsp⟩ :=
      Fin.ext (Nat.mod_eq_of_lt (Nat.succ_lt_succ hsp))
    simp only [completed, hk, hsucc]
    exact hok (effectCallNnn_ok nnn hsp)
  | drwVxVyN => exact hok (effectDrwVxVyN_ok (not_not.1 h))
  | skpVx => exact hok ((effectSkpVx_ok (Nat.lt_of_not_le h)).trans (congrArg _ (s.skipIf_eq_advance _)))
  | sknpVx => exact hok ((effectSknpVx_ok (Nat.lt_of_not_le h)).trans (congrArg _ (s.skipIf_eq_advance _)))
  | ldFVx => exact hok (effectLdFVx_ok (Nat.lt_of_not_le h))
  | ldBVx => exact hok (effectLdBVx_ok (Nat.lt_of_not_le h))
  | ldMemVx => exact hok (effectLdMemVx_ok (Nat.lt_of_not_le h))
  | ldVxMem => exact hok (effectLdVxMem_ok (Nat.lt_of_not_le h))
  | seVxNn | sneVxNn | seVxVy | sneVxVy => exact ⟨congrArg _ (s.skipIf_eq_advance _), rfl⟩
  | addIVx x => exact ⟨exec_addIVx x s, rfl⟩
  | _ => exact ⟨rfl, rfl⟩

theorem exec_of_not_faultsWhen {i : Instr} {s : State} (h : ¬ FaultsWhen i s) : exec i s = .next (completed i s) :=
  (exec_and_raises_of_not_faultsWhen h).1

/-- Everything an instruction can do. -/
theorem exec_cases {i : Instr} {s t : State} (h : exec i s = .next t) :
    (FaultsWhen i s ∧ t = s.halt (causeOf i)) ∨ (¬ FaultsWhen i s ∧ t = completed i s) := by
  by_cases hf : FaultsWhen i s
  · cases (exec_of_faultsWhen hf).symm.trans h
    exact .inl ⟨hf, rfl⟩
  · cases (exec_of_not_faultsWhen hf).symm.trans h
    exact .inr ⟨hf, rfl⟩

/-! ### The pieces of the state an instruction may change -/

theorem onlyChanges_setMode (s : State) (m : Mode) : OnlyChanges [.mode] s (s.setMode m) := fun p hp => by
  cases p <;> simp_all [Same]

theorem onlyChanges_completed (i : Instr) (s : State) : OnlyChanges (footprint i) s (completed i s) := by
  cases i with
  | cls => exact ((onlyChanges_setFb s _).trans (onlyChanges_setRedraw _ _)).trans (onlyChanges_advance _ _)
  | ret => exact ((onlyChanges_setSp s _).trans (onlyChanges_setPc _ _)).mono (by simp [footprint])
  | callNnn =>
    exact (((onlyChanges_setStack s _ _).trans (onlyChanges_setSp _ _)).trans (onlyChanges_setPc _ _)).mono (by simp [footprint])
  | jpNnn | jpV0Nnn | seVxNn | sneVxNn | seVxVy | sneVxVy => exact onlyChanges_setPc s _
  | skpVx | sknpVx => exact (onlyChanges_advance s _).mono (by simp [footprint])
  | ldVxNn | addVxNn | ldVxVy | orVxVy | andVxVy | xorVxVy | ldVxDt =>
    exact (onlyChanges_setReg s _ _).trans (onlyChanges_advance _ _)
  | addVxVy | subVxVy | shrVx | subnVxVy | shlVx =>
    exact (onlyChanges_writeFlagged s _ _ _).trans (onlyChanges_advance _ _)
  | ldINnn => exact (onlyChanges_setI s _).trans (onlyChanges_advance _ _)
  | ldFVx => exact ((onlyChanges_setI s _).trans (onlyChanges_advance _ _)).mono (by simp [footprint])
  | rndVxNn x nn =>
    obtain ⟨-, -, -, -, hframe⟩ := randomizeWith_frame (Config.drawByte s.draws) x nn s
    exact hframe.mono (by simp [footprint])
  | drwVxVyN =>
    exact ((((onlyChanges_setReg s _ _).trans (onlyChanges_setFb _ _)).trans (onlyChanges_setRedraw _ _)).trans
      (onlyChanges_advance _ _)).mono (by simp [footprint])
  | ldVxK => exact onlyChanges_setMode s _
  | ldDtVx => exact (onlyChanges_setDt s _).trans (onlyChanges_advance _ _)
  | ldStVx => exact (onlyChanges_setSt s _).trans (onlyChanges_advance _ _)
  | addIVx => exact ((onlyChanges_setReg s _ _).trans (onlyChanges_setI _ _)).trans (onlyChanges_advance _ _)
  | ldBVx => exact ((onlyChanges_setMem s _).trans (onlyChanges_advance _ _)).mono (by simp [footprint])
  | ldMemVx =>
    exact (((onlyChanges_setMem s _).trans (onlyChanges_setI _ _)).trans (onlyChanges_advance _ _)).mono (by simp [footprint])
  | ldVxMem =>
    exact (((onlyChanges_setRegs s _).trans (onlyChanges_setI _ _)).trans (onlyChanges_advance _ _)).mono (by simp [footprint])

theorem mode_mem_footprint_of_faultsWhen {i : Instr} {s : State} (h : FaultsWhen i s) : .mode ∈ footprint i := by
  cases i with
  | ret | callNnn | drwVxVyN | skpVx | sknpVx | ldFVx | ldBVx | ldMemVx | ldVxMem => simp [footprint]
  | _ => exact h.elim

/-- Settles O22: an instruction either takes its fault, which moves MODE, or completes. -/
theorem eachInstructionChangesOnlyItsParts : Obligations.EachInstructionChangesOnlyItsParts := fun i s t h => by
  rcases exec_cases h with ⟨hf, rfl⟩ | ⟨-, rfl⟩
  · exact (onlyChanges_setMode s _).mono (by simpa using mode_mem_footprint_of_faultsWhen hf)
  · exact onlyChanges_completed i s

theorem reg_completed {i : Instr} {s : State} {z : Reg} (h : ¬ MayWriteReg i s z) : (completed i s).reg z = s.reg z := by
  cases i with
  | ldVxNn | addVxNn | ldVxVy | orVxVy | andVxVy | xorVxVy | rndVxNn | ldVxDt | drwVxVyN =>
    exact s.reg_setReg_other h _
  | addVxVy | subVxVy | shrVx | subnVxVy | shlVx =>
    exact s.reg_writeFlagged_other (fun hx => h (.inl hx)) (fun hvf => h (.inr hvf)) _ _
  | addIVx =>
    refine (s.reg_setReg vf _ z).trans ?_
    split
    · next hz => rw [if_neg fun hc => h ⟨hc, hz⟩, hz]
    · rfl
  | ldVxMem x => exact (s.reg_setRegs_regsAfter x z).trans (if_neg h)
  | _ => exact onlyChanges_completed _ s .v (by simp [footprint]) z

/-- Settles O23: only a completed instruction writes registers, each through the writes of its row. -/
theorem registersAreWrittenAsTabled : Obligations.RegistersAreWrittenAsTabled := fun i s t z h hz => by
  rcases exec_cases h with ⟨-, rfl⟩ | ⟨-, rfl⟩
  · exact s.reg_halt _ z
  · exact reg_completed hz

end Sys2Proof.Machine

/-! PROOFS. What a `STEP` does and reports, said once (60_exceptions.md R220 to R226, 50_host_interface.md R202). -/

namespace Sys2Proof.Machine

variable {s t : State} {op : Word} {i : Instr}

/-! ### The step by mode, fetch and decoder -/

theorem step_of_halted {c : Cause} (hm : s.mode = .halted c) : step s = .next s := by
  simp only [step, hm]

theorem step_of_waitingForKey {x : Reg} (hm : s.mode = .waitingForKey x) : step s = .next (s.pollKeys x) := by
  simp only [step, hm]

theorem step_of_fetch_error {r : Raise} (hm : s.mode = .running) (hf : s.fetch = .error r) :
    step s = .next (s.halt r.cause) := by
  simp only [step, hm, runInstruction, hf]

theorem step_of_decodes (hm : s.mode = .running) (hf : s.fetch = .ok op) (hd : decodeWord op = .ok i) :
    step s = exec i s := by
  simp only [step, hm, runInstruction, hf, executeWord, hd]

theorem step_of_unknown {w : DecodeWarning} (hm : s.mode = .running) (hf : s.fetch = .ok op)
    (hd : decodeWord op = .error w) : step s = .next (s.advance 2) := by
  simp only [step, hm, runInstruction, hf, executeWord, hd]; rfl

/-! ### What it reports -/

theorem stepWarning_of_decodes (hm : s.mode = .running) (hf : s.fetch = .ok op) (hd : decodeWord op = .ok i) :
    stepWarning s = none := by
  simp only [stepWarning, hm, State.warningInRunning, hf, hd]

theorem stepFault_of_decodes (hm : s.mode = .running) (hf : s.fetch = .ok op) (hd : decodeWord op = .ok i) :
    stepFault s = (Instr.raises i s).map fun r => { cause := r.cause, info := some r.info } := by
  simp only [stepFault, hm, State.raisedInRunning, hf, hd]

/-- Everything a step can do, and what it reports: a halted step and a poll, an instruction that faults or completes, an unknown
opcode, a fetch past the end of memory. -/
inductive StepCase (s t : State) : Prop
  | halted (c : Cause) (hm : s.mode = .halted c) (ht : t = s) (hw : stepWarning s = none)
      (hr : stepFault s = some { cause := c, info := none })
  | polls (x : Reg) (hm : s.mode = .waitingForKey x) (ht : t = s.pollKeys x) (hw : stepWarning s = none)
      (hr : stepFault s = none)
  | faults (op : Word) (i : Instr) (a : Nat) (hm : s.mode = .running) (hf : s.fetch = .ok op) (hd : decodeWord op = .ok i)
      (hi : FaultsWhen i s) (ht : t = s.halt (causeOf i)) (hw : stepWarning s = none)
      (hr : stepFault s = some { cause := causeOf i, info := some a })
  | completes (op : Word) (i : Instr) (hm : s.mode = .running) (hf : s.fetch = .ok op) (hd : decodeWord op = .ok i)
      (hi : ¬ FaultsWhen i s) (ht : t = completed i s) (hw : stepWarning s = none) (hr : stepFault s = none)
  | unknown (op : Word) (hm : s.mode = .running) (hf : s.fetch = .ok op) (hd : decodeWord op = .error (.unknownOpcode op))
      (ht : t = s.advance 2) (hw : stepWarning s = some op) (hr : stepFault s = none)
  | fetchFaults (hm : s.mode = .running) (hpc : 4095 ≤ s.pc.toNat) (ht : t = s.halt .addressOutOfRange)
      (hw : stepWarning s = none) (hr : stepFault s = some { cause := .addressOutOfRange, info := some s.pc.toNat })

theorem exists_step_and_stepCase (s : State) : ∃ t, step s = .next t ∧ StepCase s t := by
  cases hm : s.mode with
  | halted c =>
    exact ⟨s, step_of_halted hm, .halted c hm rfl (by simp only [stepWarning, hm]) (by simp only [stepFault, hm])⟩
  | waitingForKey x =>
    exact ⟨_, step_of_waitingForKey hm, .polls x hm rfl (by simp only [stepWarning, hm]) (by simp only [stepFault, hm])⟩
  | running =>
    by_cases hpc : 4095 ≤ s.pc.toNat
    · have hf := State.fetch_error hpc
      exact ⟨_, step_of_fetch_error hm hf, .fetchFaults hm hpc rfl
        (by simp only [stepWarning, hm, State.warningInRunning, hf])
        (by simp only [stepFault, hm, State.raisedInRunning, hf]; rfl)⟩
    have hf := State.fetch_ok (s := s) (by omega)
    cases hd : decodeWord (wordOfBytes (s.byteAt s.pc.toNat) (s.byteAt (s.pc.toNat + 1))) with
    | error w =>
      cases Laws.decodeWord_error_eq hd
      exact ⟨_, step_of_unknown hm hf hd, .unknown _ hm hf hd rfl
        (by simp only [stepWarning, hm, State.warningInRunning, hf, hd])
        (by simp only [stepFault, hm, State.raisedInRunning, hf, hd]; rfl)⟩
    | ok i =>
      have hstep := step_of_decodes hm hf hd
      have hw := stepWarning_of_decodes hm hf hd
      have hr := stepFault_of_decodes hm hf hd
      by_cases hi : FaultsWhen i s
      · obtain ⟨a, ha⟩ := exists_raises_of_faultsWhen hi
        exact ⟨_, hstep.trans (exec_of_faultsWhen hi), .faults _ i a hm hf hd hi rfl hw (by rw [hr, ha]; rfl)⟩
      · obtain ⟨hexec, hnone⟩ := exec_and_raises_of_not_faultsWhen hi
        exact ⟨_, hstep.trans hexec, .completes _ i hm hf hd hi rfl hw (by rw [hr, hnone]; rfl)⟩

theorem stepCase_of_step (h : step s = .next t) : StepCase s t := by
  obtain ⟨u, hu, hc⟩ := exists_step_and_stepCase s
  cases hu.symm.trans h
  exact hc

theorem exists_step (s : State) : ∃ t, step s = .next t := (exists_step_and_stepCase s).imp fun _ h => h.1

theorem redrawAfterStep_of_step (h : step s = .next t) : redrawAfterStep s = t.redraw := by
  simp only [redrawAfterStep, h]

/-- Only the key wait leaves mode Running when it completes. -/
theorem completed_mode (i : Instr) (s : State) :
    (completed i s).mode = s.mode ∨ ∃ x, i = .ldVxK x ∧ (completed i s).mode = .waitingForKey x := by
  cases i with
  | ldVxK x => exact .inr ⟨x, rfl, rfl⟩
  | _ => exact .inl rfl

theorem completed_mode_ne_halted (hm : s.mode = .running) (c : Cause) : (completed i s).mode ≠ .halted c := by
  rcases completed_mode i s with h | ⟨x, -, h⟩ <;> rw [h]
  · rw [hm]; nofun
  · nofun

theorem pollKeys_mode_ne_halted {x : Reg} (hm : s.mode = .waitingForKey x) (c : Cause) : (s.pollKeys x).mode ≠ .halted c := by
  rcases s.pollKeys_cases x with ⟨k, -, h⟩ | ⟨-, h⟩ <;> rw [h]
  · nofun
  · rw [hm]; nofun

/-! ### The statements -/

/-- Settles O16: every case of a step has a state after it, and every instruction faults or completes. -/
theorem everyStepAnswersANextState : Obligations.EveryStepAnswersANextState := by
  refine ⟨exists_step, fun i s => ?_⟩
  by_cases hf : FaultsWhen i s
  · exact ⟨_, exec_of_faultsWhen hf⟩
  · exact ⟨_, exec_of_not_faultsWhen hf⟩

/-- Settles O11: the two bytes at PC are the word the step fetches. -/
theorem stepRunsTheDecodedInstruction : Obligations.StepRunsTheDecodedInstruction := fun _ _ hm hpc hd _ =>
  step_of_decodes hm (State.fetch_ok hpc) hd

/-- Settles O12: a fetch is inside MEM exactly when both bytes are; past it the step takes the fault of the fetch. -/
theorem fetchIsBigEndianOrFaults : Obligations.FetchIsBigEndianOrFaults := fun s => by
  refine ⟨fun hpc => ⟨_, State.fetch_ok hpc, Laws.toNat_wordOfBytes _ _⟩, fun hpc hm => ?_⟩
  have hf := State.fetch_error hpc
  exact ⟨step_of_fetch_error hm hf, by simp only [stepOutcome, stepFault, hm, State.raisedInRunning, hf]; rfl⟩

/-- Settles O13: a word that matches no row decodes to a warning that carries it. -/
theorem unknownOpcodeWarnsAndAdvances : Obligations.UnknownOpcodeWarnsAndAdvances := fun s op hm hf hrow => by
  have hd := Laws.decodeWord_of_matches_no_row hrow
  have hstep := step_of_unknown hm hf hd
  refine ⟨hstep, ?_⟩
  simp only [stepOutcome, redrawAfterStep_of_step hstep, stepWarning, stepFault, hm, State.warningInRunning,
    State.raisedInRunning, hf, hd]
  rfl

/-- Settles O18: a step from Running that ends halted is one of the two that take a fault. -/
theorem faultsArePrecise : Obligations.FaultsArePrecise := fun s t c hm h ht => by
  cases stepCase_of_step h with
  | halted c' hm' => cases hm.symm.trans hm'
  | polls x hm' => cases hm.symm.trans hm'
  | faults op i a _ _ _ _ hs _ hr => subst hs; cases ht; exact ⟨rfl, a, hr⟩
  | completes op i _ _ _ _ hs => subst hs; exact absurd ht (completed_mode_ne_halted hm c)
  | unknown op _ _ _ hs => subst hs; cases hm.symm.trans ht
  | fetchFaults _ _ hs _ hr => subst hs; cases ht; exact ⟨rfl, _, hr⟩

/-- Settles O58: the jump at PC sets PC to the value it has. -/
theorem endedWellIsAFixedPoint : Obligations.EndedWellIsAFixedPoint := by
  rintro s ⟨hm, nnn, hf, hpc⟩
  have hd : decodeWord (encode (.jpNnn nnn)) = .ok (.jpNnn nnn) := Laws.decodeWord_wordFNNN_1 nnn
  rw [step_of_decodes hm hf hd, exec_jpNnn, hpc]
  rfl

end Sys2Proof.Machine

/-! PROOFS. What the outcome of a step says of the step, which faults it takes, and what no step moves (50_host_interface.md R202,
60_exceptions.md R223, 10_state.md R20 to R25). -/

namespace Sys2Proof.Machine

variable {s t : State}

/-! ### The poll and the tick -/

theorem onlyChanges_refl (ps : List Part) (s : State) : OnlyChanges ps s s := fun p _ => by
  cases p with
  | v | mem => exact fun _ => rfl
  | _ => exact rfl

theorem onlyChanges_pollKeys (s : State) (x : Reg) : OnlyChanges [.v, .pc, .mode] s (s.pollKeys x) := by
  rcases s.pollKeys_cases x with ⟨k, -, h⟩ | ⟨-, h⟩ <;> rw [h]
  · exact ((onlyChanges_setReg s x _).trans (onlyChanges_advance _ 2)).trans (onlyChanges_setMode _ _)
  · exact onlyChanges_refl _ s

theorem tick_of_not_halted (hm : ∀ c, s.mode ≠ .halted c) : tick s = (s.setDt (countDown s.dt)).setSt (countDown s.st) := by
  cases h : s.mode with
  | halted c => exact absurd h (hm c)
  | running | waitingForKey => simp only [tick, h]

theorem tick_of_halted {c : Cause} (hm : s.mode = .halted c) : tick s = s := by
  simp only [tick, hm]

@[simp] theorem tick_mode (s : State) : (tick s).mode = s.mode := by
  cases hm : s.mode <;> simp [tick, hm]

/-! ### The outcome -/

theorem stepWarning_eq_some_iff {w : Word} :
    stepWarning s = some w ↔ s.mode = .running ∧ s.fetch = .ok w ∧ ∀ i, decodeWord w ≠ .ok i := by
  constructor
  · intro h
    obtain ⟨t, -, hc⟩ := exists_step_and_stepCase s
    cases hc with
    | unknown op hm hf hd _ hw =>
      cases hw.symm.trans h
      exact ⟨hm, hf, fun i hi => nomatch hd.symm.trans hi⟩
    | halted _ _ _ hw | polls _ _ _ hw | faults _ _ _ _ _ _ _ _ hw | completes _ _ _ _ _ _ _ hw | fetchFaults _ _ _ hw =>
      cases hw.symm.trans h
  · rintro ⟨hm, hf, hne⟩
    cases hd : decodeWord w with
    | ok i => exact absurd hd (hne i)
    | error e =>
      cases Laws.decodeWord_error_eq hd
      simp only [stepWarning, hm, State.warningInRunning, hf, hd]

theorem stepFault_cause_iff (h : step s = .next t) {c : Cause} :
    (∃ info, stepFault s = some { cause := c, info := info }) ↔ t.mode = .halted c := by
  cases stepCase_of_step h with
  | halted c' hm ht _ hr => subst ht; simp [hr, hm]
  | polls x hm ht _ hr => subst ht; simp [hr, pollKeys_mode_ne_halted hm]
  | faults op i a _ _ _ _ ht _ hr => subst ht; simp [hr]
  | completes op i hm _ _ _ ht _ hr => subst ht; simp [hr, completed_mode_ne_halted hm]
  | unknown op hm _ _ ht _ hr => subst ht; simp [hr, hm]
  | fetchFaults _ _ ht _ hr => subst ht; simp [hr]

theorem stepFault_without_info_iff {c : Cause} : stepFault s = some { cause := c, info := none } ↔ s.mode = .halted c := by
  cases hm : s.mode <;> simp [stepFault, hm]

theorem stepWarning_or_stepFault_eq_none (s : State) : stepWarning s = none ∨ stepFault s = none := by
  obtain ⟨t, -, hc⟩ := exists_step_and_stepCase s
  cases hc with
  | unknown _ _ _ _ _ _ hr => exact .inr hr
  | halted _ _ _ hw | polls _ _ _ hw | faults _ _ _ _ _ _ _ _ hw | completes _ _ _ _ _ _ _ hw | fetchFaults _ _ _ hw =>
    exact .inl hw

/-- Settles O17, field by field, by the cases of a step. -/
theorem stepOutcomeReportsTheStep : Obligations.StepOutcomeReportsTheStep := fun s _ h =>
  ⟨redrawAfterStep_of_step h, rfl, fun _ => stepWarning_eq_some_iff, fun _ => stepFault_cause_iff h,
    fun _ => stepFault_without_info_iff, stepWarning_or_stepFault_eq_none s⟩

/-- Settles O19, clause by clause: where the table names a fault it is taken, and nothing else ends in mode Halted. -/
theorem faultsExactlyWhenTabled : Obligations.FaultsExactlyWhenTabled := by
  refine fun s t h => ⟨fun hm hpc => ?fetch, fun op i hm hf hd hi => ?faults, fun op i hm hf hd hi => ?completes,
    fun op w hm hf hd => ?unknown, fun x hm => ?poll, fun c hm => ?halted, tick_mode s⟩
  case fetch => cases (step_of_fetch_error hm (State.fetch_error hpc)).symm.trans h; rfl
  case faults => cases (exec_of_faultsWhen hi).symm.trans ((step_of_decodes hm hf hd).symm.trans h); rfl
  case completes =>
    cases (exec_of_not_faultsWhen hi).symm.trans ((step_of_decodes hm hf hd).symm.trans h)
    exact completed_mode_ne_halted hm
  case unknown =>
    cases (step_of_unknown hm hf hd).symm.trans h
    rw [State.advance_mode, hm]
    nofun
  case poll =>
    cases (step_of_waitingForKey hm).symm.trans h
    exact pollKeys_mode_ne_halted hm
  case halted =>
    cases (step_of_halted hm).symm.trans h
    exact hm

/-! ### What no step moves -/

theorem step_config (h : step s = .next t) : t.config = s.config := by
  cases stepCase_of_step h with
  | polls x _ ht => subst ht; exact onlyChanges_pollKeys s x .config (by decide)
  | completes op i _ _ _ _ ht => subst ht; cases i <;> rfl
  | halted _ _ ht | faults _ _ _ _ _ _ _ ht | unknown _ _ _ _ ht | fetchFaults _ _ ht => subst ht; rfl

/-- Settles O20: KEY and the parameters are in no case's frame, and no case clears REDRAW. -/
theorem stepLeavesTheHostsStateAlone : Obligations.StepLeavesTheHostsStateAlone := fun _ _ h =>
  ⟨step_key h, step_config h, step_keeps_redraw h⟩

theorem fetch_eq_encode {op : Word} {i : Instr} (hf : s.fetch = .ok op) (hd : decodeWord op = .ok i) :
    s.fetch = .ok (encode i) := by
  rw [hf, Laws.encode_of_decodeWord hd]

/-- Settles O21: of all the cases of a step only the completion of `LD DT, Vx` or `LD ST, Vx` writes a timer. -/
theorem stepNeverCountsTimersDown : Obligations.StepNeverCountsTimersDown := fun s t h => by
  cases stepCase_of_step h with
  | polls x _ ht =>
    subst ht
    exact ⟨.inl (onlyChanges_pollKeys s x .dt (by decide)), .inl (onlyChanges_pollKeys s x .st (by decide))⟩
  | completes op i hm hf hd _ ht =>
    subst ht
    cases i with
    | ldDtVx x => exact ⟨.inr ⟨x, hm, fetch_eq_encode hf hd, rfl⟩, .inl rfl⟩
    | ldStVx x => exact ⟨.inl rfl, .inr ⟨x, hm, fetch_eq_encode hf hd, rfl⟩⟩
    | _ => exact ⟨.inl rfl, .inl rfl⟩
  | halted _ _ ht | faults _ _ _ _ _ _ _ ht | unknown _ _ _ _ ht | fetchFaults _ _ ht => subst ht; exact ⟨.inl rfl, .inl rfl⟩

/-! ### The key wait -/

theorem pollKeys_of_lowestKey {x k : Reg} (hk : lowestKey s.key = some k) :
    s.pollKeys x = ((s.setReg x (BitVec.ofNat 8 k.val)).advance 2).setMode .running := by
  simp only [State.pollKeys, hk]

theorem pollKeys_of_no_key {x : Reg} (hk : lowestKey s.key = none) : s.pollKeys x = s := by
  simp only [State.pollKeys, hk]

/-- Settles O15: the scan of the keys finds the least one pressed, or none. -/
theorem keyWaitPollTakesTheLeastKey : Obligations.KeyWaitPollTakesTheLeastKey := fun s x hm => by
  refine ⟨fun k hk hmin => ⟨_, step_of_waitingForKey hm, ?_⟩, fun hnone => ?_, ?_, ?_⟩
  · have hbyte : (BitVec.ofNat 8 k.val).toNat = k.val := Nat.mod_eq_of_lt (by omega)
    have hframe := onlyChanges_pollKeys s x
    rw [pollKeys_of_lowestKey (lowestKey_eq hk hmin)] at hframe ⊢
    exact ⟨(congrArg BitVec.toNat (s.reg_setReg_same x _)).trans hbyte, rfl, rfl, onlyReg_setReg s x _, hframe⟩
  · rw [step_of_waitingForKey hm, pollKeys_of_no_key ((lowestKey_none s.key).2 hnone)]
  · simp only [stepOutcome, stepWarning, hm]
  · simp only [stepOutcome, stepFault, hm]

end Sys2Proof.Machine

/-! PROOFS. The invariant of R29: it holds after a reset, and every step and every operation of the host keeps it. -/

namespace Sys2Proof.Machine

variable {s t : State} {i : Instr}

/-! ### Each clause where an instruction completes -/

/-- Only the two stores at I write memory, and they complete inside it. -/
theorem memInv_completed (hi : ¬ FaultsWhen i s) (h : MemInv s) : MemInv (completed i s) := by
  cases i with
  | ldBVx x =>
    have hfit : s.effAddr 2 < 4096 := Nat.lt_of_not_le hi
    exact Memory.wf_writeAll (decimalDigits (s.reg x)) (show s.effAddr 0 + 3 ≤ 4096 from hfit) h
  | ldMemVx x =>
    have hfit : s.effAddr x.val < 4096 := Nat.lt_of_not_le hi
    exact Memory.wf_writeAll (s.regsValues x) ((s.length_regsValues x).symm ▸ hfit) h
  | _ => exact h

theorem pcInv_advance {n : Nat} (h : s.pc.toNat ≤ 4094) (hn : n ≤ 4) : PcInv (s.advance n) := by
  rw [PcInv, State.advance_pc, BitVec.toNat_add, BitVec.toNat_ofNat]
  omega

theorem pcInv_setPc_addrOf (s : State) (nnn : Addr12) : PcInv (s.setPc (addrOf nnn)) := by
  have hn : nnn.toNat < 4096 := nnn.isLt
  rw [PcInv, State.setPc_pc, toNat_addrOf]
  omega

/-- The highest PC is that of a jump with offset, 0xFFF + 0xFF; a return goes to an entry at most 4094, plus 2. -/
theorem pcInv_completed (hi : ¬ FaultsWhen i s) (hpc : s.pc.toNat ≤ 4094) (hstack : StackInv s) : PcInv (completed i s) := by
  have hadvance {u : State} {n : Nat} (hu : u.pc = s.pc) (hn : n ≤ 4) : PcInv (u.advance n) :=
    pcInv_advance (hu ▸ hpc) hn
  cases i with
  | jpNnn nnn | callNnn nnn => exact pcInv_setPc_addrOf _ nnn
  | jpV0Nnn nnn =>
    have hn : nnn.toNat < 4096 := nnn.isLt
    have hb : (s.reg 0).toNat < 256 := (s.reg 0).isLt
    rw [PcInv, completed, State.setPc_pc, toNat_ofNat_addr_add_byte]
    omega
  | ret =>
    have hsp : s.sp.val ≠ 0 := hi
    have hentry : (s.stack[s.sp.val - 1]'(by omega)).toNat ≤ 4094 := hstack ⟨s.sp.val - 1, by omega⟩ (by simp only; omega)
    rw [PcInv, completed, State.setPc_pc]
    bv_omega
  | ldVxK => exact Nat.le_trans hpc (by decide)
  | seVxNn | sneVxNn | seVxVy | sneVxVy | skpVx | sknpVx => exact hadvance rfl (by split <;> decide)
  | _ => exact hadvance rfl (by decide)

theorem val_sp_completed_callNnn (nnn : Addr12) (h : s.sp.val ≠ 16) :
    (completed (.callNnn nnn) s).sp.val = s.sp.val + 1 :=
  Nat.mod_eq_of_lt (by omega)

theorem getElem_stack_completed_callNnn (nnn : Addr12) (h : s.sp.val ≠ 16) (j : Fin 16) :
    (completed (.callNnn nnn) s).stack[j] = if j.val = s.sp.val then s.pc else s.stack[j] := by
  have hd : (Fin.ofNat 16 s.sp.val).val = s.sp.val := Nat.mod_eq_of_lt (by omega)
  have hentry := s.getElem_stack_setStack (Fin.ofNat 16 s.sp.val) j s.pc
  rw [hd] at hentry
  exact hentry

/-- A call pushes its own address, which it was fetched from. -/
theorem stackInv_completed (hi : ¬ FaultsWhen i s) (hpc : s.pc.toNat ≤ 4094) (hstack : StackInv s) :
    StackInv (completed i s) := by
  cases i with
  | callNnn nnn =>
    have hsp : s.sp.val ≠ 16 := hi
    intro k hk
    rw [val_sp_completed_callNnn nnn hsp] at hk
    rw [getElem_stack_completed_callNnn nnn hsp]
    split
    · exact hpc
    · exact hstack k (by omega)
  | ret => exact fun k hk => hstack k (Nat.lt_of_lt_of_le hk (Nat.sub_le _ 1))
  | _ => exact hstack

/-- A key wait begins at the FX0A that was fetched. -/
theorem waitInv_completed {op : Word} (hm : s.mode = .running) (hf : s.fetch = .ok op) (hd : decodeWord op = .ok i) :
    WaitInv (completed i s) := by
  intro x hx
  rcases completed_mode i s with h | ⟨y, rfl, h⟩
  · cases hm.symm.trans (h.symm.trans hx)
  · cases h.symm.trans hx
    exact fetch_eq_encode hf hd

/-! ### Every step -/

theorem waitInv_of_running (hm : s.mode = .running) : WaitInv s := fun _ hx => nomatch hm.symm.trans hx

theorem engineInv_halt (c : Cause) (h : EngineInv s) : EngineInv (s.halt c) := by
  obtain ⟨hmem, hpc, hstack, -⟩ := h
  exact ⟨hmem, hpc, hstack, nofun⟩

theorem engineInv_pollKeys {x : Reg} (hm : s.mode = .waitingForKey x) (h : EngineInv s) : EngineInv (s.pollKeys x) := by
  obtain ⟨hmem, hpc, hstack, hwait⟩ := h
  rcases s.pollKeys_cases x with ⟨k, -, hp⟩ | ⟨-, hp⟩ <;> rw [hp]
  · exact ⟨hmem, pcInv_advance (s := s.setReg x _) (State.pc_of_fetch_ok (hwait x hm)) (by decide), hstack, nofun⟩
  · exact ⟨hmem, hpc, hstack, hwait⟩

theorem step_keeps_engineInv (h : EngineInv s) (hs : step s = .next t) : EngineInv t := by
  have ⟨hmem, _, hstack, _⟩ := h
  cases stepCase_of_step hs with
  | halted c _ ht => exact ht ▸ h
  | polls x hm ht => exact ht ▸ engineInv_pollKeys hm h
  | faults op i a _ _ _ _ ht => exact ht ▸ engineInv_halt _ h
  | completes op i hm hf hd hi ht =>
    have hpc := State.pc_of_fetch_ok hf
    exact ht ▸ ⟨memInv_completed hi hmem, pcInv_completed hi hpc hstack, stackInv_completed hi hpc hstack,
      waitInv_completed hm hf hd⟩
  | unknown op hm hf _ ht =>
    exact ht ▸ ⟨hmem, pcInv_advance (State.pc_of_fetch_ok hf) (by decide), hstack, waitInv_of_running hm⟩
  | fetchFaults _ _ ht => exact ht ▸ engineInv_halt _ h

/-- Settles O4, clause by clause where an instruction completes. -/
theorem stepKeepsInvariant : Obligations.StepKeepsInvariant := fun _ _ => step_keeps_engineInv

/-! ### Reset and the host's operations -/

theorem engineInv_resetWith (c : Config) : EngineInv (State.resetWith c) :=
  ⟨State.wf_resetWith c, show 512 ≤ 0x10FE by decide, nofun, nofun⟩

/-- Settles O3: memory lists nothing, PC is 512, the stack is empty and nothing is waited for. -/
theorem resetStateMeetsInvariant : Obligations.ResetStateMeetsInvariant :=
  ⟨engineInv_resetWith defaultConfig, engineInv_resetWith⟩

theorem engineInv_resetBlock (s : State) : EngineInv (resetBlock s) := engineInv_resetWith s.config

theorem engineInv_freshState : ∀ b : Block, EngineInv b.freshState
  | .unreset c _ => engineInv_resetWith c
  | .up s => engineInv_resetBlock s

theorem engineInv_load (bytes : List Byte) (s : State) : EngineInv (load bytes s) := by
  have hreset := engineInv_resetBlock s
  unfold load
  split
  · exact hreset
  · next hlen =>
    obtain ⟨hmem, hpc, hstack, -⟩ := hreset
    have hfit : bytes.length ≤ 3584 := Nat.not_lt.1 hlen
    rw [placeBytes_eq]
    exact ⟨Memory.wf_writeAll bytes (show 512 + bytes.length ≤ 4096 by omega) hmem, hpc, hstack, nofun⟩

theorem engineInv_tick (h : EngineInv s) : EngineInv (tick s) := by
  cases hm : s.mode with
  | halted c => rwa [tick_of_halted hm]
  | running | waitingForKey =>
    rw [tick_of_not_halted (by rw [hm]; nofun)]
    exact h

theorem applyUp_keeps_engineInv {op : HostOp} {r : Reply} (h : EngineInv s) (hop : applyUp op s = .next (t, r)) :
    EngineInv t := by
  cases op with
  | reset => cases hop; exact engineInv_resetBlock s
  | load bytes => cases hop; exact engineInv_load bytes s
  | step => exact step_keeps_engineInv h (step_of_applyUp_step hop)
  | tick => cases hop; exact engineInv_tick h
  | setKey k p =>
    simp only [applyUp] at hop
    split at hop <;> cases hop
    exact h
  | clearRedraw => cases hop; exact h
  | frameBuffer => cases hop; exact h

/-- The bounds R29 lists are the widths of the fields, but for three clauses of `EngineInv`. -/
theorem listedInvariants_and_memInv_iff : ListedInvariants s ∧ MemInv s ↔ EngineInv s := by
  constructor
  · rintro ⟨⟨-, -, -, -, -, -, -, -, hstack, hpc, hwait⟩, hmem⟩
    exact ⟨hmem, hpc, hstack, hwait⟩
  · rintro ⟨hmem, hpc, hstack, hwait⟩
    have hbyte (b : Byte) : b.toNat ≤ 255 := Nat.le_of_lt_succ b.isLt
    have hword (w : Word) : w.toNat ≤ 65535 := Nat.le_of_lt_succ w.isLt
    exact ⟨⟨Nat.le_of_lt_succ s.sp.isLt, fun _ => hbyte _, hbyte _, hbyte _, fun _ => hbyte _, hword _, hword _,
      fun _ => hword _, hstack, hpc, hwait⟩, hmem⟩

/-- Settles O5: the invariant of the engine is kept by each operation, and its clauses with the widths are the list of R29. -/
theorem everyOperationKeepsListedInvariants : Obligations.EveryOperationKeepsListedInvariants := by
  refine ⟨fun b t r h => ?_, fun op s t r hs h => ?_⟩
  · cases b.apply_reset.symm.trans h
    exact listedInvariants_and_memInv_iff.2 (engineInv_freshState b)
  · exact listedInvariants_and_memInv_iff.2 (applyUp_keeps_engineInv (listedInvariants_and_memInv_iff.1 hs) h)

end Sys2Proof.Machine

/-! PROOFS. Encoding and decoding (30_encoding.md R61 to R66): the round trip both ways, and the words each family accepts. -/

namespace Sys2Proof.Laws

/-! ### The round trip -/

/-- The family nibble of the word selects the branch, and the sub-code the instruction in it. -/
theorem decodeWord_encode (i : Instr) : decodeWord (encode i) = .ok i := by
  cases i with
  | cls | ret => rfl
  | seVxVy => simp [encode, decodeWord, decodeFamily5]
  | ldVxVy | orVxVy | andVxVy | xorVxVy | addVxVy | subVxVy | shrVx | subnVxVy | shlVx =>
    simp [encode, decodeWord, decodeFamily8]
  | sneVxVy => simp [encode, decodeWord, decodeFamily9]
  | skpVx | sknpVx => simp [encode, decodeWord, decodeFamilyE]
  | ldVxDt | ldVxK | ldDtVx | ldStVx | addIVx | ldFVx | ldBVx | ldMemVx | ldVxMem =>
    simp [encode, decodeWord, decodeFamilyF]
  | _ => simp [encode, decodeWord]

/-- Settles O6: each instruction's word holds its operands in the fields the decoder reads. -/
theorem decodeOfEncodeIsTheInstruction : Obligations.DecodeOfEncodeIsTheInstruction := fun i _ => by
  refine ⟨decodeWord_encode i, ?_⟩
  rw [decodeBytes, wordOfBytes_bytes]
  exact decodeWord_encode i

/-- Settles O7: each branch of the decoder keeps every field of the word that it does not fix. -/
theorem encodeOfDecodeIsTheWord : Obligations.EncodeOfDecodeIsTheWord := fun _ _ => encode_of_decodeWord

/-! ### The words each family accepts -/

theorem fieldN_eq_iff {op : Word} {n : Nibble} : fieldN op = n ↔ op.toNat % 16 = n.toNat := by
  rw [← BitVec.toNat_inj, toNat_fieldN]

theorem fieldNN_eq_iff {op : Word} {nn : Byte} : fieldNN op = nn ↔ op.toNat % 256 = nn.toNat := by
  rw [← BitVec.toNat_inj, toNat_fieldNN]

theorem decodeFamily0_isOk (op : Word) : (∃ i, decodeFamily0 op = .ok i) ↔ op = 0x00E0 ∨ op = 0x00EE := by
  unfold decodeFamily0
  split
  · simp_all
  · split <;> simp_all

theorem decodeFamily5_isOk (op : Word) : (∃ i, decodeFamily5 op = .ok i) ↔ op.toNat % 16 = 0 := by
  rw [show op.toNat % 16 = 0 ↔ fieldN op = 0 from (fieldN_eq_iff (n := 0)).symm]
  unfold decodeFamily5
  split <;> simp_all

theorem decodeFamily9_isOk (op : Word) : (∃ i, decodeFamily9 op = .ok i) ↔ op.toNat % 16 = 0 := by
  rw [show op.toNat % 16 = 0 ↔ fieldN op = 0 from (fieldN_eq_iff (n := 0)).symm]
  unfold decodeFamily9
  split <;> simp_all

theorem decodeFamily8_isOk (op : Word) :
    (∃ i, decodeFamily8 op = .ok i) ↔ op.toNat % 16 ∈ [0, 1, 2, 3, 4, 5, 6, 7, 0xE] := by
  rw [← toNat_fieldN]
  unfold decodeFamily8
  split <;> simp_all

theorem decodeFamilyE_isOk (op : Word) : (∃ i, decodeFamilyE op = .ok i) ↔ op.toNat % 256 ∈ [0x9E, 0xA1] := by
  unfold decodeFamilyE
  simp only [fieldNN_eq_iff]
  repeat' split
  all_goals simp_all

theorem decodeFamilyF_isOk (op : Word) : (∃ i, decodeFamilyF op = .ok i) ↔
    op.toNat % 256 ∈ [0x07, 0x0A, 0x15, 0x18, 0x1E, 0x29, 0x33, 0x55, 0x65] := by
  unfold decodeFamilyF
  simp only [fieldNN_eq_iff]
  repeat' split
  all_goals simp_all

/-- Settles O9: the number of the family selects the branch, whose own words are those of its sub-codes. -/
theorem strictDecodeBySubCode : Obligations.StrictDecodeBySubCode := fun op => by
  refine ⟨?_, fun h => ?_⟩
  · rw [← toNat_fieldF]
    unfold decodeWord
    split
    case h_1 hF => simp [hF, decodeFamily0_isOk]
    case h_6 hF => simp [hF, decodeFamily5_isOk]
    case h_9 hF => simp [hF, decodeFamily8_isOk]
    case h_10 hF => simp [hF, decodeFamily9_isOk]
    case h_15 hF => simp [hF, decodeFamilyE_isOk]
    case h_16 =>
      have hF : (fieldF op).toNat = 15 := by
        have := (fieldF op).isLt
        simp only [imp_false] at *
        omega
      simp [hF, decodeFamilyF_isOk]
    all_goals next hF => simp [hF]
  · cases hd : decodeWord op with
    | ok i => exact absurd hd (h i)
    | error w => rw [decodeWord_error_eq hd]

/-- Settles O10, by reading the eleven words. -/
theorem sampleWordsDecode : Obligations.SampleWordsDecode :=
  ⟨rfl, rfl, rfl, rfl, rfl, rfl, rfl, rfl, rfl, rfl, rfl⟩

end Sys2Proof.Laws

namespace Sys2Proof.Machine

/-- The number of an instruction's word spells the instruction. -/
theorem spells_of_toNat_encode {w : Nat} {i : Instr} (h : (encode i).toNat = w) : Spells w i := by
  rw [← h, Spells, BitVec.ofNat_toNat, BitVec.setWidth_eq]
  exact Laws.decodeWord_encode i

end Sys2Proof.Machine

/-! PROOFS. The host's operations (50_host_interface.md R200 to R206, 70_reset_and_hazards.md R250 to R252): reset and load, the
tick, what is refused, and what leaves mode Halted. -/

namespace Sys2Proof.Machine

variable {s : State} {bytes : List Byte}

/-! ### Reset -/

/-- The count of the draws is no piece of the reset table. -/
theorem resetValues_resetWith_setDraws (c : Config) (n : Nat) : ResetValues c ((State.resetWith c).setDraws n) := by
  refine ⟨fun x => ?reg, rfl, rfl, rfl, fun k => ?stack, fun a ha => ?font, fun a ha _ => ?zeros,
    fun p _ => pixel_blankScreen p, fun k => BitVec.getLsbD_zero, rfl, rfl, rfl, rfl, rfl⟩
  case reg => exact Vector.getElem_replicate x.isLt
  case stack => exact Vector.getElem_replicate k.isLt
  case font => exact dif_pos ha
  case zeros => exact dif_neg (Nat.not_lt.2 ha)

theorem resetValues_freshState : ∀ b : Block, ResetValues b.params b.freshState
  | .unreset c n => resetValues_resetWith_setDraws c n
  | .up s => resetValues_resetWith_setDraws s.config s.draws

@[simp] theorem Block.freshState_draws (b : Block) : b.freshState.draws = b.drawn := by
  cases b <;> rfl

/-! ### Load -/

/-- The bytes of a load are written over a freshly reset block. -/
theorem Block.apply_load_of_fits (b : Block) (h : bytes.length ≤ 3584) : b.apply (.load bytes) =
    .next (b.freshState.setMem (Memory.writeAll b.freshState.config bytes 512 b.freshState.mem), .load .ok) := by
  have hfit : ¬ bytes.length > romMax := Nat.not_lt.2 h
  cases b <;> simp only [Block.apply, applyUp, load, loadResult, hfit, if_false, placeBytes_eq] <;> rfl

theorem Block.apply_load_of_not_fits (b : Block) (h : 3584 < bytes.length) :
    b.apply (.load bytes) = .next (b.freshState, .load .capacityExceeded) := by
  have hfit : bytes.length > romMax := h
  cases b <;> simp only [Block.apply, applyUp, load, loadResult, hfit, if_true] <;> rfl

/-- Settles O1: a reset leaves the table's values whatever the block held, and a load writes only memory after it. -/
theorem resetAndLoadLeaveTheResetValues : Obligations.ResetAndLoadLeaveTheResetValues := by
  refine ⟨resetValues_resetWith_setDraws defaultConfig 0,
    fun b => ⟨_, b.apply_reset, resetValues_freshState b, b.freshState_draws⟩, fun b bytes h => ?_, fun b bytes => ?_⟩
  · exact ⟨_, _, b.apply_load_of_fits h, resetValues_freshState b, onlyChanges_setMem _ _,
      (State.byteAt_writeAll bytes 512 b.freshState).2⟩
  · rcases Nat.lt_or_ge 3584 bytes.length with h | h
    · exact ⟨_, _, b.apply_load_of_not_fits h, b.freshState_draws⟩
    · exact ⟨_, _, b.apply_load_of_fits h, b.freshState_draws⟩

/-- Settles O2: a byte outside the loaded ones is what the reset left there. -/
theorem loadCopiesTheRomOrRefusesIt : Obligations.LoadCopiesTheRomOrRefusesIt := by
  refine fun b bytes => ⟨fun h => ?_, fun h => ⟨_, b.apply_load_of_not_fits h, resetValues_freshState b⟩⟩
  have hreset := resetValues_freshState b
  have ⟨_, _, _, _, _, hfont, hzero, _⟩ := hreset
  obtain ⟨hin, hout⟩ := State.byteAt_writeAll bytes 512 b.freshState
  exact ⟨_, b.apply_load_of_fits h, hin,
    fun a ha hlt => (hout a (.inr ha)).trans (hzero a (by omega) hlt),
    fun a ha => (hout a (.inl (by omega))).trans (hfont a ha),
    fun a ha hlt => (hout a (.inl hlt)).trans (hzero a ha (by omega)),
    b.freshState, hreset, onlyChanges_setMem _ _⟩

/-! ### Tick -/

theorem toNat_countDown (b : Byte) : (countDown b).toNat = b.toNat - 1 := by
  unfold countDown
  split
  · next h => rw [h]; rfl
  · bv_omega

theorem tickBeep_iff : tickBeep s = true ↔ (∀ c, s.mode ≠ .halted c) ∧ s.st.toNat = 1 := by
  have hst : s.st = 1#8 ↔ s.st.toNat = 1 := by rw [← BitVec.toNat_inj]; rfl
  cases hm : s.mode <;> simp [tickBeep, hm, hst]

/-- Settles O27: outside mode Halted a tick writes both timers, each one less or 0. -/
theorem tickCountsDownAndBeepsOnce : Obligations.TickCountsDownAndBeepsOnce := fun s hm => by
  have hne : ∀ c, s.mode ≠ .halted c := by
    rcases hm with h | ⟨x, h⟩ <;> rw [h] <;> nofun
  have hbeep : tickBeep s = decide (s.st.toNat = 1) := by
    rw [Bool.eq_iff_iff, tickBeep_iff, decide_eq_true_iff]
    exact and_iff_right hne
  refine ⟨tick s, by rw [← hbeep]; rfl, ?_⟩
  rw [tick_of_not_halted hne]
  exact ⟨toNat_countDown s.dt, toNat_countDown s.st, (onlyChanges_setDt s _).trans (onlyChanges_setSt _ _)⟩

/-! ### Refusals -/

/-- Settles O31, operation by operation. -/
theorem onlyResetAndLoadBeforeTheFirstReset : Obligations.OnlyResetAndLoadBeforeTheFirstReset := fun c n op => by
  cases op with
  | reset | load => simp [Block.apply]
  | step | tick | setKey | clearRedraw | frameBuffer => simp [Block.apply]

theorem applyUp_refused_iff (s : State) (op : HostOp) :
    (∃ r, applyUp op s = .refused r) ↔ ∃ k p, op = .setKey k p ∧ 16 ≤ k := by
  cases op with
  | step =>
    obtain ⟨t, ht⟩ := exists_step s
    simp [applyUp, ht]
  | setKey k p =>
    by_cases hk : k < 16
    · simp [applyUp, hk, Nat.not_le.2 hk]
    · simp [applyUp, hk, Nat.le_of_not_lt hk]
  | reset | load | tick | clearRedraw | frameBuffer => simp [applyUp]

/-- Settles O32: a block that is up refuses by the key index alone, one that is not by the operation. -/
theorem onlyHostErrorsAreRefused : Obligations.OnlyHostErrorsAreRefused := fun b op => by
  cases b with
  | up s => exact (applyUp_refused_iff s op).trans (by simp)
  | unreset c n => cases op <;> simp [Block.apply]

/-! ### Mode Halted -/

theorem applyUp_mode_of_halted {c : Cause} {op : HostOp} {t : State} {r : Reply} (hm : s.mode = .halted c)
    (h : applyUp op s = .next (t, r)) (hreset : op ≠ .reset) (hload : ∀ bytes, op ≠ .load bytes) : t.mode = .halted c := by
  cases op with
  | reset => exact absurd rfl hreset
  | load bytes => exact absurd rfl (hload bytes)
  | step =>
    cases (step_of_halted hm).symm.trans (step_of_applyUp_step h)
    exact hm
  | tick => cases h; exact (tick_mode s).trans hm
  | setKey k p =>
    simp only [applyUp] at h
    split at h <;> cases h
    exact hm
  | clearRedraw | frameBuffer => cases h; exact hm

theorem exists_applyUp_load_mode (bytes : List Byte) (s : State) :
    ∃ t r, applyUp (.load bytes) s = .next (t, r) ∧ t.mode = .running := by
  rcases Nat.lt_or_ge 3584 bytes.length with h | h
  · exact ⟨_, _, (Block.up s).apply_load_of_not_fits h, rfl⟩
  · exact ⟨_, _, (Block.up s).apply_load_of_fits h, rfl⟩

/-- Settles O14, operation by operation. -/
theorem haltedIsLeftByResetOnly : Obligations.HaltedIsLeftByResetOnly := fun s c hm => by
  have hbeep : tickBeep s = false := by simp only [tickBeep, hm]
  have htick : applyUp .tick s = .next (s, .timer false) := by rw [applyUp, tick_of_halted hm, hbeep]
  exact ⟨step_of_halted hm, stepFault_without_info_iff.2 hm, htick,
    fun k p => ⟨_, applyUp_setKey k.isLt p s, getLsbD_setKey s k p, onlyChanges_setKeys s _⟩, rfl, rfl,
    fun _ _ _ => applyUp_mode_of_halted hm, ⟨_, rfl, rfl⟩, fun bytes => exists_applyUp_load_mode bytes s⟩

end Sys2Proof.Machine

/-! PROOFS. One clock edge of the pin-level sketch (50_host_interface.md R209): the code on `cmd` names an operation, and the edge
leaves what that operation answers. -/

namespace Sys2Proof.Machine

variable {p : PinInput} {c : Clocked}

/-! ### What an edge leaves -/

theorem edge_of_no_command (h : p.command = none) : c.edge p = { c with beep := false } := by
  simp only [Clocked.edge, h]

theorem edge_of_command {op : HostOp} {t : State} {r : Reply} (h : p.command = some op)
    (hop : applyUpWith p.rnd op c.block = .next (t, r)) :
    c.edge p = { block := t, beep := r.beep, warn := r.warnAfter c.warn } := by
  simp only [Clocked.edge, h, hop]

theorem edge_of_cmd_none (h : p.cmd = 0 ∨ p.cmd = 7) : c.edge p = { c with beep := false } :=
  edge_of_no_command (by rcases h with h | h <;> simp [PinInput.command, h])

theorem edge_of_cmd_reset (h : p.cmd = 1) : c.edge p = { c with block := resetBlock c.block, beep := false } :=
  edge_of_command (op := .reset) (by simp [PinInput.command, h]) rfl

theorem edge_of_cmd_step {t : State} (h : p.cmd = 2) (ht : stepWith p.rnd c.block = .next t) :
    c.edge p = { block := t, beep := false, warn := (stepOutcome c.block).warning } :=
  edge_of_command (op := .step) (r := .step (stepOutcome c.block)) (by simp [PinInput.command, h])
    (by simp only [applyUpWith, ht])

theorem edge_of_cmd_tick (h : p.cmd = 3) : c.edge p = { c with block := tick c.block, beep := tickBeep c.block } :=
  edge_of_command (op := .tick) (by simp [PinInput.command, h]) rfl

theorem edge_of_cmd_setKey (h : p.cmd = 4) :
    c.edge p = { c with block := setKey p.keyIdx.toFin p.keyVal c.block, beep := false } :=
  edge_of_command (op := .setKey p.keyIdx.toNat p.keyVal) (by simp [PinInput.command, h])
    (applyUp_setKey p.keyIdx.isLt p.keyVal c.block)

theorem edge_of_cmd_clearRedraw (h : p.cmd = 5) : c.edge p = { c with block := clearRedraw c.block, beep := false } :=
  edge_of_command (op := .clearRedraw) (by simp [PinInput.command, h]) rfl

theorem edge_of_cmd_load (h : p.cmd = 6) : c.edge p = { c with block := load p.rom c.block, beep := false } :=
  edge_of_command (op := .load p.rom) (by simp [PinInput.command, h]) rfl

/-- A `STEP` at an edge answers a next state, whatever byte is presented. -/
theorem exists_stepWith (r : Byte) (s : State) : ∃ t, stepWith r s = .next t := by
  by_cases h : ∃ x nn, RandomizesNext s x nn
  · obtain ⟨x, nn, h⟩ := h
    exact ⟨_, stepWith_randomizes h⟩
  · obtain ⟨t, ht⟩ := exists_step s
    exact ⟨t, (stepWith_other fun x nn hr => h ⟨x, nn, hr⟩).trans ht⟩

/-! ### The outputs that are no part of the block -/

/-- `beep` and `warn` by the code: only a `TICK` raises the one and only a `STEP` replaces the other. -/
theorem edge_cases (p : PinInput) (c : Clocked) :
    (p.cmd ≠ 2 ∧ p.cmd ≠ 3 ∧ (c.edge p).beep = false ∧ (c.edge p).warn = c.warn) ∨
    (p.cmd = 2 ∧ (c.edge p).beep = false ∧ (c.edge p).warn = (stepOutcome c.block).warning) ∨
    (p.cmd = 3 ∧ (c.edge p).beep = tickBeep c.block ∧ (c.edge p).warn = c.warn) := by
  have hcmd : ∀ k : BitVec 3, (k = 0 ∨ k = 7) ∨ k = 1 ∨ k = 2 ∨ k = 3 ∨ k = 4 ∨ k = 5 ∨ k = 6 := by decide
  have hother {k : BitVec 3} {u : State} (h : p.cmd = k) (he : c.edge p = { c with block := u, beep := false })
      (hk : k ≠ 2 ∧ k ≠ 3) : p.cmd ≠ 2 ∧ p.cmd ≠ 3 ∧ (c.edge p).beep = false ∧ (c.edge p).warn = c.warn := by
    rw [he, h]; exact ⟨hk.1, hk.2, rfl, rfl⟩
  rcases hcmd p.cmd with (h | h) | h | h | h | h | h | h
  · exact .inl (hother h (edge_of_cmd_none (.inl h)) (by decide))
  · exact .inl (hother h (edge_of_cmd_none (.inr h)) (by decide))
  · exact .inl (hother h (edge_of_cmd_reset h) (by decide))
  · obtain ⟨t, ht⟩ := exists_stepWith p.rnd c.block
    rw [edge_of_cmd_step h ht]
    exact .inr (.inl ⟨h, rfl, rfl⟩)
  · rw [edge_of_cmd_tick h]
    exact .inr (.inr ⟨h, rfl, rfl⟩)
  · exact .inl (hother h (edge_of_cmd_setKey h) (by decide))
  · exact .inl (hother h (edge_of_cmd_clearRedraw h) (by decide))
  · exact .inl (hother h (edge_of_cmd_load h) (by decide))

theorem edge_beep_iff : (c.edge p).beep = true ↔ p.cmd = 3 ∧ (∀ e, c.block.mode ≠ .halted e) ∧ c.block.st.toNat = 1 := by
  rw [← tickBeep_iff]
  rcases edge_cases p c with ⟨-, h3, hb, -⟩ | ⟨h2, hb, -⟩ | ⟨h3, hb, -⟩
  · exact hb ▸ ⟨nofun, fun h => absurd h.1 h3⟩
  · exact hb ▸ ⟨nofun, fun h => nomatch h2.symm.trans h.1⟩
  · exact hb ▸ (and_iff_right h3).symm

theorem edge_warn (p : PinInput) (c : Clocked) :
    (c.edge p).warn = if p.cmd = 2 then (stepOutcome c.block).warning else c.warn := by
  rcases edge_cases p c with ⟨h2, -, -, hw⟩ | ⟨h2, -, hw⟩ | ⟨h3, -, hw⟩
  · rw [hw, if_neg h2]
  · rw [hw, if_pos h2]
  · rw [hw, if_neg (by rw [h3]; decide)]

/-- Settles O33, code by code. -/
theorem clockEdgeIsOneOperation : Obligations.ClockEdgeIsOneOperation := by
  refine fun p c => ⟨fun h => by rw [edge_of_cmd_none h], fun h => by rw [edge_of_cmd_reset h]; rfl, fun h hne => ?other,
    fun h x nn hr => ?randomize, fun h => by rw [edge_of_cmd_tick h]; rfl, fun h => ?setKey,
    fun h => by rw [edge_of_cmd_clearRedraw h]; rfl, fun h => by rw [edge_of_cmd_load h]; rfl, edge_beep_iff, edge_warn p c⟩
  case other =>
    obtain ⟨t, ht⟩ := exists_step c.block
    rw [edge_of_cmd_step h ((stepWith_other hne).trans ht), ht]
  case randomize =>
    rw [edge_of_cmd_step h (stepWith_randomizes hr)]
    exact randomizeWith_frame p.rnd x nn c.block
  case setKey =>
    rw [edge_of_cmd_setKey h]
    exact applyUp_setKey p.keyIdx.isLt p.keyVal c.block

end Sys2Proof.Machine

/-! PROOFS. What a program cannot observe: the sound timer and the redraw flag (10_state.md R21, R22), and the stale entries of the
stack (R19). Two states that a step cannot tell apart take the same case of it. -/

namespace Sys2Proof.Machine

variable {s s' : State}

/-! ### Two runs of one step -/

/-- Two states of one mode that fetch the same and fault alike step by the same case; so a relation between them holds after the
step when each case keeps it. -/
theorem exists_steps_related {R : State → State → Prop} (hm : s'.mode = s.mode) (hf : s'.fetch = s.fetch)
    (hi : ∀ i, FaultsWhen i s' ↔ FaultsWhen i s) (hself : R s s') (hpoll : ∀ x, R (s.pollKeys x) (s'.pollKeys x))
    (hhalt : ∀ c, R (s.halt c) (s'.halt c)) (hadvance : R (s.advance 2) (s'.advance 2))
    (hcompleted : ∀ i, ¬ FaultsWhen i s → R (completed i s) (completed i s')) :
    ∃ t t', step s = .next t ∧ step s' = .next t' ∧ R t t' := by
  obtain ⟨t, ht, hc⟩ := exists_step_and_stepCase s
  cases hc with
  | halted c hm₁ hs => subst hs; exact ⟨_, _, ht, step_of_halted (hm.trans hm₁), hself⟩
  | polls x hm₁ hs => subst hs; exact ⟨_, _, ht, step_of_waitingForKey (hm.trans hm₁), hpoll x⟩
  | faults op i a hm₁ hf₁ hd hi₁ hs =>
    subst hs
    exact ⟨_, _, ht, (step_of_decodes (hm.trans hm₁) (hf.trans hf₁) hd).trans (exec_of_faultsWhen ((hi i).2 hi₁)), hhalt _⟩
  | completes op i hm₁ hf₁ hd hi₁ hs =>
    subst hs
    exact ⟨_, _, ht, (step_of_decodes (hm.trans hm₁) (hf.trans hf₁) hd).trans
      (exec_of_not_faultsWhen (mt (hi i).1 hi₁)), hcompleted i hi₁⟩
  | unknown op hm₁ hf₁ hd hs => subst hs; exact ⟨_, _, ht, step_of_unknown (hm.trans hm₁) (hf.trans hf₁) hd, hadvance⟩
  | fetchFaults hm₁ hpc hs =>
    subst hs
    exact ⟨_, _, ht, step_of_fetch_error (hm.trans hm₁) (hf.trans (State.fetch_error hpc)), hhalt _⟩

/-- A poll reads KEY alone. -/
theorem pollKeys_related {R : State → State → Prop} (hkey : s'.key = s.key) (hself : R s s')
    (hsome : ∀ x k, R (((s.setReg x (BitVec.ofNat 8 k)).advance 2).setMode .running)
      (((s'.setReg x (BitVec.ofNat 8 k)).advance 2).setMode .running)) (x : Reg) : R (s.pollKeys x) (s'.pollKeys x) := by
  cases hk : lowestKey s.key with
  | none => rwa [pollKeys_of_no_key hk, pollKeys_of_no_key (hkey ▸ hk)]
  | some k => rw [pollKeys_of_lowestKey hk, pollKeys_of_lowestKey (hkey ▸ hk)]; exact hsome x k

/-! ### The sound timer and the redraw flag -/

theorem onlyChanges_of_eq_setSt_setRedraw {t t' : State} (h : t' = (t.setSt t'.st).setRedraw t'.redraw) :
    OnlyChanges [.st, .redraw] t t' :=
  h ▸ (onlyChanges_setSt t _).trans (onlyChanges_setRedraw _ _)

/-- No effect reads the sound timer or the redraw flag. -/
theorem completed_setSt_setRedraw (i : Instr) (s : State) (b : Byte) (r : Bool) :
    OnlyChanges [.st, .redraw] (completed i s) (completed i ((s.setSt b).setRedraw r)) := by
  apply onlyChanges_of_eq_setSt_setRedraw
  cases i <;> rfl

/-- No row of R223 reads them either. -/
theorem faultsWhen_setSt_setRedraw (i : Instr) (s : State) (b : Byte) (r : Bool) :
    FaultsWhen i ((s.setSt b).setRedraw r) ↔ FaultsWhen i s := by
  cases i <;> exact Iff.rfl

/-- Settles O24: the two states step by the same case, and no case reads ST or REDRAW. -/
theorem stepIgnoresSoundTimerAndRedraw : Obligations.StepIgnoresSoundTimerAndRedraw := fun s b r =>
  have hof {t t' : State} := onlyChanges_of_eq_setSt_setRedraw (t := t) (t' := t')
  exists_steps_related (s' := (s.setSt b).setRedraw r) rfl rfl (fun i => faultsWhen_setSt_setRedraw i s b r) (hof rfl)
    (pollKeys_related rfl (hof rfl) fun _ _ => hof rfl) (fun _ => hof rfl) (hof rfl)
    fun i _ => completed_setSt_setRedraw i s b r

/-! ### Stale stack entries -/

/-- `t'` is `t` but for stack entries at or above SP. -/
def DiffersInStale (t t' : State) : Prop :=
  t' = { t with stack := t'.stack } ∧ ∀ j : Fin 16, j.val < t.sp.val → t'.stack[j] = t.stack[j]

/-- A return reads the top live entry and a call writes the next one; no other effect touches the stack. -/
theorem completed_setStack {k : Vector Word 16} {i : Instr} (hi : ¬ FaultsWhen i s)
    (hk : ∀ j : Fin 16, j.val < s.sp.val → k[j] = s.stack[j]) :
    DiffersInStale (completed i s) (completed i { s with stack := k }) := by
  cases i with
  | ret =>
    have hsp : s.sp.val ≠ 0 := hi
    have htop : k[s.sp.val - 1]'(by omega) = s.stack[s.sp.val - 1]'(by omega) :=
      hk ⟨s.sp.val - 1, by omega⟩ (by simp only; omega)
    refine ⟨?_, fun j hj => hk j (Nat.lt_of_lt_of_le hj (Nat.sub_le _ 1))⟩
    simp only [completed, htop]
    rfl
  | callNnn nnn =>
    have hsp : s.sp.val ≠ 16 := hi
    refine ⟨rfl, fun j hj => ?_⟩
    rw [val_sp_completed_callNnn nnn hsp] at hj
    have hentry : (completed (.callNnn nnn) { s with stack := k }).stack[j] = if j.val = s.sp.val then s.pc else k[j] :=
      getElem_stack_completed_callNnn nnn (s := { s with stack := k }) hsp j
    rw [hentry, getElem_stack_completed_callNnn nnn hsp]
    split
    · rfl
    · exact hk j (by omega)
  | _ => exact ⟨rfl, hk⟩

/-- Settles O25: the two states step by the same case, and a live entry of either is one of both. -/
theorem staleStackEntriesAreUnobservable : Obligations.StaleStackEntriesAreUnobservable := fun s k hk => by
  have hi (i : Instr) : FaultsWhen i { s with stack := k } ↔ FaultsWhen i s := by cases i <;> exact Iff.rfl
  exact exists_steps_related (R := DiffersInStale) (s' := { s with stack := k }) rfl rfl hi ⟨rfl, hk⟩
    (pollKeys_related rfl ⟨rfl, hk⟩ fun _ _ => ⟨rfl, hk⟩) (fun _ => ⟨rfl, hk⟩) ⟨rfl, hk⟩
    fun _ hf => completed_setStack hf hk

/-! ### A dump over the next instruction -/

/-- Settles O26: the two bytes at PC + 2 are two of the dumped ones, and memory is what the fetch reads. -/
theorem dumpedBytesAreFetchedNext : Obligations.DumpedBytesAreFetchedNext := fun x k k' s hfit hsucc hk' hpc => by
  obtain ⟨t, hexec, hbytes, -, -, htpc, -⟩ := ((registerDump x).2 s).1 hfit
  have hat : t.pc.toNat = s.effAddr k.val := by rw [htpc, hpc]
  have hnext : s.effAddr k.val + 1 = s.effAddr k'.val := by rw [hsucc]; rfl
  have hle : s.effAddr k'.val ≤ s.effAddr x.val := Nat.add_le_add_left hk' _
  have hkx : k ≤ x := Fin.le_def.2 (by have := Fin.le_def.1 hk'; omega)
  refine ⟨t, hexec, ?_⟩
  rw [State.fetch_ok (by omega), hat, hnext, hbytes k hkx, hbytes k' hk']

end Sys2Proof.Machine

/-! PROOFS. The sprite draw (45_draw.md R160 to R163). -/

namespace Sys2Proof.Machine

variable {s t : State} {x y : Reg} {n : Nibble} {p : Nat}

theorem spells_drwVxVyN (x y : Reg) (n : Nibble) :
    Spells (0xD000 + x.val * 0x100 + y.val * 0x10 + n.toNat) (.drwVxVyN x y n) :=
  spells_of_toNat_encode (Laws.toNat_wordFXYN 0xD x y n)

/-! ### What a draw that fits leaves -/

theorem exec_drwVxVyN_of_fits (h : SpriteFits s x y n) :
    exec (.drwVxVyN x y n) s = .next (completed (.drwVxVyN x y n) s) :=
  exec_of_not_faultsWhen (not_not_intro h)

theorem pixel_completed_of_spritePixel (h : SpriteFits s x y n) (hp : SpritePixel s x y n p) :
    pixel (completed (.drwVxVyN x y n) s).fb p = !pixel s.fb p := (State.pixel_toggleSprite h p).1 hp

theorem pixel_completed_of_not_spritePixel (h : SpriteFits s x y n) (hp : ¬ SpritePixel s x y n p) :
    pixel (completed (.drwVxVyN x y n) s).fb p = pixel s.fb p := (State.pixel_toggleSprite h p).2 hp

theorem any_spritePixels_iff :
    (s.spritePixels x y n).any (pixel s.fb) = true ↔ ∃ p, SpritePixel s x y n p ∧ pixel s.fb p = true := by
  simp only [List.any_eq_true, State.mem_spritePixels]

/-- VF after a draw is the flag of a collision: written first, it is the only register the draw writes. -/
theorem reg_vf_completed_drwVxVyN :
    (completed (.drwVxVyN x y n) s).reg vf = flagByte ((s.spritePixels x y n).any (pixel s.fb)) :=
  s.reg_setReg_same vf _

theorem reg_vf_completed_drwVxVyN_eq_one_iff :
    (completed (.drwVxVyN x y n) s).reg vf = 1 ↔ ∃ p, SpritePixel s x y n p ∧ pixel s.fb p = true := by
  have hflag : ∀ b, flagByte b = 1 ↔ b = true := by decide
  rw [reg_vf_completed_drwVxVyN, hflag, any_spritePixels_iff]

theorem reg_vf_completed_drwVxVyN_eq_zero (h : ∀ p, SpritePixel s x y n p → pixel s.fb p = false) :
    (completed (.drwVxVyN x y n) s).reg vf = 0 := by
  have hany : (s.spritePixels x y n).any (pixel s.fb) = false := by
    rw [← Bool.not_eq_true, any_spritePixels_iff]
    rintro ⟨p, hp, h1⟩
    exact Bool.false_ne_true ((h p hp).symm.trans h1)
  rw [reg_vf_completed_drwVxVyN, hany]
  rfl

theorem onlyReg_completed_drwVxVyN : OnlyReg vf s (completed (.drwVxVyN x y n) s) := onlyReg_setReg s vf _

theorem onlyChanges_completed_drwVxVyN : OnlyChanges [.v, .fb, .redraw, .pc] s (completed (.drwVxVyN x y n) s) :=
  (((onlyChanges_setReg s vf _).trans (onlyChanges_setFb _ _)).trans (onlyChanges_setRedraw _ _)).trans
    (onlyChanges_advance _ 2)

/-- Settles O48: a draw that fits toggles the sprite's pixels one by one, and one that does not raises at the first address or
index out of range, which discards what it had drawn. -/
theorem drawIsTheCompositor : Obligations.DrawIsTheCompositor := by
  refine fun x y n => ⟨spells_drwVxVyN x y n, fun s => ⟨fun h => ?_, fun h => ?_⟩⟩
  · exact ⟨_, exec_drwVxVyN_of_fits h, fun _ => pixel_completed_of_spritePixel h, fun _ => pixel_completed_of_not_spritePixel h,
      reg_vf_completed_drwVxVyN_eq_one_iff.2, reg_vf_completed_drwVxVyN_eq_zero, rfl, rfl, onlyReg_completed_drwVxVyN,
      onlyChanges_completed_drwVxVyN⟩
  · obtain ⟨a, he, ha⟩ := effectDrwVxVyN_error h
    obtain ⟨hexec, hraises⟩ := exec_and_raises_of_outOfRange (i := .drwVxVyN x y n) rfl rfl he
    exact ⟨hexec, a, hraises, ha⟩

/-! ### The same sprite drawn again -/

/-- The pixels of a sprite depend on its coordinates, on I and on memory alone. -/
theorem spritePixel_congr (hx : t.reg x = s.reg x) (hy : t.reg y = s.reg y) (hi : t.i = s.i)
    (hmem : ∀ a, t.byteAt a = s.byteAt a) : SpritePixel t x y n p ↔ SpritePixel s x y n p := by
  simp only [SpritePixel, State.effAddr, hx, hy, hi, hmem]

theorem spriteFits_congr (hi : t.i = s.i) (hp : ∀ p, SpritePixel t x y n p ↔ SpritePixel s x y n p) :
    SpriteFits t x y n ↔ SpriteFits s x y n := by
  simp only [SpriteFits, State.effAddr, hi, hp]

/-- A draw keeps a coordinate that is not VF, and any coordinate when it leaves VF as it was. -/
theorem reg_completed_drwVxVyN_of {z : Reg}
    (h : z ≠ vf ∨ (completed (.drwVxVyN x y n) s).reg vf = s.reg vf) : (completed (.drwVxVyN x y n) s).reg z = s.reg z := by
  by_cases hz : z = vf
  · exact hz ▸ h.resolve_left (not_not_intro hz)
  · exact onlyReg_completed_drwVxVyN z hz

theorem spritePixel_completed_drwVxVyN_iff
    (hxy : x ≠ vf ∧ y ≠ vf ∨ (completed (.drwVxVyN x y n) s).reg vf = s.reg vf) :
    SpritePixel (completed (.drwVxVyN x y n) s) x y n p ↔ SpritePixel s x y n p :=
  spritePixel_congr (reg_completed_drwVxVyN_of (hxy.imp_left And.left)) (reg_completed_drwVxVyN_of (hxy.imp_left And.right))
    (onlyChanges_completed_drwVxVyN .i (by decide)) (onlyChanges_completed_drwVxVyN .mem (by decide))

/-- Settles O49: the second draw has the sprite of the first, each of whose pixels it toggles back. -/
theorem drawTwiceRestores : Obligations.DrawTwiceRestores := by
  refine fun x y n s h => ⟨_, exec_drwVxVyN_of_fits h, reg_vf_completed_drwVxVyN_eq_one_iff, fun hxy => ?_⟩
  have hpixel (p : Nat) := spritePixel_completed_drwVxVyN_iff (p := p) hxy
  have hfits := (spriteFits_congr (onlyChanges_completed_drwVxVyN .i (by decide)) hpixel).2 h
  refine ⟨_, exec_drwVxVyN_of_fits hfits, frameBuffer_ext fun p _ => ?_, ?_⟩
  · by_cases hp : SpritePixel s x y n p
    · rw [pixel_completed_of_spritePixel hfits ((hpixel p).2 hp), pixel_completed_of_spritePixel h hp, Bool.not_not]
    · rw [pixel_completed_of_not_spritePixel hfits (mt (hpixel p).1 hp), pixel_completed_of_not_spritePixel h hp]
  · rw [reg_vf_completed_drwVxVyN_eq_one_iff]
    refine exists_congr fun p => ?_
    rw [hpixel p]
    refine and_congr_right fun hp => ?_
    rw [pixel_completed_of_spritePixel h hp, Bool.not_eq_true']

end Sys2Proof.Machine

/-! PROOFS. Randomize (44_index_jump_random.md R152), the key skips (46_keys.md R170, R171), index arithmetic and font address
(48_index_memory.md R190, R191). -/

namespace Sys2Proof.Laws

/-- The sub-code `nn` before the register field, as the obligations write the words. -/
theorem toNat_wordFXNN_subCode_first (f : Nibble) (x : Reg) (nn : Byte) :
    (wordFXNN f x nn).toNat = f.toNat * 0x1000 + nn.toNat + x.val * 0x100 := by
  rw [toNat_wordFXNN, Nat.add_right_comm]

end Sys2Proof.Laws

namespace Sys2Proof.Machine

variable {x : Reg} {s : State}

/-! ### The words of the five (R61, R64) -/

theorem spells_rndVxNn (x : Reg) (nn : Byte) : Spells (0xC000 + x.val * 0x100 + nn.toNat) (.rndVxNn x nn) :=
  spells_of_toNat_encode (Laws.toNat_wordFXNN 0xC x nn)

theorem spells_skpVx (x : Reg) : Spells (0xE09E + x.val * 0x100) (.skpVx x) :=
  spells_of_toNat_encode (Laws.toNat_wordFXNN_subCode_first 0xE x 0x9E)

theorem spells_sknpVx (x : Reg) : Spells (0xE0A1 + x.val * 0x100) (.sknpVx x) :=
  spells_of_toNat_encode (Laws.toNat_wordFXNN_subCode_first 0xE x 0xA1)

theorem spells_addIVx (x : Reg) : Spells (0xF01E + x.val * 0x100) (.addIVx x) :=
  spells_of_toNat_encode (Laws.toNat_wordFXNN_subCode_first 0xF x 0x1E)

theorem spells_ldFVx (x : Reg) : Spells (0xF029 + x.val * 0x100) (.ldFVx x) :=
  spells_of_toNat_encode (Laws.toNat_wordFXNN_subCode_first 0xF x 0x29)

/-! ### Randomize -/

theorem and_and_not_self (r nn : Byte) : r &&& nn &&& ~~~nn = 0 := by
  rw [BitVec.and_assoc, BitVec.and_not_self]
  exact BitVec.and_zero

/-- Settles O47: the drawn byte is masked before it is stored. -/
theorem randomizeMasksTheDraw : Obligations.RandomizeMasksTheDraw := fun x nn => by
  refine ⟨spells_rndVxNn x nn, fun s => ?_⟩
  obtain ⟨hreg, hframe⟩ := randomizeWith_frame (Config.drawByte s.draws) x nn s
  exact ⟨_, rfl, hreg, hreg ▸ and_and_not_self _ nn, hframe⟩

/-! ### Key skips -/

theorem exec_skpVx_of_lt (h : (s.reg x).toNat < 16) :
    exec (.skpVx x) s = .next (s.skipIf (s.key.getLsbD (s.reg x).toNat)) :=
  congrArg (commit s) (effectSkpVx_ok h)

theorem exec_sknpVx_of_lt (h : (s.reg x).toNat < 16) :
    exec (.sknpVx x) s = .next (s.skipIf (!s.key.getLsbD (s.reg x).toNat)) :=
  congrArg (commit s) (effectSknpVx_ok h)

/-- Settles O50: each is a skip on the key's bit or on its negation, or the fault of a key number out of range. -/
theorem keySkips : Obligations.KeySkips := by
  refine fun x => ⟨spells_skpVx x, spells_sknpVx x, fun s => ⟨fun h => ?_, fun h => ?_⟩⟩
  · exact ⟨exists_next_of_exec_eq_skipIf (exec_skpVx_of_lt h) Iff.rfl,
      exists_next_of_exec_eq_skipIf (exec_sknpVx_of_lt h) (iff_of_eq (Bool.not_eq_true' _))⟩
  · obtain ⟨hskp, hskpRaises⟩ := exec_and_raises_of_outOfRange (i := .skpVx x) rfl rfl (effectSkpVx_error h)
    obtain ⟨hsknp, hsknpRaises⟩ := exec_and_raises_of_outOfRange (i := .sknpVx x) rfl rfl (effectSknpVx_error h)
    exact ⟨hskp, hsknp, hskpRaises, hsknpRaises⟩

/-! ### Index arithmetic and font address -/

theorem toNat_indexSum (i : Word) (a : Byte) : (indexSum i a).toNat = (i.toNat + a.toNat) % 65536 := BitVec.toNat_ofNat _ 16

theorem toNat_indexFlag (i : Word) (a : Byte) : (indexFlag i a).toNat = if i.toNat + a.toNat > 0xFFF then 1 else 0 :=
  toNat_flagByte_decide _

theorem completed_addIVx_of_setsVF (h : s.config.fx1eSetsVF = true) : completed (.addIVx x) s =
    ((s.setReg vf (indexFlag s.i (s.reg x))).setI (indexSum s.i (s.reg x))).advance 2 := by
  simp only [completed, h, if_true]

theorem completed_addIVx_of_keepsVF (h : s.config.fx1eSetsVF = false) : completed (.addIVx x) s =
    (s.setI (indexSum s.i (s.reg x))).advance 2 := by
  simp [completed, h]

/-- Settles O53, by the value of the parameter. -/
theorem addToIndex : Obligations.AddToIndex := fun x => by
  refine ⟨spells_addIVx x, fun s => ⟨_, exec_addIVx x s, toNat_indexSum s.i (s.reg x), rfl, fun h => ?_, fun h => ?_⟩⟩
  · rw [completed_addIVx_of_setsVF h]
    exact ⟨(congrArg BitVec.toNat (s.reg_setReg_same vf _)).trans (toNat_indexFlag s.i (s.reg x)), onlyReg_setReg s vf _,
      ((onlyChanges_setReg s vf _).trans (onlyChanges_setI _ _)).trans (onlyChanges_advance _ 2)⟩
  · rw [completed_addIVx_of_keepsVF h]
    exact (onlyChanges_setI s _).trans (onlyChanges_advance _ 2)

/-- Settles O54: a glyph number below 16 has its address below 80, and a higher one is out of range. -/
theorem fontAddress : Obligations.FontAddress := by
  refine fun x => ⟨spells_ldFVx x, fun s => ⟨fun h => ?_, fun h =>
    exec_and_raises_of_outOfRange rfl rfl (effectLdFVx_error h)⟩⟩
  have haddr : (BitVec.ofNat 16 ((s.reg x).toNat * 5)).toNat = (s.reg x).toNat * 5 :=
    (BitVec.toNat_ofNat _ 16).trans (Nat.mod_eq_of_lt (by omega))
  exact ⟨_, congrArg (commit s) (effectLdFVx_ok h), haddr, rfl, (onlyChanges_setI s _).trans (onlyChanges_advance _ 2)⟩

end Sys2Proof.Machine
